-- ==== Sys2Proof/Word.lean ====
section
/-! DEFINITION. The byte and the 3-byte command frame (00_scope.md R7, 30_encoding.md R60). -/

namespace Sys2Proof

/-- A byte: 8 bits, an unsigned integer 0..255 (R7). -/
abbrev Byte := BitVec 8

/-- A command frame, "exactly 3 raw bytes" (R60), named byte1, byte2, byte3 as in R7. -/
structure Frame where
  byte1 : Byte
  byte2 : Byte
  byte3 : Byte
  deriving DecidableEq, Repr, Inhabited

/-- The frame in transmission order, byte1 first (R44; DESIGN CHOICE of the spec, D3, log 13). -/
def Frame.bytes (f : Frame) : List Byte := [f.byte1, f.byte2, f.byte3]

end Sys2Proof
end

