-- ==== Sys2Proof/Config.lean ====
section
/-! DEFINITION. What an implementation fixes (00_scope.md R6), the parameters the spec leaves OPEN, and the free
values: the answers of the Transport and of the clock, and the text of numbers the source does not format. -/

namespace Sys2Proof

/-- `F_MCLK`, the numerator constant of the divisor formula (R6). -/
def Config.fMclk : Int := 2457600

/-- `DIV_K`, the constant factor of the divisor formula (R6). -/
def Config.divK : Int := 128

/-- `FREQ_MIN`, in Hz (R6). -/
def Config.freqMin : Int := 5

/-- `FREQ_MAX`, in Hz (R6). -/
def Config.freqMax : Int := 1000

/-- `MID`, the offset-binary mid-scale (R6). -/
def Config.mid : Int := 0x800000

/-- `RB_LEN`, the length of the read-back record (R6). -/
def Config.rbLen : Nat := 14

/-- First byte of `RB_MARKER` (R6). -/
def Config.rbMarker0 : Byte := 0xEE

/-- Second byte of `RB_MARKER` (R6). -/
def Config.rbMarker1 : Byte := 0xEA

/-- `EE_ACK`, the EEPROM write acknowledgement byte (R6). -/
def Config.eeAck : Byte := 0xB0

/-- The values the parameter `SPEED_BASE` may take: those for which `SPEED_BASE + index`, index 0..5, fits one byte
(R6, R8; log 10). -/
abbrev SpeedBase := Fin 251

/-- The value R6 gives `SPEED_BASE`: 0x0E. UNVERIFIED: the literal is suspect and kept as written; the parameter is OPEN
(C4, D7; log 10). -/
def Config.speedBaseDefault : SpeedBase := 0x0E

/-- `SPEED_GUARD`, byte1 and byte2 of the speed frame (R6). -/
def Config.speedGuard : Byte := 0x5A

/-- `BAUD_DEFAULT` (R6). -/
def Config.baudDefault : Int := 19200

/-- `TIMEOUT_DEFAULT`, in seconds (R6). -/
def Config.timeoutDefault : Rat := 1

/-- The OPEN type argument `Time` (R6, D27): which of the natural numbers name a timestamp, under no law (log 15). -/
opaque Config.isTime : Nat → Bool

/-- `Time`, the abstract type of the capture timestamp (R6, R137): one timestamp, and any others whatever, as
`Config.isTime` says. Neither its size nor an order, an epoch or a resolution is known (N18; log 15). -/
structure Time where
  point : Option { n : Nat // Config.isTime n = true }
  deriving DecidableEq, Repr, Inhabited

/-- A timestamp read as a time of day: hours, minutes, seconds and six fractional digits (R142). -/
structure ClockReading where
  hour : Fin 24
  minute : Fin 60
  second : Fin 61
  micro : Fin 1000000
  deriving DecidableEq, Repr, Inhabited

/-- The parameters R6 marks OPEN that a run takes as arguments: `INPUT_CODE`, one code for each name, `EE_POLL_MAX`,
`none` for no bound, and `SPEED_BASE` (D6, D7, D22; DESIGN CHOICE, log 11). -/
structure Params where
  lineACode : Int
  lineBCode : Int
  selfVoltageCode : Int
  testModeCode : Int
  eePollMax : Option Nat
  speedBase : SpeedBase
  deriving DecidableEq, Repr

/-- The values of R6: the names in the listed order, no bound on the polls, the base as written. -/
def Params.default : Params := ⟨0, 1, 2, 3, none, Config.speedBaseDefault⟩

/-- One free answer (R5): what the Transport or the clock gives to one call.
`ok` is false where the call fails; `count` is the count a `write` reports and the most bytes a `read` returns;
before the call takes effect the input buffer lost its `lost` oldest bytes and then received the bytes `arrived`;
`time` is what the clock shows. Each call looks only at the fields it needs (DESIGN CHOICE, log 4, log 5; safe). -/
structure Answer where
  ok : Bool
  count : Nat
  lost : Nat
  arrived : List Byte
  time : Time
  deriving DecidableEq, Repr, Inhabited

/-- FREE VALUE (log 4): the answer to the draw of this number, once the answers State lists are used up. -/
opaque Config.transportAnswer : Nat → Answer

/-- FREE VALUE (log 17): the time of day a timestamp shows; the source gives no time zone (R142, N18). -/
opaque Config.clockReading : Time → ClockReading

/-- FREE VALUE (log 17): the text of a sample's value, a rational number (R142, N8). -/
opaque Config.valueText : Rat → String

/-- FREE VALUE (log 17): the text of a timer byte (R142, N8). -/
opaque Config.timerText : Byte → String

/-- FREE VALUE (log 17): the text of the frequency 19200 / c of a divisor c (R156, N8). -/
opaque Config.freqText : Nat → String

/-- FREE VALUE (log 17): the error entry of a slot whose group failed to decode (R156, N8). -/
opaque Config.slotErrorText : Nat → String

end Sys2Proof
end

