-- ==== Sys2Proof/Syntax.lean ====
section
/-! DEFINITION. The frame-level instructions, one constructor per row of spec/opcode_table.json, with the operands of
30_encoding.md R76. Operands are unbounded integers (R8); the closed set of each is WellFormed.lean's (R81). -/

namespace Sys2Proof

/-- A frame-level instruction: an operation that emits exactly one command frame (R12, R76). -/
inductive Instr where
  /-- `ACT m`: activate channels (R82). -/
  | act (m : Int)
  /-- `INTYPE ch, t`: set input type (R84). -/
  | intype (ch t : Int)
  /-- `FREQHI ch, c`: set frequency, high-byte frame of the divisor c (R86). -/
  | freqhi (ch c : Int)
  /-- `FREQLO ch, c`: set frequency, low-byte frame of the divisor c (R85). -/
  | freqlo (ch c : Int)
  /-- `GAINCAL ch, k, g`: set calibration k and gain code g (R87). -/
  | gaincal (ch k g : Int)
  /-- `REINIT m`: reinitialize (R83). -/
  | reinit (m : Int)
  /-- `SPEED 0`: 2400 baud (R96). -/
  | speed0
  /-- `SPEED 1`: 4800 baud (R96). -/
  | speed1
  /-- `SPEED 2`: 9600 baud (R96). -/
  | speed2
  /-- `SPEED 3`: 19200 baud (R96). -/
  | speed3
  /-- `SPEED 4`: 38400 baud (R96). -/
  | speed4
  /-- `SPEED 5`: 57600 baud (R96). -/
  | speed5
  /-- `TMRRST`: reset timer (R88). -/
  | tmrrst
  /-- `EERD`: EEPROM read (R94). -/
  | eerd
  /-- `EEADDR a`: EEPROM address select (R93). -/
  | eeaddr (a : Int)
  /-- `EEWR v`: EEPROM write (R95). -/
  | eewr (v : Int)
  /-- `QUERY`: query parameters (R90). -/
  | query
  /-- `MODE5`: enable 5-byte/timer mode (R91). -/
  | mode5
  /-- `MODE4`: return to 4-byte mode (R92). -/
  | mode4
  /-- `STOP`: stop (R89). -/
  | stop
  deriving DecidableEq, Repr

end Sys2Proof
end

