-- ==== Sys2Proof/WellFormed.lean ====
section
/-! DEFINITION. The closed sets of the operands of a frame-level instruction (40_command_frames.md R81). -/

namespace Sys2Proof

/-- `n` in {lo..hi}. -/
def within (lo hi n : Int) : Bool := decide (lo ≤ n) && decide (n ≤ hi)

/-- Every operand lies in its closed set (R81): channel 1..4, mask 0..15, input type 0..3, divisor 0..65535,
calibration and gain code 0..7, EEPROM byte 0..255. -/
def Instr.wellFormed : Instr → Bool
  | .act m => within 0 15 m
  | .intype ch t => within 1 4 ch && within 0 3 t
  | .freqhi ch c => within 1 4 ch && within 0 65535 c
  | .freqlo ch c => within 1 4 ch && within 0 65535 c
  | .gaincal ch k g => within 1 4 ch && within 0 7 k && within 0 7 g
  | .reinit m => within 0 15 m
  | .speed0 => true
  | .speed1 => true
  | .speed2 => true
  | .speed3 => true
  | .speed4 => true
  | .speed5 => true
  | .tmrrst => true
  | .eerd => true
  | .eeaddr a => within 0 255 a
  | .eewr v => within 0 255 v
  | .query => true
  | .mode5 => true
  | .mode4 => true
  | .stop => true

end Sys2Proof
end

