-- ==== Sys2Proof/Decode.lean ====
section
/-! DEFINITION. The opcode map both ways (30_encoding.md R61 to R70, R74, R76): a decoder of command frames, total on
any bytes and rejecting by name, and after it the encoder. -/

namespace Sys2Proof

/-- Why a byte string is no command frame of the map (R74). -/
inductive DecodeError where
  /-- Not exactly 3 bytes (R60). -/
  | wrongLength
  /-- byte3 is unassigned (R74). -/
  | unassignedOpcode
  /-- The low nibble of byte3 of a channel frame is not one-hot (R63, R74). -/
  | badChannelBit
  /-- byte1 or byte2 is outside the field the row of the map gives it (R46, R74). -/
  | badOperandByte
  deriving DecidableEq, Repr

/-- The channel a one-hot channel-bit names (R63). -/
def channelOfBit (c : Nat) : Option Int :=
  match c with
  | 1 => some 1
  | 2 => some 2
  | 4 => some 3
  | 8 => some 4
  | _ => none

/-- A frame without operand bytes: byte1 = byte2 = 0 (formats F0 and FM of R61; for FM the spec's choice D2, log 12). -/
def decodeBare (p q : Nat) (i : Instr) : Except DecodeError Instr :=
  if p = 0 ∧ q = 0 then .ok i else .error .badOperandByte

/-- A frame whose byte1 and byte2 are operand fields of at most `pmax` and `qmax` (formats FC and FN of R61). -/
def decodeFields (p q pmax qmax : Nat) (i : Instr) : Except DecodeError Instr :=
  if p ≤ pmax ∧ q ≤ qmax then .ok i else .error .badOperandByte

/-- A channel frame: the low nibble of byte3 is the one-hot channel-bit (format FC of R61). -/
def decodeChannel (low p q pmax qmax : Nat) (mk : Int → Instr) : Except DecodeError Instr :=
  match channelOfBit low with
  | some ch => decodeFields p q pmax qmax (mk ch)
  | none => .error .badChannelBit

/-- The rows of the high nibble 0xF (R62). -/
def decodeFixed (p q low : Nat) : Except DecodeError Instr :=
  match low with
  | 0x0 => decodeBare p q .tmrrst
  | 0x1 => decodeBare p q .eerd
  | 0x2 => decodeFields p q 15 15 (.eeaddr ((p * 16 + q : Nat) : Int))
  | 0x3 => decodeFields p q 15 15 (.eewr ((p * 16 + q : Nat) : Int))
  | 0x5 => decodeBare p q .query
  | 0x6 => decodeBare p q .mode5
  | 0x7 => decodeBare p q .mode4
  | 0xF => decodeBare p q .stop
  | _ => .error .unassignedOpcode

/-- The speed instruction of an index (R69). -/
def speedOfIndex (k : Nat) : Option Instr :=
  match k with
  | 0 => some .speed0
  | 1 => some .speed1
  | 2 => some .speed2
  | 3 => some .speed3
  | 4 => some .speed4
  | 5 => some .speed5
  | _ => none

/-- The speed rows: both guard bytes, which no other row admits, and byte3 = `SPEED_BASE` + index (format FS of R61;
R62, R69). -/
def decodeSpeed (base : SpeedBase) (p q op : Nat) : Option Instr :=
  if p = Config.speedGuard.toNat ∧ q = Config.speedGuard.toNat ∧ base.val ≤ op then speedOfIndex (op - base.val)
  else none

/-- Why a frame that is no row by its high nibble is refused: an opcode of the speed rows without the guards, or an
unassigned opcode. -/
def speedError (base : SpeedBase) (op : Nat) : DecodeError :=
  if base.val ≤ op ∧ op ≤ base.val + 5 then .badOperandByte else .unassignedOpcode

/-- The rows of the opcode map but the speed rows, by byte3 (R62). FREQLO and FREQHI carry one byte of the divisor: the
other byte is read as 0 (R97 (c); DEDUCED, log 22). -/
def decodeRow (base : SpeedBase) (p q op : Nat) : Except DecodeError Instr :=
  let low := op % 16
  match op / 16 with
  | 0x8 => decodeBare p q (.act (low : Int))
  | 0x9 => decodeChannel low p q 0 3 (fun ch => .intype ch (q : Int))
  | 0xA => decodeChannel low p q 15 15 (fun ch => .freqhi ch ((p * 4096 + q * 256 : Nat) : Int))
  | 0xB => decodeChannel low p q 15 15 (fun ch => .freqlo ch ((p * 16 + q : Nat) : Int))
  | 0xC => decodeChannel low p q 7 7 (fun ch => .gaincal ch (p : Int) (q : Int))
  | 0xD => decodeBare p q (.reinit (low : Int))
  | 0xF => decodeFixed p q low
  | _ => .error (speedError base op)

/-- The opcode map under a value of `SPEED_BASE` (R62). -/
def decodeFrame (base : SpeedBase) (f : Frame) : Except DecodeError Instr :=
  match decodeSpeed base f.byte1.toNat f.byte2.toNat f.byte3.toNat with
  | some i => .ok i
  | none => decodeRow base f.byte1.toNat f.byte2.toNat f.byte3.toNat

/-- Decode a byte string (R60: a frame is exactly three bytes, byte1 first). -/
def decode (base : SpeedBase) : List Byte → Except DecodeError Instr
  | [b1, b2, b3] => decodeFrame base ⟨b1, b2, b3⟩
  | _ => .error .wrongLength

/-- The frame a 24-bit word of the table's notation stands for: byte1 in bits 23..16 (R7). -/
def frameOfWord (w : Nat) : Frame :=
  ⟨BitVec.ofNat 8 (w / 65536), BitVec.ofNat 8 (w / 256), BitVec.ofNat 8 w⟩

/-- What the decoder reads from an instruction of the opcode table whose bits are `w`, bit 0 the least significant
bit of byte3 as the table numbers them (R7), under the table's own `SPEED_BASE`. A word of more than 24 bits is no
frame. -/
def decodeTableWord (nbits w : Nat) : Option Instr :=
  if w % 2 ^ nbits < 2 ^ 24 then
    match decode Config.speedBaseDefault (frameOfWord (w % 2 ^ nbits)).bytes with
    | .ok i => some i
    | .error _ => none
  else none

/-! ### The encoder -/

/-- `v[hi:lo]` of R7, as `width` bits from bit `lo` of a non-negative integer. -/
def bitField (v : Int) (lo width : Nat) : Nat := v.toNat / 2 ^ lo % 2 ^ width

/-- `chbit(ch) = 1 << (ch - 1)` (R63). -/
def chbit (ch : Int) : Nat := 1 <<< (ch.toNat - 1)

/-- The byte of a number below 256. -/
def byteOf (n : Nat) : Byte := BitVec.ofNat 8 n

/-- A speed frame: `5A 5A (SPEED_BASE+i)` (R76). -/
def speedFrame (base : SpeedBase) (i : Nat) : Frame := ⟨0x5A, 0x5A, byteOf (base.val + i)⟩

/-- The frame of an instruction under a value of `SPEED_BASE`, from the syntax table R76. -/
def encode (base : SpeedBase) : Instr → Frame
  | .act m => ⟨0, 0, byteOf (0x80 + m.toNat)⟩
  | .intype ch t => ⟨0, byteOf t.toNat, byteOf (0x90 + chbit ch)⟩
  | .freqhi ch c => ⟨byteOf (bitField c 12 4), byteOf (bitField c 8 4), byteOf (0xA0 + chbit ch)⟩
  | .freqlo ch c => ⟨byteOf (bitField c 4 4), byteOf (bitField c 0 4), byteOf (0xB0 + chbit ch)⟩
  | .gaincal ch k g => ⟨byteOf k.toNat, byteOf g.toNat, byteOf (0xC0 + chbit ch)⟩
  | .reinit m => ⟨0, 0, byteOf (0xD0 + m.toNat)⟩
  | .speed0 => speedFrame base 0
  | .speed1 => speedFrame base 1
  | .speed2 => speedFrame base 2
  | .speed3 => speedFrame base 3
  | .speed4 => speedFrame base 4
  | .speed5 => speedFrame base 5
  | .tmrrst => ⟨0, 0, 0xF0⟩
  | .eerd => ⟨0, 0, 0xF1⟩
  | .eeaddr a => ⟨byteOf (bitField a 4 4), byteOf (bitField a 0 4), 0xF2⟩
  | .eewr v => ⟨byteOf (bitField v 4 4), byteOf (bitField v 0 4), 0xF3⟩
  | .query => ⟨0, 0, 0xF5⟩
  | .mode5 => ⟨0, 0, 0xF6⟩
  | .mode4 => ⟨0, 0, 0xF7⟩
  | .stop => ⟨0, 0, 0xFF⟩

/-- The instruction with the byte of the divisor its frame does not carry set to 0 (R97 (c): "FREQLO and FREQHI
each carry one byte of c"); every other instruction is its own canonical form. -/
def Instr.canonical : Instr → Instr
  | .freqhi ch c => .freqhi ch (c / 256 * 256)
  | .freqlo ch c => .freqlo ch (c % 256)
  | i => i

end Sys2Proof
end

