-- ==== Sys2Proof/Machine/State.lean ====
section
/-! DEFINITION. What the machine holds: the block's registers (10_state.md R20), the sequencer position (R26), the
Transport's input buffer (R30), the trace and the results a claim may speak of (00_scope.md R10, R11), the requests the
caller has still to issue, and the free answers of the Transport. -/

namespace Sys2Proof.Machine

/-- A channel, 1..4 (R6). -/
inductive Channel where
  | ch1 | ch2 | ch3 | ch4
  deriving DecidableEq, Repr

/-- `FW`, the frame width in bytes: 4 or 5 only (R22). -/
inductive FrameWidth where
  | four | five
  deriving DecidableEq, Repr

/-- `COEF`, the coefficient selector (R23). -/
inductive Coef where
  | raw | mv
  deriving DecidableEq, Repr

/-- `GAINC[1..4]`: a 3-bit gain code, or `none` for the spec's mark `unset` (R24). -/
structure GainTable where
  gain1 : Option (BitVec 3)
  gain2 : Option (BitVec 3)
  gain3 : Option (BitVec 3)
  gain4 : Option (BitVec 3)
  deriving DecidableEq, Repr

/-- An input source operand: one of the four names, the numeric code, or a name that is none of the four
(R68, R106, D9). -/
inductive InputSource where
  | lineA | lineB | selfVoltage | testMode
  | code (t : Int)
  | unknownName (name : String)
  deriving DecidableEq, Repr

/-- `ChannelConfig`, owned by the caller (R28, R78). Frequency and gain may be any number, so that the ones the block
refuses can be written (R104, R105; log 9). -/
structure ChannelConfig where
  ch : Int
  f : Rat
  gain : Rat
  cal : Int
  src : InputSource
  deriving DecidableEq, Repr

/-- The field an `InvalidParameter` names (R171). -/
inductive Field where
  | channel | gain | calibration | frequency | inputType | duplicateChannel | frameWidth | speed | eeByte | mask
  | divisor
  deriving DecidableEq, Repr

/-- The kinds of `TransportError` (R173). -/
inductive TransportKind where
  | write | read | shortWrite | flush | close | noAck
  deriving DecidableEq, Repr

/-- The kinds of `MalformedReadback` (R175). -/
inductive ReadbackKind where
  | length | marker
  deriving DecidableEq, Repr

/-- The exceptions an operation can end with (R170). -/
inductive Exc where
  | invalidParameter (field : Field)
  | connectionError
  | transportError (kind : TransportKind)
  | malformedReadback (kind : ReadbackKind)
  | gainUnset (ch : Channel)
  | notOpen
  | alreadyOpen
  deriving DecidableEq, Repr

/-- A decoded sample without its timestamp (R131); its value is the exact rational `num / 2 ^ exp` (R140). -/
structure Decoded where
  ch : Channel
  num : Int
  exp : Nat
  timer : Option Byte
  deriving DecidableEq, Repr

/-- A sample (R138); its value is the exact rational `num / 2 ^ exp` (R140). -/
structure Sample where
  time : Time
  ch : Channel
  num : Int
  exp : Nat
  timer : Option Byte
  deriving DecidableEq, Repr

/-- The entry of one slot in the result of READPARAMS (R152, R154): a report, whose frequency is the exact fraction
`freqNum / freqDen` (R153), or `PerChannelDecodeError(ZeroDivisor)` (R176). -/
inductive SlotEntry where
  | report (slot c freqNum freqDen devch cal gcode gain : Nat)
  | zeroDivisor (slot : Nat)
  deriving DecidableEq, Repr

/-- The result of a `Done` (R11). -/
inductive Value where
  /-- No result. -/
  | empty
  /-- `None`: no sample, or no byte pair (R174). -/
  | nothing
  /-- A decoded sample (R130). -/
  | sample (s : Sample)
  /-- The byte pair of EEREAD (R114). -/
  | pair (b0 b1 : Byte)
  /-- The four entries of READPARAMS (R155). -/
  | report (slots : List SlotEntry)
  /-- The text of FORMATSAMPLE (R142). -/
  | text (line : String)
  /-- `Pass` of SELFTEST (R157). -/
  | pass
  /-- `Fail(expected, actual)` of SELFTEST (R157). -/
  | fail (expected actual : List String)
  deriving DecidableEq, Repr

/-- How an operation ended (R11): `Done(result)` or `Raised(E, info)`. -/
inductive Completion where
  | done (v : Value)
  | raised (e : Exc)
  deriving DecidableEq, Repr

/-- The events of a trace (R10). A failed event carries its failure: no count, no bytes, or false. -/
inductive Event where
  | opened (port : String) (baud : Int) (timeout : Rat) (ok : Bool)
  | tx (f : Frame) (count : Option Nat)
  | rx (n : Nat) (bytes : Option (List Byte))
  | flushIn (ok : Bool)
  | flushOut (ok : Bool)
  | settle
  | closed (ok : Bool)
  | now (t : Time)
  deriving DecidableEq, Repr

/-- What the caller can issue, with its operands: the sequenced operations (R77), whose optional operands are `Option`s
(R78); a frame-level instruction (R76); and the frame-level `SPEED i` for an index that may lie outside the six rows of
the opcode table (R96, log 9). -/
inductive Op where
  | frame (i : Instr)
  | openBlock (port : String) (baud : Option Int) (timeout : Option Rat) (mv : Option Bool)
  | stopop
  | setactive (f1 f2 f3 f4 : Option Bool)
  | setfreq (ch : Int) (f : Rat)
  | setgaincal (ch k : Int) (gain : Rat)
  | setinput (ch : Int) (src : InputSource)
  | applych (cfg : ChannelConfig)
  | setbytemode (w : Int)
  | reinitialize
  | bringUp (cfgs : List ChannelConfig) (five : Option Bool)
  | resettimer
  | setspeed (baud : Int)
  | speed (i : Int)
  | eeselect (a : Int)
  | eeread
  | eewrite (v : Int)
  | close
  | readsample
  | readparams
  | selftest (expected : List String)
  | formatsample (s : Sample)
  deriving DecidableEq, Repr

/-- A request of the caller (R5 (3); DESIGN CHOICE, log 1): a frame-level instruction written as the 24-bit word of
R7, a frame-level instruction with its operands, or any other operation. -/
inductive Request where
  | word (w : BitVec 24)
  | instr (i : Instr)
  | op (o : Op)
  deriving DecidableEq, Repr

/-- The index of a step (R26): the numbered pseudocode line of the operation's rule, the index (from 1) of the channel
configuration INITIALIZE is applying, 0 elsewhere, and the primitive inside that line, from 0, with called operations
run in place (R100; log 7). -/
structure Place where
  line : Nat
  cfg : Nat
  sub : Nat
  deriving DecidableEq, Repr

/-- A position inside an operation (R26): the operation, the next step, and the locals of the pseudocode: `bs`, the
bytes last read; `n`, the count of the last write (R80); `polls`, the `n` of EEWRITE (R115); `e`, the exception CLOSE
has caught (R116); the decoded sample and its timestamp (R130); and the slots decoded so far (R150). -/
structure Position where
  op : Op
  place : Place
  bs : List Byte
  count : Nat
  polls : Nat
  err : Option Exc
  decoded : Decoded
  time : Time
  slots : List SlotEntry
  deriving DecidableEq, Repr

/-- `SEQ`, the block's program counter (R26). -/
inductive Seq where
  | idle
  | running (p : Position)
  deriving DecidableEq, Repr

/-- Why the machine stops with a fault. -/
inductive Fault where
  /-- Raised by `step` only: `SEQ` holds a place that is no step of its operation. No run from reset reaches such
  a state. Safe (log 19). -/
  | seqOutOfList
  deriving DecidableEq, Repr

/-- Why the machine refuses. -/
inductive Refusal where
  /-- Raised by an arm of `exec` for an instruction without a meaning; no arm is left that raises it. Safe. -/
  | notModelled (mnemonic : String)
  /-- Raised by `step` only: the caller issued a 24-bit word that is no row of the opcode map (R74; U6: refuse).
  Safe (log 20). -/
  | noInstruction (w : BitVec 24)
  deriving DecidableEq, Repr

/-- The machine. -/
structure State where
  /-- `ACTIVE` (R21). -/
  active : BitVec 4
  /-- `FW` (R22). -/
  fw : FrameWidth
  /-- `COEF` (R23). -/
  coef : Coef
  /-- `GAINC[1..4]` (R24). -/
  gainc : GainTable
  /-- `OPEN` (R25). -/
  isOpen : Bool
  /-- `SEQ` (R26). -/
  seq : Seq
  /-- The Transport's input buffer: received bytes not yet read, oldest first (R30, log 5). -/
  rx : List Byte
  /-- The events so far, oldest first (R10). -/
  trace : List Event
  /-- The outcomes delivered to the caller, oldest first (R11). -/
  results : List Completion
  /-- The requests the caller has still to issue, in order (R50, log 1). -/
  requests : List Request
  /-- The answers of the Transport and the clock still to be drawn (R5, log 4): a free value. -/
  answers : List Answer
  /-- How many answers have been drawn (log 4). -/
  draws : Nat
  /-- The parameters of the run (R6, log 11). -/
  params : Params
  deriving DecidableEq, Repr

/-- The gain table with every cell `unset` (R24). -/
def GainTable.unset : GainTable := ⟨none, none, none, none⟩

/-- Before construction: `OPEN = 0`, `SEQ = IDLE` (R20, R32), the other registers at the reset values of R20. COEF has
no reset value (R23): RAW, and the registers before OPEN, are DESIGN CHOICE (log 3). Reset itself is the operation
OPEN (R200, log 2). -/
def State.reset : State where
  active := 0
  fw := .four
  coef := .raw
  gainc := GainTable.unset
  isOpen := false
  seq := .idle
  rx := []
  trace := []
  results := []
  requests := []
  answers := []
  draws := 0
  params := Params.default

end Sys2Proof.Machine
end

