-- ==== Sys2Proof/Machine/Operands.lean ====
section
/-! DEFINITION. Operands: the closed-set checks of 40_command_frames.md R81 and R171 in their order (R181), the tables
and formulas that assemble an operand (30_encoding.md R65 to R69), and the cells a channel selects. -/

namespace Sys2Proof.Machine

/-- One check: `none` where the operand is legal, else `InvalidParameter(field)` (R81). -/
def chk (field : Field) (legal : Bool) : Option Exc :=
  if legal then none else some (.invalidParameter field)

/-- `chk_open` (R81, R178). -/
def chkOpen (s : State) : Option Exc := if s.isOpen then none else some .notOpen

/-- `chk_ch` (R81). -/
def chkCh (ch : Int) : Option Exc := chk .channel (within 1 4 ch)

/-- `chk_cal` (R81). -/
def chkCal (k : Int) : Option Exc := chk .calibration (within 0 7 k)

/-- `chk_gcode` (R81). -/
def chkGcode (g : Int) : Option Exc := chk .gain (within 0 7 g)

/-- `chk_itype` (R81). -/
def chkItype (t : Int) : Option Exc := chk .inputType (within 0 3 t)

/-- `chk_mask` (R81). -/
def chkMask (m : Int) : Option Exc := chk .mask (within 0 15 m)

/-- `chk_div` (R81). -/
def chkDiv (c : Int) : Option Exc := chk .divisor (within 0 65535 c)

/-- `chk_byte` (R81). -/
def chkByte (v : Int) : Option Exc := chk .eeByte (within 0 255 v)

/-- `chk_sidx` (R81). -/
def chkSidx (i : Int) : Option Exc := chk .speed (within 0 5 i)

/-- SETFREQ step 2: an integer number of Hz in 5..1000 (R104). -/
def chkFreq (f : Rat) : Option Exc :=
  chk .frequency (decide (f.den = 1) && within Config.freqMin Config.freqMax f.num)

/-- The gain table: `gaincode(gain) = log2(gain)`, no code outside the set (R66). -/
def gaincode (gain : Rat) : Option (BitVec 3) :=
  if gain = 1 then some 0
  else if gain = 2 then some 1
  else if gain = 4 then some 2
  else if gain = 8 then some 3
  else if gain = 16 then some 4
  else if gain = 32 then some 5
  else if gain = 64 then some 6
  else if gain = 128 then some 7
  else none

/-- `gain_from_code(g) = 1 << g` (R66). -/
def gainFromCode (g : Nat) : Nat := 1 <<< g

/-- `chk_gain` (R81). -/
def chkGain (gain : Rat) : Option Exc := chk .gain (gaincode gain).isSome

/-- `INPUT_CODE` (R68, R106): the code of a name, a numeric code unchanged, none for an unknown name. -/
def inputCode (p : Params) : InputSource → Option Int
  | .lineA => some p.lineACode
  | .lineB => some p.lineBCode
  | .selfVoltage => some p.selfVoltageCode
  | .testMode => some p.testModeCode
  | .code t => some t
  | .unknownName _ => none

/-- SETINPUT step 2 (R106). -/
def chkSrc (p : Params) (src : InputSource) : Option Exc :=
  match inputCode p src with
  | some t => chkItype t
  | none => some (.invalidParameter .inputType)

/-- SETBYTEMODE step 2 (R108). -/
def chkWidth (w : Int) : Option Exc := chk .frameWidth (decide (w = 4 ∨ w = 5))

/-- `SPEED_TABLE` (R6, R69). -/
def speedIndex (baud : Int) : Option Int :=
  if baud = 2400 then some 0
  else if baud = 4800 then some 1
  else if baud = 9600 then some 2
  else if baud = 19200 then some 3
  else if baud = 38400 then some 4
  else if baud = 57600 then some 5
  else none

/-- SETSPEED step 2 (R112). -/
def chkBaud (baud : Int) : Option Exc := chk .speed (speedIndex baud).isSome

/-- The checks of APPLYCH step 1 in the order of R181: ch, f, cal, gain, src. -/
def chkConfig (p : Params) (cfg : ChannelConfig) : List (Option Exc) :=
  [chkCh cfg.ch, chkFreq cfg.f, chkCal cfg.cal, chkGain cfg.gain, chkSrc p cfg.src]

/-- The distinctness check of INITIALIZE step 1 (R110, R171). -/
def chkDistinct (cfgs : List ChannelConfig) : Option Exc :=
  chk .duplicateChannel (decide (cfgs.map (·.ch)).Nodup)

/-- The first failing check (R181: left to right). -/
def firstFailing : List (Option Exc) → Option Exc
  | [] => none
  | none :: cs => firstFailing cs
  | some e :: _ => some e

/-- What the rule of a frame-level instruction gives: its operand checks in order, and the frame it sends (R80, R81). -/
structure FrameParts where
  checks : List (Option Exc)
  frame : Frame
  deriving DecidableEq, Repr

/-- The divisor `c = 2457600 div (128 * f)` (R65, R104). -/
def divisor (f : Rat) : Int := Config.fMclk / (Config.divK * f.num)

/-- The number of a channel, 1..4. -/
def Channel.number : Channel → Nat
  | .ch1 => 1
  | .ch2 => 2
  | .ch3 => 3
  | .ch4 => 4

/-- The channel of a number in 1..4. -/
def channelOf (ch : Int) : Option Channel :=
  if ch = 1 then some .ch1
  else if ch = 2 then some .ch2
  else if ch = 3 then some .ch3
  else if ch = 4 then some .ch4
  else none

/-- The bit of `ACTIVE` of a channel: `chbit(i)` (R21, R63). -/
def Channel.bit (c : Channel) : BitVec 4 := BitVec.ofNat 4 (1 <<< (c.number - 1))

/-- Whether bit i-1 of a mask is set: `(ACTIVE >> (i-1)) & 1` (R103). -/
def maskBit (m : BitVec 4) (c : Channel) : Bool := m.getLsbD (c.number - 1)

/-- Read of `GAINC[ch]` (R24). -/
def GainTable.get (t : GainTable) : Channel → Option (BitVec 3)
  | .ch1 => t.gain1
  | .ch2 => t.gain2
  | .ch3 => t.gain3
  | .ch4 => t.gain4

/-- Write of `GAINC[ch]` (R24). -/
def GainTable.set (t : GainTable) (c : Channel) (g : BitVec 3) : GainTable :=
  match c with
  | .ch1 => { t with gain1 := some g }
  | .ch2 => { t with gain2 := some g }
  | .ch3 => { t with gain3 := some g }
  | .ch4 => { t with gain4 := some g }

/-- The number of bytes of a sample frame (R22). -/
def FrameWidth.bytes : FrameWidth → Nat
  | .four => 4
  | .five => 5

/-- The frame width a checked operand names (R108). -/
def widthOf (w : Int) : FrameWidth := if w = 5 then .five else .four

/-- The numeric code of an exception (R170, D25). -/
def Exc.code : Exc → Nat
  | .invalidParameter _ => 1
  | .connectionError => 2
  | .transportError _ => 3
  | .malformedReadback _ => 4
  | .gainUnset _ => 6
  | .notOpen => 7
  | .alreadyOpen => 8

/-- The code of the condition ShortRead, whose end is `Done(None)` (R170, R174). -/
def shortReadCode : Nat := 0

/-- The code of PerChannelDecodeError, the entry `zeroDivisor` of a slot (R170, R176). -/
def perChannelDecodeErrorCode : Nat := 5

/-- Whether an exception is a `TransportError`, the only class CLOSE catches (R116 step 3). -/
def Exc.isTransportError : Exc → Bool
  | .transportError _ => true
  | _ => false

end Sys2Proof.Machine
end

