-- ==== Sys2Proof/Machine/Ops.lean ====
section
/-! DEFINITION. The named operations: the free answers, the primitives over the Transport (20_memory.md R41 to R43,
R51), `SEND` (40_command_frames.md R80), the end of an operation (R11), and how an exception is taken
(60_exceptions.md R182) in one shared operation. There is no return from an exception (R183). -/

namespace Sys2Proof.Machine

/-- How a primitive ends: with a result, or by raising (R9). -/
inductive Ends (α : Type) where
  | ok (a : α) (s : State)
  | raised (e : Exc) (s : State)
  deriving DecidableEq, Repr

/-- Go on after a primitive that did not raise; nothing after a raise runs (R182 (b)). -/
def Ends.andThen {α β : Type} (r : Ends α) (k : α → State → Ends β) : Ends β :=
  match r with
  | .ok a s => k a s
  | .raised e s => .raised e s

/-- The answer the next call of the Transport or the clock gets: the free value (R5, log 4). -/
def State.answer (s : State) : Answer :=
  match s.answers with
  | a :: _ => a
  | [] => Config.transportAnswer s.draws

/-- Draw one answer: it is used up, and the input buffer has lost and received bytes in the meantime
(R30, R42; log 5). -/
def State.draw (s : State) : State :=
  { s with
    answers := s.answers.tail
    draws := s.draws + 1
    rx := s.rx.drop s.answer.lost ++ s.answer.arrived }

/-- Record an event (R10). -/
def State.log (s : State) (e : Event) : State := { s with trace := s.trace ++ [e] }

/-- `MemWrite(TX, 3, frame)`: the count the Transport reports (R41, R80 step 1). -/
def memWrite (f : Frame) (s : State) : Ends Nat :=
  if s.answer.ok then .ok s.answer.count (s.draw.log (.tx f (some s.answer.count)))
  else .raised (.transportError .write) (s.draw.log (.tx f none))

/-- SEND step 2: the count of a whole frame, else `TransportError(ShortWrite)` (R41, R80). -/
def chkCount (n : Nat) : Option Exc := if n = 3 then none else some (.transportError .shortWrite)

/-- A test as a primitive: it raises what a failing check names, and changes nothing. -/
def testing (c : Option Exc) (s : State) : Ends Unit :=
  match c with
  | none => .ok () s
  | some e => .raised e s

/-- `FlushIn()`: every byte received and not yet read is discarded (R43, R51). -/
def flushIn (s : State) : Ends Unit :=
  if s.answer.ok then .ok () { s.draw.log (.flushIn true) with rx := [] }
  else .raised (.transportError .flush) (s.draw.log (.flushIn false))

/-- `FlushOut()` (R43), with no modelled effect on the TX stream (U12, log 26). -/
def flushOut (s : State) : Ends Unit :=
  if s.answer.ok then .ok () (s.draw.log (.flushOut true))
  else .raised (.transportError .flush) (s.draw.log (.flushOut false))

/-- `Settle()`: an event with no effect on state (R9, R51; log 25). -/
def settle (s : State) : Ends Unit := .ok () (s.log .settle)

/-- `SEND(b1, b2, b3)`, its four primitives in order (R80). -/
def sendFrame (f : Frame) (s : State) : Ends Unit :=
  (memWrite f s).andThen fun n s1 => (testing (chkCount n) s1).andThen fun _ s2 =>
    (flushIn s2).andThen fun _ s3 => settle s3

/-- The bytes a `read(n)` answered with count `count` returns from a buffer: at most n (R42). -/
def readBytes (n count : Nat) (rx : List Byte) : List Byte := rx.take (min n count)

/-- `MemRead(RX, n)`: the bytes returned leave the head of the input buffer (R42, R49). -/
def memRead (n : Nat) (s : State) : Ends (List Byte) :=
  if s.answer.ok then
    .ok (readBytes n s.answer.count s.draw.rx)
      { s.draw.log (.rx n (some (readBytes n s.answer.count s.draw.rx))) with
        rx := s.draw.rx.drop (min n s.answer.count) }
  else .raised (.transportError .read) (s.draw.log (.rx n none))

/-- The Transport's `open` (R101 step 2): on success the input buffer holds any bytes (R201, U11). -/
def transportOpen (port : String) (baud : Int) (timeout : Rat) (s : State) : Ends Unit :=
  if s.answer.ok then .ok () { s.draw.log (.opened port baud timeout true) with rx := s.answer.arrived }
  else .raised .connectionError (s.draw.log (.opened port baud timeout false))

/-- The Transport's `close` (R116 step 4). -/
def transportClose (s : State) : Ends Unit :=
  if s.answer.ok then .ok () (s.draw.log (.closed true))
  else .raised (.transportError .close) (s.draw.log (.closed false))

/-- `Now()`: a draw of the current time (R137, log 15). -/
def drawTime (s : State) : Ends Time := .ok s.answer.time (s.draw.log (.now s.answer.time))

/-- The end of an operation: the outcome goes to the caller and SEQ is IDLE (R11, R26). -/
def State.deliver (c : Completion) (s : State) : State :=
  { s with seq := .idle, results := s.results ++ [c] }

/-- TAKING AN EXCEPTION (R182): no further step runs, SEQ <- IDLE, no register is restored, the caller receives
`Raised`. -/
def State.abort (e : Exc) (s : State) : State := s.deliver (.raised e)

/-- Whether the position lies in the `try` of CLOSE and the exception is one it catches (R116 step 3). -/
def Position.catches (p : Position) (e : Exc) : Bool :=
  decide (p.op = .close) && decide (p.place.line = 3) && e.isTransportError

/-- A step at position `p` raises (R182): inside the `try` of CLOSE the exception is kept in `e` and SEQ goes on at
step 4 (R116); anywhere else it is taken. -/
def State.raiseExc (p : Position) (e : Exc) (s : State) : State :=
  if p.catches e then { s with seq := .running { p with err := some e, place := ⟨4, 0, 0⟩ } } else s.abort e

/-- A frame-level instruction whole: `chk_open`, its operand checks left to right, then SEND of its frame
(R80, R81, R181). -/
def issueFrame (parts : FrameParts) (s : State) : Host.Outcome State Fault Refusal :=
  match firstFailing (chkOpen s :: parts.checks) with
  | some e => .next (s.abort e)
  | none =>
    match sendFrame parts.frame s with
    | .ok _ s1 => .next (s1.deliver (.done .empty))
    | .raised e s1 => .next (s1.abort e)

end Sys2Proof.Machine
end

