-- ==== Sys2Proof/Machine/Activation.lean ====
section
/-! DEFINITION. Channel activation and commit (40_command_frames.md section 2). -/

namespace Sys2Proof.Machine

/-- The checks and the frame of `ACT m` (R82). -/
def partsAct (m : Int) : FrameParts := ⟨[chkMask m], ⟨0x00, 0x00, byteOf (0x80 + m.toNat)⟩⟩

/-- `ACT m` (R82). -/
def execAct (m : Int) (s : State) : Host.Outcome State Fault Refusal := issueFrame (partsAct m) s

/-- The checks and the frame of `REINIT m` (R83). -/
def partsReinit (m : Int) : FrameParts := ⟨[chkMask m], ⟨0x00, 0x00, byteOf (0xD0 + m.toNat)⟩⟩

/-- `REINIT m` (R83). -/
def execReinit (m : Int) (s : State) : Host.Outcome State Fault Refusal := issueFrame (partsReinit m) s

end Sys2Proof.Machine
end

