-- ==== Sys2Proof/Machine/ChannelFrames.lean ====
section
/-! DEFINITION. Per-channel parameter frames (40_command_frames.md section 3). -/

namespace Sys2Proof.Machine

/-- The checks and the frame of `INTYPE ch, t` (R84). -/
def partsIntype (ch t : Int) : FrameParts :=
  ⟨[chkCh ch, chkItype t], ⟨0x00, byteOf t.toNat, byteOf (0x90 + chbit ch)⟩⟩

/-- `INTYPE ch, t` (R84). -/
def execIntype (ch t : Int) (s : State) : Host.Outcome State Fault Refusal := issueFrame (partsIntype ch t) s

/-- The frame byte pair `(v >> 4, v & 0x0F)` of a byte value (R46), with the opcode byte. -/
def nibbleFrame (v : Nat) (byte3 : Byte) : Frame := ⟨byteOf (v >>> 4), byteOf (v &&& 0x0F), byte3⟩

/-- The checks and the frame of `FREQLO ch, c` (R85). -/
def partsFreqlo (ch c : Int) : FrameParts :=
  ⟨[chkCh ch, chkDiv c], nibbleFrame (c.toNat &&& 0xFF) (byteOf (0xB0 + chbit ch))⟩

/-- `FREQLO ch, c` (R85). -/
def execFreqlo (ch c : Int) (s : State) : Host.Outcome State Fault Refusal := issueFrame (partsFreqlo ch c) s

/-- The checks and the frame of `FREQHI ch, c` (R86). -/
def partsFreqhi (ch c : Int) : FrameParts :=
  ⟨[chkCh ch, chkDiv c], nibbleFrame ((c.toNat >>> 8) &&& 0xFF) (byteOf (0xA0 + chbit ch))⟩

/-- `FREQHI ch, c` (R86). -/
def execFreqhi (ch c : Int) (s : State) : Host.Outcome State Fault Refusal := issueFrame (partsFreqhi ch c) s

/-- The checks and the frame of `GAINCAL ch, k, g` (R87). -/
def partsGaincal (ch k g : Int) : FrameParts :=
  ⟨[chkCh ch, chkCal k, chkGcode g], ⟨byteOf k.toNat, byteOf g.toNat, byteOf (0xC0 + chbit ch)⟩⟩

/-- `GAINCAL ch, k, g` (R87). -/
def execGaincal (ch k g : Int) (s : State) : Host.Outcome State Fault Refusal := issueFrame (partsGaincal ch k g) s

end Sys2Proof.Machine
end

