-- ==== Sys2Proof/Machine/EepromFrames.lean ====
section
/-! DEFINITION. The EEPROM frames (40_command_frames.md section 5). -/

namespace Sys2Proof.Machine

/-- The checks and the frame of `EEADDR a` (R93). -/
def partsEeaddr (a : Int) : FrameParts := ⟨[chkByte a], nibbleFrame a.toNat 0xF2⟩

/-- `EEADDR a` (R93). -/
def execEeaddr (a : Int) (s : State) : Host.Outcome State Fault Refusal := issueFrame (partsEeaddr a) s

/-- The checks and the frame of `EERD` (R94). -/
def partsEerd : FrameParts := ⟨[], ⟨0x00, 0x00, 0xF1⟩⟩

/-- `EERD` (R94). -/
def execEerd (s : State) : Host.Outcome State Fault Refusal := issueFrame partsEerd s

/-- The checks and the frame of `EEWR v` (R95). -/
def partsEewr (v : Int) : FrameParts := ⟨[chkByte v], nibbleFrame v.toNat 0xF3⟩

/-- `EEWR v` (R95). -/
def execEewr (v : Int) (s : State) : Host.Outcome State Fault Refusal := issueFrame (partsEewr v) s

end Sys2Proof.Machine
end

