-- ==== Sys2Proof/Machine/FixedFrames.lean ====
section
/-! DEFINITION. The fixed frames (40_command_frames.md section 4). -/

namespace Sys2Proof.Machine

/-- The checks and the frame of `TMRRST` (R88). -/
def partsTmrrst : FrameParts := ⟨[], ⟨0x00, 0x00, 0xF0⟩⟩

/-- `TMRRST` (R88). -/
def execTmrrst (s : State) : Host.Outcome State Fault Refusal := issueFrame partsTmrrst s

/-- The checks and the frame of `STOP` (R89). -/
def partsStop : FrameParts := ⟨[], ⟨0x00, 0x00, 0xFF⟩⟩

/-- `STOP` (R89). -/
def execStop (s : State) : Host.Outcome State Fault Refusal := issueFrame partsStop s

/-- The checks and the frame of `QUERY` (R90). -/
def partsQuery : FrameParts := ⟨[], ⟨0x00, 0x00, 0xF5⟩⟩

/-- `QUERY` (R90). -/
def execQuery (s : State) : Host.Outcome State Fault Refusal := issueFrame partsQuery s

/-- The checks and the frame of `MODE5` (R91). -/
def partsMode5 : FrameParts := ⟨[], ⟨0x00, 0x00, 0xF6⟩⟩

/-- `MODE5` (R91). -/
def execMode5 (s : State) : Host.Outcome State Fault Refusal := issueFrame partsMode5 s

/-- The checks and the frame of `MODE4` (R92). -/
def partsMode4 : FrameParts := ⟨[], ⟨0x00, 0x00, 0xF7⟩⟩

/-- `MODE4` (R92). -/
def execMode4 (s : State) : Host.Outcome State Fault Refusal := issueFrame partsMode4 s

end Sys2Proof.Machine
end

