-- ==== Sys2Proof/Machine/SpeedFrames.lean ====
section
/-! DEFINITION. The transport speed frames, one per index of the table, under the run's `SPEED_BASE`
(40_command_frames.md section 6). -/

namespace Sys2Proof.Machine

/-- The checks and the frame of `SPEED 0` (R96, 2400 baud). -/
def partsSpeed0 (base : SpeedBase) : FrameParts := ⟨[chkSidx 0], speedFrame base 0⟩

/-- `SPEED 0` (R96, 2400 baud). -/
def execSpeed0 (s : State) : Host.Outcome State Fault Refusal := issueFrame (partsSpeed0 s.params.speedBase) s

/-- The checks and the frame of `SPEED 1` (R96, 4800 baud). -/
def partsSpeed1 (base : SpeedBase) : FrameParts := ⟨[chkSidx 1], speedFrame base 1⟩

/-- `SPEED 1` (R96, 4800 baud). -/
def execSpeed1 (s : State) : Host.Outcome State Fault Refusal := issueFrame (partsSpeed1 s.params.speedBase) s

/-- The checks and the frame of `SPEED 2` (R96, 9600 baud). -/
def partsSpeed2 (base : SpeedBase) : FrameParts := ⟨[chkSidx 2], speedFrame base 2⟩

/-- `SPEED 2` (R96, 9600 baud). -/
def execSpeed2 (s : State) : Host.Outcome State Fault Refusal := issueFrame (partsSpeed2 s.params.speedBase) s

/-- The checks and the frame of `SPEED 3` (R96, 19200 baud). -/
def partsSpeed3 (base : SpeedBase) : FrameParts := ⟨[chkSidx 3], speedFrame base 3⟩

/-- `SPEED 3` (R96, 19200 baud). -/
def execSpeed3 (s : State) : Host.Outcome State Fault Refusal := issueFrame (partsSpeed3 s.params.speedBase) s

/-- The checks and the frame of `SPEED 4` (R96, 38400 baud). -/
def partsSpeed4 (base : SpeedBase) : FrameParts := ⟨[chkSidx 4], speedFrame base 4⟩

/-- `SPEED 4` (R96, 38400 baud). -/
def execSpeed4 (s : State) : Host.Outcome State Fault Refusal := issueFrame (partsSpeed4 s.params.speedBase) s

/-- The checks and the frame of `SPEED 5` (R96, 57600 baud). -/
def partsSpeed5 (base : SpeedBase) : FrameParts := ⟨[chkSidx 5], speedFrame base 5⟩

/-- `SPEED 5` (R96, 57600 baud). -/
def execSpeed5 (s : State) : Host.Outcome State Fault Refusal := issueFrame (partsSpeed5 s.params.speedBase) s

end Sys2Proof.Machine
end

