-- ==== Sys2Proof/Machine/Dispatch.lean ====
section
/-! DEFINITION. The dispatch of a frame-level instruction to its meaning, one arm per constructor. -/

namespace Sys2Proof.Machine

def exec (i : Instr) (s : State) : Host.Outcome State Fault Refusal :=
  match i with
  | .act m => Sys2Proof.Machine.execAct m s
  | .intype ch t => Sys2Proof.Machine.execIntype ch t s
  | .freqhi ch c => Sys2Proof.Machine.execFreqhi ch c s
  | .freqlo ch c => Sys2Proof.Machine.execFreqlo ch c s
  | .gaincal ch k g => Sys2Proof.Machine.execGaincal ch k g s
  | .reinit m => Sys2Proof.Machine.execReinit m s
  | .speed0 => Sys2Proof.Machine.execSpeed0 s
  | .speed1 => Sys2Proof.Machine.execSpeed1 s
  | .speed2 => Sys2Proof.Machine.execSpeed2 s
  | .speed3 => Sys2Proof.Machine.execSpeed3 s
  | .speed4 => Sys2Proof.Machine.execSpeed4 s
  | .speed5 => Sys2Proof.Machine.execSpeed5 s
  | .tmrrst => Sys2Proof.Machine.execTmrrst s
  | .eerd => Sys2Proof.Machine.execEerd s
  | .eeaddr a => Sys2Proof.Machine.execEeaddr a s
  | .eewr v => Sys2Proof.Machine.execEewr v s
  | .query => Sys2Proof.Machine.execQuery s
  | .mode5 => Sys2Proof.Machine.execMode5 s
  | .mode4 => Sys2Proof.Machine.execMode4 s
  | .stop => Sys2Proof.Machine.execStop s

end Sys2Proof.Machine
end

