-- ==== Sys2Proof/Machine/Readback.lean ====
section
/-! DEFINITION. Parameter read-back and self-test: CHECKRECORD (43_readback.md R151), DECODEGROUP (R152, R153), the four
slots (R154, R155), the read-back line (R156) and the comparison (R157). -/

namespace Sys2Proof.Machine

/-- CHECKRECORD step 1 (R151). -/
def chkLength (bs : List Byte) : Option Exc :=
  if bs.length = Config.rbLen then none else some (.malformedReadback .length)

/-- CHECKRECORD step 2 (R151). -/
def chkMarker (bs : List Byte) : Option Exc :=
  if bs.getD 0 0 = Config.rbMarker0 ∧ bs.getD 1 0 = Config.rbMarker1 then none else some (.malformedReadback .marker)

/-- CHECKRECORD: length first, then marker (R151). -/
def checkRecord (bs : List Byte) : Option Exc := firstFailing [chkLength bs, chkMarker bs]

/-- `(hi << 8) | lo` (R152). -/
def groupDivisor (hi lo : Byte) : Nat := (hi.toNat <<< 8) ||| lo.toNat

/-- DECODEGROUP (R152): the frequency is the exact fraction 19200 / c (R153). -/
def decodeGroup (slot : Nat) (hi lo third : Byte) : SlotEntry :=
  if groupDivisor hi lo = 0 then .zeroDivisor slot
  else .report slot (groupDivisor hi lo) 19200 (groupDivisor hi lo)
    (third.toNat >>> 6) ((third.toNat >>> 3) &&& 7) (third.toNat &&& 7) (gainFromCode (third.toNat &&& 7))

/-- Slot k + 1 of a record: bytes 2+3k, 3+3k, 4+3k (R72, R150 step 6). -/
def recordSlot (bs : List Byte) (k : Nat) : SlotEntry :=
  decodeGroup (k + 1) (bs.getD (2 + 3 * k) 0) (bs.getD (3 + 3 * k) 0) (bs.getD (4 + 3 * k) 0)

/-- The text of a frequency: the source's one instance prints 5 for the divisor 3840; every other text is Config's
(R156, N8; log 17). -/
def freqText (c : Nat) : String := if c = 3840 then "5" else Config.freqText c

/-- The read-back line of a slot (R156); the wording of an error entry is Config's (log 17). -/
def slotLine : SlotEntry → String
  | .report slot c _ _ devch cal _ gain =>
    "ADC_Channel #" ++ toString slot ++ "\tfrequency " ++ freqText c ++ "\tad7714_channel " ++ toString devch ++
    "\tcalibration " ++ toString cal ++ "\tgain " ++ toString gain
  | .zeroDivisor slot => Config.slotErrorText slot

/-- Whether an entry is a `SlotError` (R155). -/
def SlotEntry.isError : SlotEntry → Bool
  | .report .. => false
  | .zeroDivisor _ => true

/-- The four entries of a record in slot order. -/
def recordSlots (bs : List Byte) : List SlotEntry :=
  [recordSlot bs 0, recordSlot bs 1, recordSlot bs 2, recordSlot bs 3]

/-- SELFTEST step 3 (R157): whole-text comparison, and a slot error is never a pass (R155; log 18). -/
def slotsPass (expected : List String) (slots : List SlotEntry) : Bool :=
  decide (slots.map slotLine = expected) && !slots.any SlotEntry.isError

/-- SELFTEST steps 2 to 4 (R157). -/
def compareSlots (expected : List String) (slots : List SlotEntry) : Value :=
  if slotsPass expected slots then .pass else .fail expected (slots.map slotLine)

end Sys2Proof.Machine
end

