-- ==== Sys2Proof/Machine/SampleDecoder.lean ====
section
/-! DEFINITION. The Sample Decoder: the pure DECODE piece by piece (42_sample_decoder.md R131 to R136, R140) and the
host-layer text line (R142). -/

namespace Sys2Proof.Machine

/-- `(bs[0] & 0x30) >> 4`, the device's 0-based channel number (R132). -/
def channelField (b0 : Byte) : Nat := (b0.toNat &&& 0x30) >>> 4

/-- The delivered channel: the field plus 1, always in 1..4 (R132). -/
def sampleChannel (b0 : Byte) : Channel :=
  match channelField b0 with
  | 0 => .ch1
  | 1 => .ch2
  | 2 => .ch3
  | _ => .ch4

/-- The 24-bit offset-binary code: the four terms are ORed, not added (R133). -/
def sampleCode (b0 b1 b2 b3 : Byte) : Nat :=
  ((b0.toNat &&& 0x0F) <<< 20) ||| (b1.toNat <<< 13) ||| (b2.toNat <<< 6) ||| (b3.toNat >>> 1)

/-- The signed value: the code minus mid-scale (R134). -/
def sampleRaw (b0 b1 b2 b3 : Byte) : Int := (sampleCode b0 b1 b2 b3 : Int) - Config.mid

/-- The coefficient as K / 2^S: (1, 0) for RAW, (2500, 23) for MV (R135). -/
def coefScale : Coef → Int × Nat
  | .raw => (1, 0)
  | .mv => (2500, 23)

/-- DECODE on the parts of a frame (R131): value = raw * K / 2^(GAINC[ch] + S), delivered as (N, E) (R135, R140). -/
def decodeParts (b0 b1 b2 b3 : Byte) (timer : Option Byte) (gainc : GainTable) (coef : Coef) : Except Exc Decoded :=
  match gainc.get (sampleChannel b0) with
  | none => .error (.gainUnset (sampleChannel b0))
  | some g =>
    .ok { ch := sampleChannel b0
          num := sampleRaw b0 b1 b2 b3 * (coefScale coef).1
          exp := g.toNat + (coefScale coef).2
          timer := timer }

/-- The timer of a sample frame: byte 4 in 5-byte mode, none in 4-byte mode (R136). -/
def timerOf (fw : FrameWidth) (bs : List Byte) : Option Byte :=
  match fw with
  | .four => none
  | .five => some (bs.getD 4 0)

/-- DECODE of a frame of exactly FW bytes (R131). -/
def decodeSample (fw : FrameWidth) (bs : List Byte) (gainc : GainTable) (coef : Coef) : Except Exc Decoded :=
  decodeParts (bs.getD 0 0) (bs.getD 1 0) (bs.getD 2 0) (bs.getD 3 0) (timerOf fw bs) gainc coef

/-- The sample with its timestamp (R130 step 5, R138). -/
def Decoded.stamp (d : Decoded) (t : Time) : Sample :=
  { time := t, ch := d.ch, num := d.num, exp := d.exp, timer := d.timer }

/-- The value of a sample: the rational N / 2^E of its pair (R140). -/
def Sample.value (s : Sample) : Rat := (s.num : Rat) / 2 ^ s.exp

/-- Two samples carry the same value: the rationals of their pairs are equal, whether or not the pairs are (R140). -/
def Sample.sameValue (a b : Sample) : Bool := decide (a.num * 2 ^ b.exp = b.num * 2 ^ a.exp)

/-! ### The text line -/

/-- A number below 10 ^ digits in that many decimal digits. -/
def paddedText : Nat → Nat → String
  | 0, _ => ""
  | digits + 1, n => paddedText digits (n / 10) ++ toString (n % 10)

/-- `HH:MM:SS.ffffff`: two digits each for hours, minutes and seconds, and six fractional digits (R142); which reading
of the clock a timestamp stands for is Config's (N18; log 17). -/
def timeText (t : Time) : String :=
  paddedText 2 (Config.clockReading t).hour.val ++ ":" ++ paddedText 2 (Config.clockReading t).minute.val ++ ":" ++
  paddedText 2 (Config.clockReading t).second.val ++ "." ++ paddedText 6 (Config.clockReading t).micro.val

/-- The bracketed part of the text line, present iff the sample has a timer (R142). -/
def timerPart : Option Byte → String
  | none => ""
  | some t => "\tTimer " ++ Config.timerText t

/-- FORMATSAMPLE (R142); the number formats of value and timer are Config's (log 17). -/
def sampleLine (s : Sample) : String :=
  timeText s.time ++ "\tChannel " ++ toString s.ch.number ++ "\tValue " ++ Config.valueText s.value ++
  timerPart s.timer

end Sys2Proof.Machine
end

