-- ==== Sys2Proof/Machine/StepLists.lean ====
section
/-! DEFINITION. The steps of every operation, as data: the numbered pseudocode lines of its rule (41_sequencer.md,
42_sample_decoder.md R130, 43_readback.md R150, R157), each with its primitives in order (10_state.md R26). A line that
names another operation holds that operation's primitives in place (R100); a line that only computes from operands has
none (log 6). -/

namespace Sys2Proof.Machine

/-- What a write sends: a frame the operands fix, or the mask frames that read ACTIVE when they run (R103, R109). -/
inductive Source where
  | frame (f : Frame)
  /-- `ACT ACTIVE`. -/
  | actActive
  /-- `REINIT ACTIVE`. -/
  | reinitActive
  deriving DecidableEq, Repr

/-- One step: one primitive of R9, that is one Transport call, one `Settle`, one write, or one test (R26). -/
inductive SeqStep where
  /-- `chk_open()` (R81). -/
  | testOpen
  /-- One operand check (R81): what it raises, if anything. -/
  | test (c : Option Exc)
  /-- `chk_mask(ACTIVE)` of an `ACT ACTIVE` or `REINIT ACTIVE` (R82, R83). -/
  | testActive
  /-- SEND step 1: `n <- MemWrite(TX, 3, frame)` (R80). -/
  | write (src : Source)
  /-- SEND step 2: `if n != 3` (R80). -/
  | countTest
  /-- SEND step 3: `FlushIn()` (R80). -/
  | flushIn
  /-- SEND step 4: `Settle()` (R80). -/
  | settle
  /-- `FlushOut()` (R102 step 3). -/
  | flushOut
  /-- `if OPEN = 1: raise AlreadyOpen` (R101 step 1). -/
  | closedTest
  /-- The Transport's open (R101 step 2). -/
  | openTransport (port : String) (baud : Int) (timeout : Rat)
  /-- `ACTIVE <- 0b0000` (R101 step 3). -/
  | clearActive
  /-- `FW <- w` (R101 step 4, R108 step 5). -/
  | writeFw (w : FrameWidth)
  /-- `GAINC[c] <- unset` (R101 step 5). -/
  | unsetGain (c : Channel)
  /-- `COEF <- c` (R101 step 6). -/
  | writeCoef (c : Coef)
  /-- `OPEN <- b` (R101 step 7, R116 step 5). -/
  | writeOpen (b : Bool)
  /-- `if f_i != None`, else past the two steps under it (R103 step 3). -/
  | flagGiven (flag : Option Bool)
  /-- `if want != cur`, else past the step under it (R103 step 3). -/
  | flagDiffers (c : Channel) (flag : Option Bool)
  /-- `ACTIVE <- ACTIVE xor chbit(i)` (R103 step 3). -/
  | flipActive (c : Channel)
  /-- `GAINC[ch] <- g` (R105 step 4). -/
  | writeGain (ch : Int) (g : BitVec 3)
  /-- `if w = FW: return`, past the `rest` steps left of SETBYTEMODE (R108 step 3). -/
  | modeTest (w : FrameWidth) (rest : Nat)
  /-- `if five`, else past the `rest` steps under it (R110 step 6). -/
  | fiveTest (five : Bool) (rest : Nat)
  /-- `bs <- MemRead(RX, n)`. -/
  | read (n : Nat)
  /-- `bs <- MemRead(RX, FW)` (R130 step 2). -/
  | readFrame
  /-- `if len(bs) != FW: return None` (R130 step 3). -/
  | sampleTest
  /-- `s <- DECODE(bs, FW, GAINC, COEF)` (R130 step 4): the `unset` test of DECODE. -/
  | decode
  /-- `s.t <- Now()` (R130 step 5). -/
  | stamp
  /-- `return s` (R130 step 6). -/
  | returnSample
  /-- `if len(bs) != 2: return None` (R114 step 3). -/
  | pairTest
  /-- `return (bs[0], bs[1])` (R114 step 4). -/
  | returnPair
  /-- `n <- 0` (R115 step 2). -/
  | clearPolls
  /-- `if len(bs) = 1 and bs[0] = 0xB0: return` (R115 step 4). -/
  | ackTest
  /-- `n <- n + 1`, kept only where EE_POLL_MAX is given (R115 step 5, R26). -/
  | countPoll
  /-- `if EE_POLL_MAX is given and n >= EE_POLL_MAX: raise` (R115 step 6). -/
  | boundTest
  /-- `goto line` (R115 step 7). -/
  | goto (line : Nat)
  /-- CHECKRECORD step 1 (R151). -/
  | lengthTest
  /-- CHECKRECORD step 2 (R151). -/
  | markerTest
  /-- `slot[k+1] <- DECODEGROUP(...)` (R150 step 6): the zero test of DECODEGROUP (R152). -/
  | decodeSlot (k : Nat)
  /-- `return (slot[1], slot[2], slot[3], slot[4])` (R150 step 7). -/
  | returnReport
  /-- `if actual = expected and r has no SlotError: return Pass` (R157 step 3). -/
  | passTest (expected : List String)
  /-- `return Fail(expected, actual)` (R157 step 4). -/
  | returnFail (expected : List String)
  /-- The text line (R142). -/
  | returnText (s : Sample)
  /-- `e <- none` (R116 step 2). -/
  | clearErr
  /-- `Transport.close()`, its failure kept if nothing failed before (R116 step 4). -/
  | closeTransport
  /-- `if e != none: raise e` (R116 step 6). -/
  | reportCaught
  deriving DecidableEq, Repr

/-- The steps of one line: its number, the index of the configuration for the rounds of INITIALIZE's loop, 0 for every
other line, and its primitives. -/
structure Block where
  line : Nat
  cfg : Nat
  steps : List SeqStep
  deriving DecidableEq, Repr

/-- The primitives of an operation run in place of a call (R100). -/
def inPlace (bs : List Block) : List SeqStep := bs.flatMap (·.steps)

/-! ### The frame-level instructions -/

/-- The checks and the frame of every frame-level instruction (R82 to R96). -/
def instrParts (base : SpeedBase) : Instr → FrameParts
  | .act m => partsAct m
  | .intype ch t => partsIntype ch t
  | .freqhi ch c => partsFreqhi ch c
  | .freqlo ch c => partsFreqlo ch c
  | .gaincal ch k g => partsGaincal ch k g
  | .reinit m => partsReinit m
  | .speed0 => partsSpeed0 base
  | .speed1 => partsSpeed1 base
  | .speed2 => partsSpeed2 base
  | .speed3 => partsSpeed3 base
  | .speed4 => partsSpeed4 base
  | .speed5 => partsSpeed5 base
  | .tmrrst => partsTmrrst
  | .eerd => partsEerd
  | .eeaddr a => partsEeaddr a
  | .eewr v => partsEewr v
  | .query => partsQuery
  | .mode5 => partsMode5
  | .mode4 => partsMode4
  | .stop => partsStop

/-- SEND (R80). -/
def sendSteps (src : Source) : List SeqStep := [.write src, .countTest, .flushIn, .settle]

/-- `chk_open()`, then operand checks in order (R81). -/
def testSteps (cs : List (Option Exc)) : List SeqStep := .testOpen :: cs.map .test

/-- A frame-level instruction from its checks and its frame: the tests, then SEND (R80, R81). -/
def frameBlocks (parts : FrameParts) : List Block :=
  [⟨1, 0, testSteps parts.checks⟩, ⟨2, 0, sendSteps (.frame parts.frame)⟩]

/-- A frame-level instruction called by an operation. -/
def callSteps (parts : FrameParts) : List SeqStep := inPlace (frameBlocks parts)

/-- `ACT ACTIVE` called by an operation (R103 step 4, R109 step 3). -/
def callActActive : List SeqStep := [.testOpen, .testActive] ++ sendSteps .actActive

/-- `REINIT ACTIVE` called by an operation (R109 step 2). -/
def callReinitActive : List SeqStep := [.testOpen, .testActive] ++ sendSteps .reinitActive

/-! ### Construction, stop, shutdown -/

/-- OPEN (R101), with the defaults of its optional operands (R101, R200). -/
def openBlocks (port : String) (baud : Option Int) (timeout : Option Rat) (mv : Option Bool) : List Block :=
  [⟨1, 0, [.closedTest]⟩,
   ⟨2, 0, [.openTransport port (baud.getD Config.baudDefault) (timeout.getD Config.timeoutDefault)]⟩,
   ⟨3, 0, [.clearActive]⟩,
   ⟨4, 0, [.writeFw .four]⟩,
   ⟨5, 0, [.unsetGain .ch1, .unsetGain .ch2, .unsetGain .ch3, .unsetGain .ch4]⟩,
   ⟨6, 0, [.writeCoef (if mv.getD false then .mv else .raw)]⟩,
   ⟨7, 0, [.writeOpen true]⟩]

/-- STOPOP (R102). -/
def stopBlocks : List Block := [⟨1, 0, [.testOpen]⟩, ⟨2, 0, callSteps partsStop⟩, ⟨3, 0, [.flushOut]⟩]

/-- CLOSE (R116). -/
def closeBlocks : List Block :=
  [⟨1, 0, [.testOpen]⟩, ⟨2, 0, [.clearErr]⟩, ⟨3, 0, inPlace stopBlocks⟩, ⟨4, 0, [.closeTransport]⟩,
   ⟨5, 0, [.writeOpen false]⟩, ⟨6, 0, [.reportCaught]⟩]

/-! ### Channel activation -/

/-- One round of SETACTIVE step 3 (R103). -/
def flagSteps (c : Channel) (flag : Option Bool) : List SeqStep :=
  [.flagGiven flag, .flagDiffers c flag, .flipActive c]

/-- SETACTIVE (R103). -/
def setactiveBlocks (f1 f2 f3 f4 : Option Bool) : List Block :=
  [⟨1, 0, [.testOpen]⟩, ⟨2, 0, inPlace stopBlocks⟩,
   ⟨3, 0, flagSteps .ch1 f1 ++ flagSteps .ch2 f2 ++ flagSteps .ch3 f3 ++ flagSteps .ch4 f4⟩, ⟨4, 0, callActActive⟩]

/-- REINITIALIZE (R109). -/
def reinitializeBlocks : List Block := [⟨1, 0, [.testOpen]⟩, ⟨2, 0, callReinitActive⟩, ⟨3, 0, callActActive⟩]

/-! ### Per-channel setters -/

/-- SETFREQ (R104): the low-byte frame first; step 3 computes the divisor. -/
def setfreqBlocks (ch : Int) (f : Rat) : List Block :=
  [⟨1, 0, testSteps [chkCh ch]⟩, ⟨2, 0, [.test (chkFreq f)]⟩,
   ⟨4, 0, callSteps (partsFreqlo ch (divisor f))⟩, ⟨5, 0, callSteps (partsFreqhi ch (divisor f))⟩]

/-- The gain code of a checked gain (R105 step 2). -/
def gainCodeOf (gain : Rat) : BitVec 3 := (gaincode gain).getD 0

/-- SETGAINCAL (R105): the frame, then the register; step 2 computes the code. -/
def setgaincalBlocks (ch k : Int) (gain : Rat) : List Block :=
  [⟨1, 0, testSteps [chkCh ch, chkCal k, chkGain gain]⟩,
   ⟨3, 0, callSteps (partsGaincal ch k ((gainCodeOf gain).toNat : Int))⟩,
   ⟨4, 0, [.writeGain ch (gainCodeOf gain)]⟩]

/-- SETINPUT (R106). -/
def setinputBlocks (p : Params) (ch : Int) (src : InputSource) : List Block :=
  [⟨1, 0, testSteps [chkCh ch]⟩, ⟨2, 0, [.test (chkSrc p src)]⟩,
   ⟨3, 0, callSteps (partsIntype ch ((inputCode p src).getD 0))⟩]

/-- APPLYCH (R107): frequency, gain/calibration, input type. -/
def applychBlocks (p : Params) (cfg : ChannelConfig) : List Block :=
  [⟨1, 0, testSteps (chkConfig p cfg)⟩, ⟨2, 0, inPlace (setfreqBlocks cfg.ch cfg.f)⟩,
   ⟨3, 0, inPlace (setgaincalBlocks cfg.ch cfg.cal cfg.gain)⟩, ⟨4, 0, inPlace (setinputBlocks p cfg.ch cfg.src)⟩]

/-! ### Byte mode and bring-up -/

/-- SETBYTEMODE steps 4 and 5: the frame, then the register (R108). -/
def modeChange (w : Int) : List Block :=
  [⟨4, 0, callSteps (if w = 5 then partsMode5 else partsMode4)⟩, ⟨5, 0, [.writeFw (widthOf w)]⟩]

/-- SETBYTEMODE (R108): the test, the frame, then the register. -/
def setbytemodeBlocks (w : Int) : List Block :=
  [⟨1, 0, [.testOpen]⟩, ⟨2, 0, [.test (chkWidth w)]⟩,
   ⟨3, 0, [.modeTest (widthOf w) (inPlace (modeChange w)).length]⟩] ++ modeChange w

/-- The flag INITIALIZE gives a channel: true if some configuration names it, else false (R110 step 3). -/
def inSet (cfgs : List ChannelConfig) (c : Channel) : Option Bool :=
  some (cfgs.any (fun cfg => decide (cfg.ch = (c.number : Int))))

/-- INITIALIZE step 5: one round per configuration, from index j on (R110). -/
def roundBlocks (p : Params) (j : Nat) : List ChannelConfig → List Block
  | [] => []
  | cfg :: cfgs => ⟨5, j, inPlace (applychBlocks p cfg)⟩ :: roundBlocks p (j + 1) cfgs

/-- INITIALIZE (R110). -/
def bringUpBlocks (p : Params) (cfgs : List ChannelConfig) (five : Option Bool) : List Block :=
  [⟨1, 0, testSteps (cfgs.flatMap (chkConfig p) ++ [chkDistinct cfgs])⟩,
   ⟨2, 0, inPlace stopBlocks⟩,
   ⟨3, 0, inPlace (setactiveBlocks (inSet cfgs .ch1) (inSet cfgs .ch2) (inSet cfgs .ch3) (inSet cfgs .ch4))⟩,
   ⟨4, 0, inPlace stopBlocks⟩] ++
  roundBlocks p 1 cfgs ++
  [⟨6, 0, .fiveTest (five.getD false) (inPlace (setbytemodeBlocks 5)).length :: inPlace (setbytemodeBlocks 5)⟩,
   ⟨7, 0, inPlace reinitializeBlocks⟩]

/-! ### Timer, speed, EEPROM -/

/-- `SPEED i` for any index (R96). -/
def speedParts (base : SpeedBase) (i : Int) : FrameParts := ⟨[chkSidx i], speedFrame base i.toNat⟩

/-- SETSPEED (R112). -/
def setspeedBlocks (base : SpeedBase) (baud : Int) : List Block :=
  [⟨1, 0, [.testOpen]⟩, ⟨2, 0, [.test (chkBaud baud)]⟩,
   ⟨3, 0, callSteps (speedParts base ((speedIndex baud).getD 0))⟩]

/-- EEREAD (R114). -/
def eereadBlocks : List Block :=
  [⟨1, 0, callSteps partsEerd⟩, ⟨2, 0, [.read 2]⟩, ⟨3, 0, [.pairTest]⟩, ⟨4, 0, [.returnPair]⟩]

/-- EEWRITE (R115). -/
def eewriteBlocks (v : Int) : List Block :=
  [⟨1, 0, callSteps (partsEewr v)⟩, ⟨2, 0, [.clearPolls]⟩, ⟨3, 0, [.read 1]⟩, ⟨4, 0, [.ackTest]⟩,
   ⟨5, 0, [.countPoll]⟩, ⟨6, 0, [.boundTest]⟩, ⟨7, 0, [.goto 3]⟩]

/-! ### Samples and read-back -/

/-- READSAMPLE (R130). -/
def readsampleBlocks : List Block :=
  [⟨1, 0, [.testOpen]⟩, ⟨2, 0, [.readFrame]⟩, ⟨3, 0, [.sampleTest]⟩, ⟨4, 0, [.decode]⟩, ⟨5, 0, [.stamp]⟩,
   ⟨6, 0, [.returnSample]⟩]

/-- READPARAMS steps 1 to 6 (R150). -/
def recordBlocks : List Block :=
  [⟨1, 0, [.testOpen]⟩, ⟨2, 0, inPlace stopBlocks⟩, ⟨3, 0, callSteps partsQuery⟩, ⟨4, 0, [.read Config.rbLen]⟩,
   ⟨5, 0, [.lengthTest, .markerTest]⟩, ⟨6, 0, [.decodeSlot 0, .decodeSlot 1, .decodeSlot 2, .decodeSlot 3]⟩]

/-- SELFTEST (R157): READPARAMS in place; step 2 computes the lines. -/
def selftestBlocks (expected : List String) : List Block :=
  [⟨1, 0, inPlace recordBlocks⟩, ⟨3, 0, [.passTest expected]⟩, ⟨4, 0, [.returnFail expected]⟩]

/-! ### Every operation -/

/-- The lines of an operation in order. -/
def blocks (p : Params) : Op → List Block
  | .frame i => frameBlocks (instrParts p.speedBase i)
  | .openBlock port baud timeout mv => openBlocks port baud timeout mv
  | .stopop => stopBlocks
  | .setactive f1 f2 f3 f4 => setactiveBlocks f1 f2 f3 f4
  | .setfreq ch f => setfreqBlocks ch f
  | .setgaincal ch k gain => setgaincalBlocks ch k gain
  | .setinput ch src => setinputBlocks p ch src
  | .applych cfg => applychBlocks p cfg
  | .setbytemode w => setbytemodeBlocks w
  | .reinitialize => reinitializeBlocks
  | .bringUp cfgs five => bringUpBlocks p cfgs five
  | .resettimer => [⟨1, 0, callSteps partsTmrrst⟩]
  | .setspeed baud => setspeedBlocks p.speedBase baud
  | .speed i => frameBlocks (speedParts p.speedBase i)
  | .eeselect a => [⟨1, 0, callSteps (partsEeaddr a)⟩]
  | .eeread => eereadBlocks
  | .eewrite v => eewriteBlocks v
  | .close => closeBlocks
  | .readsample => readsampleBlocks
  | .readparams => recordBlocks ++ [⟨7, 0, [.returnReport]⟩]
  | .selftest expected => selftestBlocks expected
  | .formatsample s => [⟨1, 0, [.testOpen]⟩, ⟨2, 0, [.returnText s]⟩]

/-- Steps of one line from primitive `k` on, each with its place. -/
def placed (line cfg : Nat) (k : Nat) : List SeqStep → List (Place × SeqStep)
  | [] => []
  | st :: sts => (⟨line, cfg, k⟩, st) :: placed line cfg (k + 1) sts

/-- The steps of an operation in order, each with its place (R26). -/
def program (p : Params) (o : Op) : List (Place × SeqStep) :=
  (blocks p o).flatMap (fun b => placed b.line b.cfg 0 b.steps)

end Sys2Proof.Machine
end

