-- ==== Sys2Proof/Machine/Sequencer.lean ====
section
/-! DEFINITION. The sequencer: what each primitive does, where SEQ goes after it (10_state.md R26, 41_sequencer.md R100,
R117), and how the block takes the caller's next request (00_scope.md R5, 20_memory.md R50). -/

namespace Sys2Proof.Machine

/-! ### Where SEQ goes -/

/-- The steps of an operation from a position on (R26). -/
def Position.rest (params : Params) (p : Position) : List (Place × SeqStep) :=
  (program params p.op).dropWhile (fun x => x.1 ≠ p.place)

/-- SEQ at the first of the steps left; without one the operation ends `Done` without result (R11, R26). -/
def State.resume (p : Position) (left : List (Place × SeqStep)) (s : State) : State :=
  match left with
  | (place, _) :: _ => { s with seq := .running { p with place := place } }
  | [] => s.deliver (.done .empty)

/-- SEQ advances from position `p` to the next step, past `skip` further ones (R26). -/
def State.advance (p : Position) (skip : Nat) (s : State) : State :=
  s.resume p ((p.rest s.params).drop (skip + 1))

/-- SEQ is set to the first step of a line: the loop head of EEWRITE (R26, R115 step 7). -/
def State.jump (p : Position) (line : Nat) (s : State) : State :=
  s.resume p ((program s.params p.op).dropWhile (fun x => x.1.line ≠ line))

/-- How a primitive leaves the sequencer: at the next step, past some; at a line; at the end of the operation with a
result; or raising (R26, R117). -/
inductive Goes where
  | on (skip : Nat)
  | toLine (line : Nat)
  | ends (v : Value)
  | raises (e : Exc)
  deriving DecidableEq, Repr

/-- What a primitive leaves: the state, the position with its locals, and how SEQ moves. -/
structure Effect where
  state : State
  pos : Position
  goes : Goes
  deriving DecidableEq, Repr

/-- The state after a primitive and the move of SEQ. -/
def Effect.conclude (eff : Effect) : State :=
  match eff.goes with
  | .on skip => eff.state.advance eff.pos skip
  | .toLine line => eff.state.jump eff.pos line
  | .ends v => eff.state.deliver (.done v)
  | .raises e => eff.state.raiseExc eff.pos e

/-- The effect of a primitive that goes on where it does not raise, its result kept in the locals. -/
def Ends.effect {α : Type} (r : Ends α) (p : Position) (keep : α → Position) : Effect :=
  match r with
  | .ok a s => ⟨s, keep a, .on 0⟩
  | .raised e s => ⟨s, p, .raises e⟩

/-! ### The primitives -/

/-- The frame a write sends (R103, R109). -/
def sourceFrame (base : SpeedBase) (active : BitVec 4) : Source → Frame
  | .frame f => f
  | .actActive => (instrParts base (.act (active.toNat : Int))).frame
  | .reinitActive => (instrParts base (.reinit (active.toNat : Int))).frame

/-- `if want != cur` of SETACTIVE step 3 is false: the flag wants the bit ACTIVE has (R103). -/
def flagAgrees (m : BitVec 4) (c : Channel) (flag : Option Bool) : Bool := decide (flag = some (maskBit m c))

/-- `GAINC[c] <- unset` (R101 step 5). -/
def GainTable.clear (t : GainTable) (c : Channel) : GainTable :=
  match c with
  | .ch1 => { t with gain1 := none }
  | .ch2 => { t with gain2 := none }
  | .ch3 => { t with gain3 := none }
  | .ch4 => { t with gain4 := none }

/-- `GAINC[ch] <- g` (R105): only an operation whose channel operand is ch reaches the cell (R24). -/
def setGain (t : GainTable) (ch : Int) (g : BitVec 3) : GainTable :=
  match channelOf ch with
  | some c => t.set c g
  | none => t

/-- `n <- n + 1`: no counter is kept unless EE_POLL_MAX is given (R26, R115 step 5). -/
def countedPolls (p : Params) (n : Nat) : Nat := if p.eePollMax.isSome then n + 1 else n

/-- EEWRITE step 6 (R115). -/
def chkPolls (p : Params) (n : Nat) : Option Exc :=
  match p.eePollMax with
  | some m => if m ≤ n then some (.transportError .noAck) else none
  | none => none

/-- The exception CLOSE reports: the first one (R116 step 4). -/
def keepFirst (first : Option Exc) (e : Exc) : Option Exc :=
  match first with
  | none => some e
  | some e0 => some e0

/-- CLOSE step 4 (R116): the close is attempted, and its failure is kept if nothing failed before. -/
def closeEffect (p : Position) (s : State) : Effect :=
  match transportClose s with
  | .ok _ s1 => ⟨s1, p, .on 0⟩
  | .raised e s1 => ⟨s1, { p with err := keepFirst p.err e }, .on 0⟩

/-- READSAMPLE step 4 (R130, R131, R177). -/
def decodeEffect (p : Position) (s : State) : Effect :=
  match decodeSample s.fw p.bs s.gainc s.coef with
  | .ok d => ⟨s, { p with decoded := d }, .on 0⟩
  | .error e => ⟨s, p, .raises e⟩

/-- A test that returns early (R26): with the result where it holds, else to the next step. -/
def returnIf (c : Bool) (v : Value) (p : Position) (s : State) : Effect := ⟨s, p, if c then .ends v else .on 0⟩

/-- What one step does at position `p`. -/
def primitive (st : SeqStep) (p : Position) (s : State) : Effect :=
  match st with
  | .testOpen => (testing (chkOpen s) s).effect p fun _ => p
  | .test c => (testing c s).effect p fun _ => p
  | .testActive => (testing (chkMask (s.active.toNat : Int)) s).effect p fun _ => p
  | .write src => (memWrite (sourceFrame s.params.speedBase s.active src) s).effect p fun n => { p with count := n }
  | .countTest => (testing (chkCount p.count) s).effect p fun _ => p
  | .flushIn => (flushIn s).effect p fun _ => p
  | .settle => (settle s).effect p fun _ => p
  | .flushOut => (flushOut s).effect p fun _ => p
  | .closedTest => (testing (if s.isOpen then some .alreadyOpen else none) s).effect p fun _ => p
  | .openTransport port baud timeout => (transportOpen port baud timeout s).effect p fun _ => p
  | .clearActive => ⟨{ s with active := 0 }, p, .on 0⟩
  | .writeFw w => ⟨{ s with fw := w }, p, .on 0⟩
  | .unsetGain c => ⟨{ s with gainc := s.gainc.clear c }, p, .on 0⟩
  | .writeCoef c => ⟨{ s with coef := c }, p, .on 0⟩
  | .writeOpen b => ⟨{ s with isOpen := b }, p, .on 0⟩
  | .flagGiven flag => ⟨s, p, .on (if flag.isSome then 0 else 2)⟩
  | .flagDiffers c flag => ⟨s, p, .on (if flagAgrees s.active c flag then 1 else 0)⟩
  | .flipActive c => ⟨{ s with active := s.active ^^^ c.bit }, p, .on 0⟩
  | .writeGain ch g => ⟨{ s with gainc := setGain s.gainc ch g }, p, .on 0⟩
  | .modeTest w rest => ⟨s, p, .on (if w = s.fw then rest else 0)⟩
  | .fiveTest five rest => ⟨s, p, .on (if five then 0 else rest)⟩
  | .read n => (memRead n s).effect p fun bs => { p with bs := bs }
  | .readFrame => (memRead s.fw.bytes s).effect p fun bs => { p with bs := bs }
  | .sampleTest => returnIf (decide (p.bs.length ≠ s.fw.bytes)) .nothing p s
  | .decode => decodeEffect p s
  | .stamp => (drawTime s).effect p fun t => { p with time := t }
  | .returnSample => ⟨s, p, .ends (.sample (p.decoded.stamp p.time))⟩
  | .pairTest => returnIf (decide (p.bs.length ≠ 2)) .nothing p s
  | .returnPair => ⟨s, p, .ends (.pair (p.bs.getD 0 0) (p.bs.getD 1 0))⟩
  | .clearPolls => ⟨s, { p with polls := 0 }, .on 0⟩
  | .ackTest => returnIf (decide (p.bs = [Config.eeAck])) .empty p s
  | .countPoll => ⟨s, { p with polls := countedPolls s.params p.polls }, .on 0⟩
  | .boundTest => (testing (chkPolls s.params p.polls) s).effect p fun _ => p
  | .goto line => ⟨s, p, .toLine line⟩
  | .lengthTest => (testing (chkLength p.bs) s).effect p fun _ => p
  | .markerTest => (testing (chkMarker p.bs) s).effect p fun _ => p
  | .decodeSlot k => ⟨s, { p with slots := p.slots ++ [recordSlot p.bs k] }, .on 0⟩
  | .returnReport => ⟨s, p, .ends (.report p.slots)⟩
  | .passTest expected => returnIf (slotsPass expected p.slots) .pass p s
  | .returnFail expected => ⟨s, p, .ends (.fail expected (p.slots.map slotLine))⟩
  | .returnText smp => ⟨s, p, .ends (.text (sampleLine smp))⟩
  | .clearErr => ⟨s, { p with err := none }, .on 0⟩
  | .closeTransport => closeEffect p s
  | .reportCaught => (testing p.err s).effect p fun _ => p

/-! ### One step -/

/-- The step at a position, if it is a place of its operation (R26). -/
def Position.current (params : Params) (p : Position) : Option SeqStep := (p.rest params).head?.map (·.2)

/-- The step at the position SEQ holds (R26); a place that is no step is a fault no run reaches (log 19). -/
def runPosition (p : Position) (s : State) : Host.Outcome State Fault Refusal :=
  match p.current s.params with
  | some st => .next (primitive st p s).conclude
  | none => .fault .seqOutOfList

/-- The position before the first step of an operation; the locals hold values no step reads before it writes them
(log 28). -/
def startOf (o : Op) : Position :=
  { op := o, place := ⟨1, 0, 0⟩, bs := [], count := 0, polls := 0, err := none, decoded := ⟨.ch1, 0, 0, none⟩
    time := default, slots := [] }

/-- The instruction a 24-bit word of the table's notation decodes to (R7, R74). -/
def wordInstr (base : SpeedBase) (w : BitVec 24) : Except DecodeError Instr := decode base (frameOfWord w.toNat).bytes

/-- The block, idle, takes the caller's next request (R5, R50). An operation gets SEQ; a 24-bit word, the notation in
which the host places an instruction for one step, runs whole (log 6); a word outside the map is refused (U6, log 20);
without a request the block stays idle (log 8). -/
def takeRequest (s : State) : Host.Outcome State Fault Refusal :=
  match s.requests with
  | [] => .next s
  | .word w :: rest =>
    match wordInstr s.params.speedBase w with
    | .ok i => exec i { s with requests := rest }
    | .error _ => .refused (.noInstruction w)
  | .instr i :: rest => .next { s with requests := rest, seq := .running (startOf (.frame i)) }
  | .op o :: rest => .next { s with requests := rest, seq := .running (startOf o) }

end Sys2Proof.Machine
end

