-- ==== Sys2Proof/Machine/Step.lean ====
section
/-! DEFINITION. One step of the machine, and where the host places an instruction for the next step to run. -/

namespace Sys2Proof.Machine

/-- One step: the step SEQ points at, or, with SEQ idle, the caller's next request (R26, R50). -/
def step (s : State) : Host.Outcome State Fault Refusal :=
  match s.seq with
  | .running p => runPosition p s
  | .idle => takeRequest s

/-- `s` with the instruction whose table word is `w` as the caller's next request and SEQ idle, so that the very next
step runs it (R50; log 2). -/
def State.withFetchWord (s : State) (nbits w : Nat) : State :=
  { s with seq := .idle, requests := .word (BitVec.ofNat 24 (w % 2 ^ nbits)) :: s.requests }

end Sys2Proof.Machine
end

