-- ==== Sys2Proof/Safety.lean ====
section
/-! DEFINITION. The terms the claims use: what a Transport that accepts is, what a run of frames leaves, the state a
frame of an instruction compares, and the predicates that every run keeps. -/

namespace Sys2Proof.Machine

/-! ### What the block emits -/

/-- Something an operation sends through the Transport: a command frame by SEND, or a `FlushOut` (R10). -/
inductive Emit where
  | frame (f : Frame)
  | flushOut
  deriving DecidableEq, Repr

/-- The Transport accepts these emissions from here on: every write reports 3 bytes, no flush fails (R41, R43). -/
def accepts : List Emit → State → Prop
  | [], _ => True
  | .frame _ :: es, s =>
    s.answer.ok = true ∧ s.answer.count = 3 ∧ s.draw.answer.ok = true ∧ accepts es s.draw.draw
  | .flushOut :: es, s => s.answer.ok = true ∧ accepts es s.draw

/-- The state after a successful SEND of a frame: its three events, two answers drawn, an empty input buffer
(R80, R51). -/
def State.sent (f : Frame) (s : State) : State :=
  { s with
    trace := s.trace ++ [.tx f (some 3), .flushIn true, .settle]
    rx := []
    answers := s.answers.tail.tail
    draws := s.draws + 2 }

/-- The state after a successful emission. -/
def State.emit (s : State) : Emit → State
  | .frame f => s.sent f
  | .flushOut => s.draw.log (.flushOut true)

/-- The state after successful emissions in order. -/
def State.emitAll (es : List Emit) (s : State) : State := es.foldl State.emit s

/-- The state after a successful read that asked for `n` bytes and returned `bs` (R42, R49). -/
def State.afterRead (n : Nat) (bs : List Byte) (s : State) : State :=
  { s.draw.log (.rx n (some bs)) with rx := s.draw.rx.drop bs.length }

/-- The emissions of a STOPOP (R102). -/
def stopEmits : List Emit := [.frame ⟨0x00, 0x00, 0xFF⟩, .flushOut]

/-- The frame of three integers in 0..255. -/
def frameOfInts (b1 b2 b3 : Int) : Frame := ⟨BitVec.ofInt 8 b1, BitVec.ofInt 8 b2, BitVec.ofInt 8 b3⟩

/-- The one-hot channel-bit of a channel number, as the table of R63 lists it. -/
def channelBitTable (ch : Int) : Int := if ch = 1 then 1 else if ch = 2 then 2 else if ch = 3 then 4 else 8

/-! ### What an instruction leaves alone -/

/-- The five registers of the block (R20), without SEQ. -/
structure Registers where
  active : BitVec 4
  fw : FrameWidth
  coef : Coef
  gainc : GainTable
  isOpen : Bool
  deriving DecidableEq, Repr

/-- The registers of a state. -/
def State.registers (s : State) : Registers := ⟨s.active, s.fw, s.coef, s.gainc, s.isOpen⟩

/-- The bytes of the TX stream so far: the frames the Transport reported as accepted whole (R40, R41). -/
def txStream : List Event → List Byte
  | [] => []
  | .tx f (some 3) :: es => f.bytes ++ txStream es
  | _ :: es => txStream es

/-! ### Predicates over traces and positions -/

/-- Where a trace stands in the pacing of SEND (R51, R80): no frame is under way; a whole frame has been written and
not yet flushed; it has been flushed and not yet settled. -/
inductive Phase where
  | free | sent | flushed
  deriving DecidableEq, Repr

/-- The phase after one more event, none where the event breaks the pacing: an accepted write is followed at once by
its flush, and by the settle where the flush succeeded; no flush and no settle stands anywhere else. -/
def Phase.next : Phase → Event → Option Phase
  | .free, .tx _ (some 3) => some .sent
  | .free, .flushIn _ => none
  | .free, .settle => none
  | .free, _ => some .free
  | .sent, .flushIn true => some .flushed
  | .sent, .flushIn false => some .free
  | .sent, _ => none
  | .flushed, .settle => some .free
  | .flushed, _ => none

/-- The phase a trace ends in, none for a trace that breaks the pacing. -/
def phaseOf (tr : List Event) : Option Phase := tr.foldl (fun ph e => ph.bind (fun q => q.next e)) (some .free)

/-- The phase of SEND that the next step stands in, for a count `n` of the last write. -/
def SeqStep.phase (n : Nat) : SeqStep → Phase
  | .countTest => if n = 3 then .sent else .free
  | .flushIn => .sent
  | .settle => .flushed
  | _ => .free

/-- The phase SEQ stands in: none under way where the block is idle. -/
def State.seqPhase (s : State) : Phase :=
  match s.seq with
  | .idle => .free
  | .running p => ((p.current s.params).map (fun st => st.phase p.count)).getD .free

/-- The trace keeps the pacing, and SEQ stands where the trace says (R50 (O4), R51, R80). -/
def PacedWithSeq (s : State) : Prop := phaseOf s.trace = some s.seqPhase

/-- Every frame of a trace is the frame of a well-formed instruction (R74: closure of the encoder). -/
def FramesInMap (base : SpeedBase) (tr : List Event) : Prop :=
  ∀ f count, Event.tx f count ∈ tr → ∃ i : Instr, i.wellFormed = true ∧ encode base i = f

/-- SEQ is idle or at a step of its operation (R26). -/
def SeqInList (s : State) : Prop :=
  ∀ p, s.seq = .running p → (p.current s.params).isSome = true

/-- OPEN agrees with where SEQ is (R25, R101, R116): past the first step of an operation other than OPEN and CLOSE the
block is open, inside OPEN past its first step it is closed, and CLOSE is open up to its line 5, the write of OPEN, and
closed after it. -/
def OpenAgreesWithSeq (s : State) : Prop :=
  ∀ p, s.seq = .running p → p.place ≠ ⟨1, 0, 0⟩ →
    match p.op with
    | .openBlock .. => s.isOpen = false
    | .close => s.isOpen = decide (p.place.line ≤ 5)
    | _ => s.isOpen = true

/-- The steps of the operation that stand before SEQ. -/
def Position.before (params : Params) (p : Position) : List (Place × SeqStep) :=
  (program params p.op).takeWhile (fun x => x.1 ≠ p.place)

/-- Every operand check that stands before SEQ has passed (R81, R100). -/
def OperandsChecked (s : State) : Prop :=
  ∀ p, s.seq = .running p → ∀ x ∈ p.before s.params, ∀ c, x.2 = .test c → c = none

/-- The exception CLOSE keeps is a TransportError, the only class its `try` catches (R116). -/
def KeptIsTransportError (s : State) : Prop :=
  ∀ p e, s.seq = .running p → p.err = some e → e.isTransportError = true

/-- A step that only tests: `chk_open` or an operand check. -/
def SeqStep.isTest : SeqStep → Bool
  | .testOpen => true
  | .test _ => true
  | _ => false

/-- The operation SEQ is inside, if any. -/
def State.currentOp (s : State) : Option Op :=
  match s.seq with
  | .idle => none
  | .running p => some p.op

/-- Operations that may write ACTIVE (R31). -/
def Op.writesActive : Op → Bool
  | .openBlock .. => true
  | .setactive .. => true
  | .bringUp .. => true
  | _ => false

/-- Operations that may write FW (R31). -/
def Op.writesFw : Op → Bool
  | .openBlock .. => true
  | .setbytemode _ => true
  | .bringUp .. => true
  | _ => false

/-- Operations that may write COEF (R31). -/
def Op.writesCoef : Op → Bool
  | .openBlock .. => true
  | _ => false

/-- Operations that may write GAINC (R31). -/
def Op.writesGainc : Op → Bool
  | .openBlock .. => true
  | .setgaincal .. => true
  | .applych _ => true
  | .bringUp .. => true
  | _ => false

/-- Operations that may write OPEN (R31). -/
def Op.writesOpen : Op → Bool
  | .openBlock .. => true
  | .close => true
  | _ => false

/-! ### The shape of an instruction's rule and of an operation's end -/

/-- Emissions in order fail: at one of them a call of the Transport fails or takes a short count, with the exception
R173 names, the trace ending with the failed event and nothing sent after it (R80, R102, R182). -/
inductive EmitsFail : List Emit → State → Exc → State → Prop where
  /-- `write` fails. -/
  | write (f : Frame) (es : List Emit) (s : State) : s.answer.ok = false →
      EmitsFail (.frame f :: es) s (.transportError .write) (s.draw.log (.tx f none))
  /-- `write` returns a count other than 3: no flush, no settle. -/
  | short (f : Frame) (es : List Emit) (s : State) : s.answer.ok = true → s.answer.count ≠ 3 →
      EmitsFail (.frame f :: es) s (.transportError .shortWrite) (s.draw.log (.tx f (some s.answer.count)))
  /-- `flushInput` fails: no settle. -/
  | flushIn (f : Frame) (es : List Emit) (s : State) : s.answer.ok = true → s.answer.count = 3 →
      s.draw.answer.ok = false →
      EmitsFail (.frame f :: es) s (.transportError .flush)
        ((s.draw.log (.tx f (some 3))).draw.log (.flushIn false))
  /-- `flushOutput` fails. -/
  | flushOut (es : List Emit) (s : State) : s.answer.ok = false →
      EmitsFail (.flushOut :: es) s (.transportError .flush) (s.draw.log (.flushOut false))
  /-- An emission is accepted and a later one fails. -/
  | later (e : Emit) (es : List Emit) (s : State) (exc : Exc) (u : State) : accepts [e] s →
      EmitsFail es (s.emit e) exc u → EmitsFail (e :: es) s exc u

/-- The whole rule, from state `s`, of a frame-level instruction `i` whose first failing operand check is `bad` and
whose frame is `f` (R80 to R96): `NotOpen` first, then the operand check, then SEND, which succeeds or fails at one of
its calls; no register is ever written. -/
def FrameEnds (i : Instr) (bad : Option Exc) (f : Frame) (s : State) : Prop :=
  (s.isOpen = false → exec i s = .next (s.abort .notOpen)) ∧
  (s.isOpen = true → ∀ e, bad = some e → exec i s = .next (s.abort e)) ∧
  (s.isOpen = true → bad = none →
    (accepts [.frame f] s → exec i s = .next ((s.sent f).deliver (.done .empty))) ∧
    (∀ e u, EmitsFail [.frame f] s e u → exec i s = .next (u.abort e))) ∧
  (∀ t, exec i s = .next t → t.registers = s.registers)

/-- The whole rule of a frame-level instruction, from every state. -/
def FrameLaw (i : Instr) (bad : Option Exc) (f : Frame) : Prop := ∀ s : State, FrameEnds i bad f s

/-- The channel index is one of the four (R78, R171). -/
def LegalChannel (cfg : ChannelConfig) : Prop := 1 ≤ cfg.ch ∧ cfg.ch ≤ 4

/-- The frequency is an integer number of Hz in 5..1000 (R78, R171). -/
def LegalFrequency (cfg : ChannelConfig) : Prop := cfg.f.den = 1 ∧ 5 ≤ cfg.f.num ∧ cfg.f.num ≤ 1000

/-- The calibration code is in 0..7 (R78, R171). -/
def LegalCalibration (cfg : ChannelConfig) : Prop := 0 ≤ cfg.cal ∧ cfg.cal ≤ 7

/-- The gain is one of the eight (R78, R171). -/
def LegalGain (cfg : ChannelConfig) : Prop := ∃ g : Nat, g ≤ 7 ∧ cfg.gain = 2 ^ g

/-- The source has a code, and it is in 0..3 (R78, R171). -/
def LegalSource (p : Params) (cfg : ChannelConfig) : Prop := ∃ t : Int, inputCode p cfg.src = some t ∧ 0 ≤ t ∧ t ≤ 3

/-- The operands of a configuration lie in their closed sets (R78, R171). -/
def LegalConfig (p : Params) (cfg : ChannelConfig) : Prop :=
  LegalChannel cfg ∧ LegalFrequency cfg ∧ LegalCalibration cfg ∧ LegalGain cfg ∧ LegalSource p cfg

/-- The first operand of a configuration outside its set is this field, in the order ch, f, cal, gain, src of APPLYCH
step 1 (R107, R181). -/
def RefusedConfig (p : Params) (cfg : ChannelConfig) : Field → Prop
  | .channel => ¬LegalChannel cfg
  | .frequency => LegalChannel cfg ∧ ¬LegalFrequency cfg
  | .calibration => LegalChannel cfg ∧ LegalFrequency cfg ∧ ¬LegalCalibration cfg
  | .gain => LegalChannel cfg ∧ LegalFrequency cfg ∧ LegalCalibration cfg ∧ ¬LegalGain cfg
  | .inputType =>
    LegalChannel cfg ∧ LegalFrequency cfg ∧ LegalCalibration cfg ∧ LegalGain cfg ∧ ¬LegalSource p cfg
  | _ => False

/-- The four frames of APPLYCH in order (R107). -/
def configEmits (p : Params) (cfg : ChannelConfig) : List Emit :=
  [.frame (encode p.speedBase (.freqlo cfg.ch (19200 / cfg.f.num))),
   .frame (encode p.speedBase (.freqhi cfg.ch (19200 / cfg.f.num))),
   .frame (encode p.speedBase (.gaincal cfg.ch cfg.cal ((gainCodeOf cfg.gain).toNat : Int))),
   .frame (encode p.speedBase (.intype cfg.ch ((inputCode p cfg.src).getD 0)))]

/-- What INITIALIZE sends up to its step 5, and in step 5 for these configurations (R110). -/
def bringUpTo (p : Params) (cfgs : List ChannelConfig) (m : BitVec 4) : List Emit :=
  stopEmits ++ stopEmits ++ [.frame (encode p.speedBase (.act (m.toNat : Int)))] ++ stopEmits ++
  cfgs.flatMap (configEmits p)

/-- What INITIALIZE step 6 sends: the mode frame where 5-byte mode is asked for and not held (R110, R108). -/
def modeEmits (p : Params) (five : Bool) (fw : FrameWidth) : List Emit :=
  if five = true ∧ fw = .four then [.frame (encode p.speedBase .mode5)] else []

/-- What INITIALIZE step 7 sends: REINIT and ACT of the mask (R110, R109). -/
def commitEmits (p : Params) (m : BitVec 4) : List Emit :=
  [.frame (encode p.speedBase (.reinit (m.toNat : Int))), .frame (encode p.speedBase (.act (m.toNat : Int)))]

/-- The frames and output flushes of INITIALIZE in order, for a set whose mask is `m` (R110). -/
def bringUpEmits (p : Params) (cfgs : List ChannelConfig) (five : Bool) (fw : FrameWidth) (m : BitVec 4) : List Emit :=
  bringUpTo p cfgs m ++ modeEmits p five fw ++ commitEmits p m

/-- GAINC after the configurations have been applied in order (R107, R110). -/
def gainsAfter (cfgs : List ChannelConfig) (t : GainTable) : GainTable :=
  cfgs.foldl (fun t cfg => setGain t cfg.ch (gainCodeOf cfg.gain)) t

/-- From `s`, idle with the operation `o` as the caller's next request, the machine comes to an end of `o` with outcome
`c`, in the state that agrees with `t` on everything but SEQ (IDLE), the requests (`o` taken) and the results
(`c` delivered). -/
def Finishes (o : Op) (s t : State) (c : Completion) : Prop :=
  ∀ rest, s.seq = .idle → s.requests = .op o :: rest →
    ∃ n, Sys2Proof.core.run n s = .next { t with seq := .idle, requests := rest, results := s.results ++ [c] }

end Sys2Proof.Machine
end

