-- ==== Sys2Proof/Certificates/Slice0/Obligations.lean ====
section
/-! DEFINITION. The statements for the provers. Each docstring names the rule of spec/ it formalises. -/

open Sys2Proof Sys2Proof.Machine

/-! ### Encoding -/

/-- R76, R97 (c): under any `SPEED_BASE`, decoding the frame of a well-formed instruction gives it back, with the byte
of the divisor that a FREQLO or FREQHI frame does not carry read as 0 (log 22). -/
def Obligations.DecodeGivesBackEncodedInstruction : Prop :=
  ∀ (base : SpeedBase) (i : Instr), i.wellFormed = true → decode base (encode base i).bytes = .ok i.canonical

/-- R74, R97 (c): what the decoder accepts is the frame of a well-formed canonical instruction (log 22), and of no other
one. -/
def Obligations.DecoderAcceptsOnlyFramesOfTheMap : Prop :=
  ∀ (base : SpeedBase) (bs : List Byte) (i : Instr), decode base bs = .ok i →
    i.wellFormed = true ∧ i.canonical = i ∧ (encode base i).bytes = bs ∧
    ∀ j : Instr, j.wellFormed = true → j.canonical = j → (encode base j).bytes = bs → j = i

/-- R74, with `SPEED_BASE` as written (log 10): byte3 unassigned, a channel-bit that is not one-hot, a byte1 or byte2
above 0x0F other than the guards, an INTYPE code above 3, a GAINCAL operand above 7: no instruction. Under any other
base, byte3 is unassigned where neither the map nor the base gives it an instruction, and a speed opcode without both
guards is none. -/
def Obligations.FramesOutsideTheMapAreRefused : Prop :=
  (∀ b1 b2 b3 : Byte,
    ((b3.toNat ≤ 0x0D ∨ (0x14 ≤ b3.toNat ∧ b3.toNat ≤ 0x7F) ∨ (0xE0 ≤ b3.toNat ∧ b3.toNat ≤ 0xEF) ∨
        b3.toNat = 0xF4 ∨ (0xF8 ≤ b3.toNat ∧ b3.toNat ≤ 0xFE)) ∨
      ((0x90 ≤ b3.toNat ∧ b3.toNat ≤ 0xCF) ∧
        b3.toNat % 16 ≠ 1 ∧ b3.toNat % 16 ≠ 2 ∧ b3.toNat % 16 ≠ 4 ∧ b3.toNat % 16 ≠ 8) ∨
      ((0x0F < b1.toNat ∧ b1.toNat ≠ 0x5A) ∨ (0x0F < b2.toNat ∧ b2.toNat ≠ 0x5A)) ∨
      ((0x90 ≤ b3.toNat ∧ b3.toNat ≤ 0x9F) ∧ 3 < b2.toNat) ∨
      ((0xC0 ≤ b3.toNat ∧ b3.toNat ≤ 0xCF) ∧ (7 < b1.toNat ∨ 7 < b2.toNat))) →
    ∀ i : Instr, decode Config.speedBaseDefault [b1, b2, b3] ≠ .ok i) ∧
  (∀ (base : SpeedBase) (b1 b2 b3 : Byte),
    (b3.toNat ≤ 0x7F ∨ (0xE0 ≤ b3.toNat ∧ b3.toNat ≤ 0xEF) ∨ b3.toNat = 0xF4 ∨
      (0xF8 ≤ b3.toNat ∧ b3.toNat ≤ 0xFE)) →
    (¬(base.val ≤ b3.toNat ∧ b3.toNat ≤ base.val + 5) ∨ b1.toNat ≠ 0x5A ∨ b2.toNat ≠ 0x5A) →
    ∀ i : Instr, decode base [b1, b2, b3] ≠ .ok i)

/-- R61, R62: frames of V1, written out from the formats, decode to the instruction they stand for (the SPEED frame
with `SPEED_BASE` as written, log 10, and with another base). -/
def Obligations.WrittenOutFramesDecode : Prop :=
  decode Config.speedBaseDefault [0x00, 0x00, 0x85] = .ok (.act 5) ∧
  decode Config.speedBaseDefault [0x00, 0x02, 0x94] = .ok (.intype 3 2) ∧
  decode Config.speedBaseDefault [0x0B, 0x06, 0xB8] = .ok (.freqlo 4 0xB6) ∧
  decode Config.speedBaseDefault [0x00, 0x0A, 0xA8] = .ok (.freqhi 4 0xA00) ∧
  decode Config.speedBaseDefault [0x03, 0x05, 0xC2] = .ok (.gaincal 2 3 5) ∧
  decode Config.speedBaseDefault [0x5A, 0x5A, 0x13] = .ok .speed5 ∧
  decode 0xE0 [0x5A, 0x5A, 0xE3] = .ok .speed3 ∧
  decode Config.speedBaseDefault [0x0A, 0x07, 0xF3] = .ok (.eewr 0xA7) ∧
  decode Config.speedBaseDefault [0x00, 0x00, 0xFF] = .ok .stop

/-! ### The frame-level instructions -/

/-- R82. -/
def Obligations.ActSendsItsMask : Prop :=
  ∀ m : Int, FrameLaw (.act m) (if 0 ≤ m ∧ m ≤ 15 then none else some (.invalidParameter .mask))
    (frameOfInts 0 0 (0x80 + m))

/-- R83. -/
def Obligations.ReinitSendsItsMask : Prop :=
  ∀ m : Int, FrameLaw (.reinit m) (if 0 ≤ m ∧ m ≤ 15 then none else some (.invalidParameter .mask))
    (frameOfInts 0 0 (0xD0 + m))

/-- R84. -/
def Obligations.IntypeSendsItsCode : Prop :=
  ∀ ch t : Int, FrameLaw (.intype ch t)
    (if ¬(1 ≤ ch ∧ ch ≤ 4) then some (.invalidParameter .channel)
     else if ¬(0 ≤ t ∧ t ≤ 3) then some (.invalidParameter .inputType) else none)
    (frameOfInts 0 t (0x90 + channelBitTable ch))

/-- R85: mb = c & 0xFF, high nibble then low nibble. -/
def Obligations.FreqloSendsLowByte : Prop :=
  ∀ ch c : Int, FrameLaw (.freqlo ch c)
    (if ¬(1 ≤ ch ∧ ch ≤ 4) then some (.invalidParameter .channel)
     else if ¬(0 ≤ c ∧ c ≤ 65535) then some (.invalidParameter .divisor) else none)
    (frameOfInts (c % 256 / 16) (c % 16) (0xB0 + channelBitTable ch))

/-- R86: sb = (c >> 8) & 0xFF, high nibble then low nibble. -/
def Obligations.FreqhiSendsHighByte : Prop :=
  ∀ ch c : Int, FrameLaw (.freqhi ch c)
    (if ¬(1 ≤ ch ∧ ch ≤ 4) then some (.invalidParameter .channel)
     else if ¬(0 ≤ c ∧ c ≤ 65535) then some (.invalidParameter .divisor) else none)
    (frameOfInts (c / 4096) (c / 256 % 16) (0xA0 + channelBitTable ch))

/-- R87. -/
def Obligations.GaincalSendsItsCodes : Prop :=
  ∀ ch k g : Int, FrameLaw (.gaincal ch k g)
    (if ¬(1 ≤ ch ∧ ch ≤ 4) then some (.invalidParameter .channel)
     else if ¬(0 ≤ k ∧ k ≤ 7) then some (.invalidParameter .calibration)
     else if ¬(0 ≤ g ∧ g ≤ 7) then some (.invalidParameter .gain) else none)
    (frameOfInts k g (0xC0 + channelBitTable ch))

/-- R88, R89, R90, R91, R92, R94: the six fixed frames. -/
def Obligations.FixedFramesAreSent : Prop :=
  FrameLaw .tmrrst none (frameOfInts 0 0 0xF0) ∧ FrameLaw .stop none (frameOfInts 0 0 0xFF) ∧
  FrameLaw .query none (frameOfInts 0 0 0xF5) ∧ FrameLaw .mode5 none (frameOfInts 0 0 0xF6) ∧
  FrameLaw .mode4 none (frameOfInts 0 0 0xF7) ∧ FrameLaw .eerd none (frameOfInts 0 0 0xF1)

/-- R93 (`EEADDR a`) and R95 (`EEWR v`): high nibble, low nibble, opcode. -/
def Obligations.EepromFramesSendNibbles : Prop :=
  ∀ v : Int,
    FrameLaw (.eeaddr v) (if 0 ≤ v ∧ v ≤ 255 then none else some (.invalidParameter .eeByte))
      (frameOfInts (v / 16) (v % 16) 0xF2) ∧
    FrameLaw (.eewr v) (if 0 ≤ v ∧ v ≤ 255 then none else some (.invalidParameter .eeByte))
      (frameOfInts (v / 16) (v % 16) 0xF3)

/-- R96 for whatever value the run gives `SPEED_BASE`, 0x0E as written (C4, D7; log 10): the six frames, and the
request `SPEED i` for any index (log 9). -/
def Obligations.SpeedSendsGuardedIndex : Prop :=
  Config.speedBaseDefault.val = 0x0E ∧ State.reset.params.speedBase = Config.speedBaseDefault ∧
  ∀ s : State,
    FrameEnds .speed0 none (frameOfInts 0x5A 0x5A (s.params.speedBase.val + 0)) s ∧
    FrameEnds .speed1 none (frameOfInts 0x5A 0x5A (s.params.speedBase.val + 1)) s ∧
    FrameEnds .speed2 none (frameOfInts 0x5A 0x5A (s.params.speedBase.val + 2)) s ∧
    FrameEnds .speed3 none (frameOfInts 0x5A 0x5A (s.params.speedBase.val + 3)) s ∧
    FrameEnds .speed4 none (frameOfInts 0x5A 0x5A (s.params.speedBase.val + 4)) s ∧
    FrameEnds .speed5 none (frameOfInts 0x5A 0x5A (s.params.speedBase.val + 5)) s ∧
    (s.isOpen = true → ∀ i : Int,
      (¬(0 ≤ i ∧ i ≤ 5) → Finishes (.speed i) s s (.raised (.invalidParameter .speed))) ∧
      (0 ≤ i → i ≤ 5 →
        (accepts [.frame (frameOfInts 0x5A 0x5A (s.params.speedBase.val + i))] s →
          Finishes (.speed i) s (s.sent (frameOfInts 0x5A 0x5A (s.params.speedBase.val + i))) (.done .empty)) ∧
        (∀ e u, EmitsFail [.frame (frameOfInts 0x5A 0x5A (s.params.speedBase.val + i))] s e u →
          Finishes (.speed i) s u (.raised e))))

/-- Every instruction completes: in an open block, with legal operands and a Transport that accepts, `exec` sends the
frame of the syntax table R76, the operation is done, and nothing else changes. -/
def Obligations.EveryInstructionSendsItsEncoding : Prop :=
  ∀ (i : Instr) (s : State), s.isOpen = true → i.wellFormed = true →
    accepts [.frame (encode s.params.speedBase i)] s →
    exec i s = .next
      { s.sent (encode s.params.speedBase i) with seq := .idle, results := s.results ++ [.done .empty] }

/-- The frame of every instruction (R97, R182): `exec` always answers a next state, with SEQ idle and one outcome
delivered; no register, no parameter and no request changes; either nothing was written and the input buffer is
untouched, or the trace grew by one write of the instruction's own frame, then at most its flush and its settle. -/
def Obligations.InstructionChangesOnlyTheStreams : Prop :=
  ∀ (i : Instr) (s : State), ∃ t, exec i s = .next t ∧
    t.registers = s.registers ∧ t.params = s.params ∧ t.requests = s.requests ∧ t.seq = .idle ∧
    (∃ c, t.results = s.results ++ [c]) ∧
    ((t.trace = s.trace ∧ t.rx = s.rx ∧ t.answers = s.answers ∧ t.draws = s.draws) ∨
     (s.isOpen = true ∧ i.wellFormed = true ∧
      ((∃ count, t.trace = s.trace ++ [.tx (encode s.params.speedBase i) count]) ∨
       t.trace = s.trace ++ [.tx (encode s.params.speedBase i) (some 3), .flushIn false] ∨
       (t.trace = s.trace ++ [.tx (encode s.params.speedBase i) (some 3), .flushIn true, .settle] ∧ t.rx = []))))

/-! ### The primitives, SEQ and exceptions -/

/-- R80: the four ends of SEND and what each leaves in the trace. -/
def Obligations.SendWritesFlushesSettles : Prop :=
  ∀ (f : Frame) (s : State),
    (s.answer.ok = true → s.answer.count = 3 → s.draw.answer.ok = true →
      ∃ t, sendFrame f s = .ok () t ∧ t.trace = s.trace ++ [.tx f (some 3), .flushIn true, .settle] ∧
        t.registers = s.registers ∧ t.rx = []) ∧
    (s.answer.ok = false →
      ∃ t, sendFrame f s = .raised (.transportError .write) t ∧ t.trace = s.trace ++ [.tx f none] ∧
        t.registers = s.registers) ∧
    (s.answer.ok = true → s.answer.count ≠ 3 →
      ∃ t, sendFrame f s = .raised (.transportError .shortWrite) t ∧
        t.trace = s.trace ++ [.tx f (some s.answer.count)] ∧ t.registers = s.registers) ∧
    (s.answer.ok = true → s.answer.count = 3 → s.draw.answer.ok = false →
      ∃ t, sendFrame f s = .raised (.transportError .flush) t ∧
        t.trace = s.trace ++ [.tx f (some 3), .flushIn false] ∧ t.registers = s.registers)

/-- R42: a read returns at most n bytes, from the head of the input buffer, and removes exactly those; a failing read
raises. -/
def Obligations.ReadTakesFromTheHead : Prop :=
  ∀ (n : Nat) (s : State),
    (s.answer.ok = true → ∃ bs t, memRead n s = .ok bs t ∧ bs.length ≤ n ∧ bs ++ t.rx = s.draw.rx ∧
      t.trace = s.trace ++ [.rx n (some bs)] ∧ t.registers = s.registers) ∧
    (s.answer.ok = false → ∃ t, memRead n s = .raised (.transportError .read) t ∧
      t.trace = s.trace ++ [.rx n none] ∧ t.registers = s.registers)

/-- R51 (a), R57: after a SEND the input buffer is empty, so a read right after it returns only bytes that arrived
after the flush. -/
def Obligations.ReadAfterSendSeesOnlyLaterBytes : Prop :=
  ∀ (f : Frame) (s t : State) (n : Nat) (bs : List Byte) (u : State),
    sendFrame f s = .ok () t → memRead n t = .ok bs u → bs <+: t.answer.arrived

/-- R182, R116: an exception raised anywhere but in the `try` of CLOSE ends the operation: SEQ idle, the outcome
delivered, nothing else changed. In that `try` (CLOSE line 3) a TransportError is kept and SEQ goes on at line 4. -/
def Obligations.ExceptionEndsOperation : Prop :=
  ∀ (s : State) (p : Position) (e : Exc),
    ((p.op ≠ .close ∨ p.place.line ≠ 3 ∨ ∀ k, e ≠ .transportError k) →
      s.raiseExc p e = { s with seq := .idle, results := s.results ++ [.raised e] }) ∧
    (p.op = .close → p.place.line = 3 → ∀ k, e = .transportError k →
      s.raiseExc p e = { s with seq := .running { p with err := some e, place := ⟨4, 0, 0⟩ } })

/-- R26, R11: from a step of an operation, with the steps `after` it, SEQ advances past `k` of them to the next, and
where none is left the operation is done; a loop sets it back to the first step of a line. -/
def Obligations.SeqAdvancesOrEnds : Prop :=
  ∀ (s : State) (p : Position) (earlier after : List (Place × SeqStep)) (st : SeqStep),
    program s.params p.op = earlier ++ (p.place, st) :: after →
    p.current s.params = some st ∧
    (∀ k place st' later, after.drop k = (place, st') :: later →
      s.advance p k = { s with seq := .running { p with place := place } }) ∧
    (∀ k, after.length ≤ k → s.advance p k = { s with seq := .idle, results := s.results ++ [.done .empty] }) ∧
    (∀ before' place st' later, program s.params p.op = before' ++ (place, st') :: later →
      (∀ x ∈ before', x.1.line ≠ place.line) →
      s.jump p place.line = { s with seq := .running { p with place := place } })

/-- A step runs the decoded instruction (R5, R50, R100). With SEQ idle, a 24-bit word as the next request is run whole,
and one that is no row of the map is refused by name (U6). With SEQ at a step, `step` is that step's primitive and its
move of SEQ. A frame-level instruction issued with its operands comes, primitive by primitive, to the state `exec`
gives it. Called inside a line of an operation it comes to the state after its SEND, with SEQ past it. -/
def Obligations.StepRunsTheInstruction : Prop :=
  (∀ (s : State) (w : BitVec 24) (rest : List Request) (i : Instr), s.seq = .idle → s.requests = .word w :: rest →
    decode s.params.speedBase (frameOfWord w.toNat).bytes = .ok i → step s = exec i { s with requests := rest }) ∧
  (∀ (s : State) (w : BitVec 24) (rest : List Request), s.seq = .idle → s.requests = .word w :: rest →
    (∀ i, decode s.params.speedBase (frameOfWord w.toNat).bytes ≠ .ok i) → step s = .refused (.noInstruction w)) ∧
  (∀ (s : State) (p : Position) (st : SeqStep), s.seq = .running p → p.current s.params = some st →
    step s = .next (primitive st p s).conclude) ∧
  (∀ (s : State) (i : Instr) (rest : List Request), s.seq = .idle → s.requests = .instr i :: rest →
    ∃ n t, exec i { s with requests := rest } = .next t ∧ Sys2Proof.core.run n s = .next t) ∧
  (∀ (s : State) (p : Position) (i : Instr) (later : List SeqStep), s.seq = .running p →
    (p.rest s.params).map (·.2) = callSteps (instrParts s.params.speedBase i) ++ later →
    s.isOpen = true → i.wellFormed = true → accepts [.frame (encode s.params.speedBase i)] s →
    ∃ n, Sys2Proof.core.run n s =
      .next ((s.sent (encode s.params.speedBase i)).resume { p with count := 3 }
        ((p.rest s.params).drop (callSteps (instrParts s.params.speedBase i)).length)))

/-! ### Reset, construction, stop, shutdown -/

/-- R20, R32: before OPEN the block is closed and idle; ACTIVE, FW and GAINC hold the reset values of R20; the run's
parameters other than SPEED_BASE hold the defaults of R6: LineA 0, LineB 1, SelfVoltage 2, TestMode 3, no bound on the
polls. The register values before OPEN, COEF = RAW among them, and the empty input buffer are the model's choices
(log 3, log 5), and so is the form of the parameters (log 11). -/
def Obligations.ResetIsClosedAndIdle : Prop :=
  State.reset.isOpen = false ∧ State.reset.seq = .idle ∧ State.reset.active = 0 ∧ State.reset.fw = .four ∧
  State.reset.gainc = ⟨none, none, none, none⟩ ∧ State.reset.coef = .raw ∧ State.reset.trace = [] ∧
  State.reset.results = [] ∧ State.reset.rx = [] ∧
  State.reset.params.lineACode = 0 ∧ State.reset.params.lineBCode = 1 ∧ State.reset.params.selfVoltageCode = 2 ∧
  State.reset.params.testModeCode = 3 ∧ State.reset.params.eePollMax = none

/-- R101: OPEN writes all five registers when the Transport opens, and none when it does not. -/
def Obligations.OpenConstructsTheBlock : Prop :=
  ∀ (s : State) (port : String) (baud : Option Int) (timeout : Option Rat) (mv : Option Bool),
    (s.isOpen = true → Finishes (.openBlock port baud timeout mv) s s (.raised .alreadyOpen)) ∧
    (s.isOpen = false → s.answer.ok = true →
      Finishes (.openBlock port baud timeout mv) s
        { s.draw.log (.opened port (baud.getD 19200) (timeout.getD 1) true) with
          rx := s.answer.arrived, active := 0, fw := .four, gainc := ⟨none, none, none, none⟩
          coef := if mv = some true then .mv else .raw, isOpen := true }
        (.done .empty)) ∧
    (s.isOpen = false → s.answer.ok = false →
      Finishes (.openBlock port baud timeout mv) s
        (s.draw.log (.opened port (baud.getD 19200) (timeout.getD 1) false)) (.raised .connectionError))

/-- R178: any operation other than OPEN on a closed block raises NotOpen (code 7) before anything else, and so does
every frame-level instruction; OPEN on an open block raises AlreadyOpen (code 8). FORMATSAMPLE is one of the operations
(R25, R77; log 16). -/
def Obligations.NotOpenAndAlreadyOpenComeFirst : Prop :=
  Exc.notOpen.code = 7 ∧ Exc.alreadyOpen.code = 8 ∧
  (∀ (s : State) (o : Op), s.isOpen = false → (∀ port baud timeout mv, o ≠ .openBlock port baud timeout mv) →
    Finishes o s s (.raised .notOpen)) ∧
  (∀ (s : State) (i : Instr), s.isOpen = false → s.seq = .idle →
    exec i s = .next { s with results := s.results ++ [.raised .notOpen] }) ∧
  (∀ (s : State) (port : String) (baud : Option Int) (timeout : Option Rat) (mv : Option Bool), s.isOpen = true →
    Finishes (.openBlock port baud timeout mv) s s (.raised .alreadyOpen))

/-- R102: the stop frame, then the output flush; a failing call of either ends it there with its TransportError. -/
def Obligations.StopSendsFrameThenFlushesOut : Prop :=
  ∀ s : State, s.isOpen = true →
    (accepts stopEmits s → Finishes .stopop s (s.emitAll stopEmits) (.done .empty)) ∧
    (∀ e u, EmitsFail stopEmits s e u → Finishes .stopop s u (.raised e))

/-- R116: whatever the Transport answers, CLOSE ends with OPEN = 0, the other registers as they were, and the close
attempted as the last event. -/
def Obligations.CloseAlwaysReleases : Prop :=
  ∀ (s : State) (rest : List Request), s.isOpen = true → s.seq = .idle → s.requests = .op .close :: rest →
    ∃ n t c ok pre, Sys2Proof.core.run n s = .next t ∧ t.seq = .idle ∧ t.isOpen = false ∧ t.requests = rest ∧
      t.results = s.results ++ [c] ∧ t.active = s.active ∧ t.fw = s.fw ∧ t.coef = s.coef ∧ t.gainc = s.gainc ∧
      t.trace = s.trace ++ pre ++ [.closed ok]

/-- R116, R173: CLOSE reports its first failure: none; the close; or, whether or not the close then succeeds, any
failure of its stop: the write, a short write, the input flush or the output flush. -/
def Obligations.CloseReportsFirstFailure : Prop :=
  ∀ s : State, s.isOpen = true →
    (accepts stopEmits s → (s.emitAll stopEmits).answer.ok = true →
      Finishes .close s { (s.emitAll stopEmits).draw.log (.closed true) with isOpen := false } (.done .empty)) ∧
    (accepts stopEmits s → (s.emitAll stopEmits).answer.ok = false →
      Finishes .close s { (s.emitAll stopEmits).draw.log (.closed false) with isOpen := false }
        (.raised (.transportError .close))) ∧
    (∀ e u, EmitsFail stopEmits s e u →
      Finishes .close s { u.draw.log (.closed u.answer.ok) with isOpen := false } (.raised e))

/-! ### Configuration -/

/-- R103: the new mask holds each given flag and keeps the bits without one; it is written after the stop and before
the activation frame, whatever becomes of that frame. -/
def Obligations.SetActiveWritesMaskBetweenFrames : Prop :=
  ∀ (s : State) (f1 f2 f3 f4 : Option Bool) (m : BitVec 4), s.isOpen = true →
    m.getLsbD 0 = f1.getD (s.active.getLsbD 0) → m.getLsbD 1 = f2.getD (s.active.getLsbD 1) →
    m.getLsbD 2 = f3.getD (s.active.getLsbD 2) → m.getLsbD 3 = f4.getD (s.active.getLsbD 3) →
    (accepts (stopEmits ++ [.frame (frameOfInts 0 0 (0x80 + (m.toNat : Int)))]) s →
      Finishes (.setactive f1 f2 f3 f4) s
        { s.emitAll (stopEmits ++ [.frame (frameOfInts 0 0 (0x80 + (m.toNat : Int)))]) with active := m }
        (.done .empty)) ∧
    (∀ e u, accepts stopEmits s →
      EmitsFail [.frame (frameOfInts 0 0 (0x80 + (m.toNat : Int)))] (s.emitAll stopEmits) e u →
      Finishes (.setactive f1 f2 f3 f4) s { u with active := m } (.raised e)) ∧
    (∀ e u, EmitsFail stopEmits s e u → Finishes (.setactive f1 f2 f3 f4) s u (.raised e))

/-- R109: REINIT ACTIVE, then ACT ACTIVE, and no stop; a failing call ends it there. -/
def Obligations.ReinitializeSendsReinitThenAct : Prop :=
  ∀ (s : State) (es : List Emit), s.isOpen = true →
    es = [.frame (frameOfInts 0 0 (0xD0 + (s.active.toNat : Int))),
          .frame (frameOfInts 0 0 (0x80 + (s.active.toNat : Int)))] →
    (accepts es s → Finishes .reinitialize s (s.emitAll es) (.done .empty)) ∧
    (∀ e u, EmitsFail es s e u → Finishes .reinitialize s u (.raised e))

/-- R104: the low-byte frame, then the high-byte frame of c = 19200 div f; an illegal channel or frequency raises
before any frame; a failing call ends it there, so a failing second frame leaves the first sent. -/
def Obligations.SetFreqSendsLowThenHigh : Prop :=
  ∀ (s : State) (ch : Int) (f : Rat), s.isOpen = true →
    (¬(1 ≤ ch ∧ ch ≤ 4) → Finishes (.setfreq ch f) s s (.raised (.invalidParameter .channel))) ∧
    (1 ≤ ch ∧ ch ≤ 4 → ¬(f.den = 1 ∧ 5 ≤ f ∧ f ≤ 1000) →
      Finishes (.setfreq ch f) s s (.raised (.invalidParameter .frequency))) ∧
    (1 ≤ ch ∧ ch ≤ 4 → ∀ hz : Int, f = hz → 5 ≤ hz → hz ≤ 1000 → ∀ es : List Emit,
      es = [.frame (encode s.params.speedBase (.freqlo ch (19200 / hz))),
            .frame (encode s.params.speedBase (.freqhi ch (19200 / hz)))] →
      (accepts es s → Finishes (.setfreq ch f) s (s.emitAll es) (.done .empty)) ∧
      (∀ e u, EmitsFail es s e u → Finishes (.setfreq ch f) s u (.raised e)))

/-- R105: GAINC[ch] holds the code after its frame has been sent, every other cell is kept, and a failing frame leaves
the table as it was; an illegal channel, calibration or gain, in that order, raises before any frame. -/
def Obligations.SetGainCalWritesGainAfterFrame : Prop :=
  (∀ (s : State) (c : Channel) (k : Int) (g : BitVec 3) (t : GainTable), s.isOpen = true → 0 ≤ k → k ≤ 7 →
    t.get c = some g → (∀ d, d ≠ c → t.get d = s.gainc.get d) →
    (accepts [.frame (frameOfInts k g.toNat (0xC0 + channelBitTable c.number))] s →
      Finishes (.setgaincal c.number k (2 ^ g.toNat)) s
        { s.sent (frameOfInts k g.toNat (0xC0 + channelBitTable c.number)) with gainc := t } (.done .empty)) ∧
    (∀ e u, EmitsFail [.frame (frameOfInts k g.toNat (0xC0 + channelBitTable c.number))] s e u →
      Finishes (.setgaincal c.number k (2 ^ g.toNat)) s u (.raised e))) ∧
  (∀ (s : State) (ch k : Int) (gain : Rat), s.isOpen = true →
    (¬(1 ≤ ch ∧ ch ≤ 4) → Finishes (.setgaincal ch k gain) s s (.raised (.invalidParameter .channel))) ∧
    (1 ≤ ch ∧ ch ≤ 4 → ¬(0 ≤ k ∧ k ≤ 7) →
      Finishes (.setgaincal ch k gain) s s (.raised (.invalidParameter .calibration))) ∧
    (1 ≤ ch ∧ ch ≤ 4 → 0 ≤ k ∧ k ≤ 7 → (∀ g : Nat, g ≤ 7 → gain ≠ 2 ^ g) →
      Finishes (.setgaincal ch k gain) s s (.raised (.invalidParameter .gain))))

/-- R68, R106, R181: INPUT_CODE gives each name the code the run's parameters give it (the defaults are in
ResetIsClosedAndIdle; log 11), a numeric code unchanged, and any other name none. An illegal channel raises before the
source is looked at; the code of the source is sent; no code, or one outside 0..3, raises before any frame. -/
def Obligations.SetInputSendsTheCode : Prop :=
  (∀ p : Params,
    inputCode p .lineA = some p.lineACode ∧ inputCode p .lineB = some p.lineBCode ∧
    inputCode p .selfVoltage = some p.selfVoltageCode ∧ inputCode p .testMode = some p.testModeCode ∧
    (∀ t : Int, inputCode p (.code t) = some t) ∧ (∀ name, inputCode p (.unknownName name) = none)) ∧
  (∀ (s : State) (ch : Int) (src : InputSource), s.isOpen = true →
    (¬(1 ≤ ch ∧ ch ≤ 4) → Finishes (.setinput ch src) s s (.raised (.invalidParameter .channel))) ∧
    (1 ≤ ch ∧ ch ≤ 4 →
      (∀ t : Int, inputCode s.params src = some t → 0 ≤ t → t ≤ 3 →
        (accepts [.frame (frameOfInts 0 t (0x90 + channelBitTable ch))] s →
          Finishes (.setinput ch src) s (s.sent (frameOfInts 0 t (0x90 + channelBitTable ch))) (.done .empty)) ∧
        (∀ e u, EmitsFail [.frame (frameOfInts 0 t (0x90 + channelBitTable ch))] s e u →
          Finishes (.setinput ch src) s u (.raised e))) ∧
      ((∀ t : Int, inputCode s.params src = some t → ¬(0 ≤ t ∧ t ≤ 3)) →
        Finishes (.setinput ch src) s s (.raised (.invalidParameter .inputType)))))

/-- R107, R181: an illegal configuration raises before any frame, for the first of ch, f, cal, gain, src outside its
set; a legal one sends frequency, gain/calibration, input type, in that order, and ACTIVE is not asked; a failing call
ends it there, the gain written exactly where the GAINCAL frame has been sent. -/
def Obligations.ApplyChannelSendsFourFrames : Prop :=
  ∀ (s : State) (cfg : ChannelConfig), s.isOpen = true →
    (∀ field, RefusedConfig s.params cfg field → Finishes (.applych cfg) s s (.raised (.invalidParameter field))) ∧
    (LegalConfig s.params cfg →
      (accepts (configEmits s.params cfg) s →
        Finishes (.applych cfg) s
          { s.emitAll (configEmits s.params cfg) with gainc := setGain s.gainc cfg.ch (gainCodeOf cfg.gain) }
          (.done .empty)) ∧
      (∀ e u, EmitsFail ((configEmits s.params cfg).take 3) s e u → Finishes (.applych cfg) s u (.raised e)) ∧
      (∀ e u, accepts ((configEmits s.params cfg).take 3) s →
        EmitsFail ((configEmits s.params cfg).drop 3) (s.emitAll ((configEmits s.params cfg).take 3)) e u →
        Finishes (.applych cfg) s { u with gainc := setGain s.gainc cfg.ch (gainCodeOf cfg.gain) } (.raised e)))

/-- R108: nothing if the mode is already the wanted one; else the mode frame, then FW; a failing frame keeps FW; any
other width raises. -/
def Obligations.SetByteModeChangesWidthAfterFrame : Prop :=
  ∀ (s : State), s.isOpen = true →
    (∀ w : Int, w ≠ 4 → w ≠ 5 → Finishes (.setbytemode w) s s (.raised (.invalidParameter .frameWidth))) ∧
    (s.fw = .four → Finishes (.setbytemode 4) s s (.done .empty)) ∧
    (s.fw = .five → Finishes (.setbytemode 5) s s (.done .empty)) ∧
    (s.fw = .four → accepts [.frame ⟨0x00, 0x00, 0xF6⟩] s →
      Finishes (.setbytemode 5) s { s.sent ⟨0x00, 0x00, 0xF6⟩ with fw := .five } (.done .empty)) ∧
    (s.fw = .five → accepts [.frame ⟨0x00, 0x00, 0xF7⟩] s →
      Finishes (.setbytemode 4) s { s.sent ⟨0x00, 0x00, 0xF7⟩ with fw := .four } (.done .empty)) ∧
    (∀ e u, s.fw = .four → EmitsFail [.frame ⟨0x00, 0x00, 0xF6⟩] s e u →
      Finishes (.setbytemode 5) s u (.raised e)) ∧
    (∀ e u, s.fw = .five → EmitsFail [.frame ⟨0x00, 0x00, 0xF7⟩] s e u →
      Finishes (.setbytemode 4) s u (.raised e))

/-- R110, R118: the whole bring-up of any legal set, frame for frame, and the registers it leaves. A call that fails on
the way ends it there, with its TransportError, nothing sent after it and every register write made before it: none
up to the ACT frame, where ACTIVE holds the mask; the gain of a configuration from the end of its GAINCAL frame on; FW
from the end of MODE5 on. The clauses follow the emissions in order, each from where the one before ends. -/
def Obligations.InitializeBringsUpInOrder : Prop :=
  ∀ (s : State) (cfgs : List ChannelConfig) (five : Option Bool) (m : BitVec 4), s.isOpen = true →
    (∀ cfg ∈ cfgs, LegalConfig s.params cfg) → (cfgs.map (·.ch)).Nodup →
    (∀ c : Channel, m.getLsbD (c.number - 1) = true ↔ ∃ cfg ∈ cfgs, cfg.ch = c.number) →
    (accepts (bringUpEmits s.params cfgs (five.getD false) s.fw m) s →
      Finishes (.bringUp cfgs five) s
        { s.emitAll (bringUpEmits s.params cfgs (five.getD false) s.fw m) with
          active := m, gainc := gainsAfter cfgs s.gainc, fw := if five.getD false then .five else s.fw }
        (.done .empty)) ∧
    (∀ e u, EmitsFail (stopEmits ++ stopEmits) s e u → Finishes (.bringUp cfgs five) s u (.raised e)) ∧
    (∀ e u, accepts (stopEmits ++ stopEmits) s →
      EmitsFail (.frame (encode s.params.speedBase (.act (m.toNat : Int))) :: stopEmits)
        (s.emitAll (stopEmits ++ stopEmits)) e u →
      Finishes (.bringUp cfgs five) s { u with active := m } (.raised e)) ∧
    (∀ earlier cfg later e u, cfgs = earlier ++ cfg :: later → accepts (bringUpTo s.params earlier m) s →
      EmitsFail ((configEmits s.params cfg).take 3) (s.emitAll (bringUpTo s.params earlier m)) e u →
      Finishes (.bringUp cfgs five) s { u with active := m, gainc := gainsAfter earlier s.gainc } (.raised e)) ∧
    (∀ earlier cfg later e u, cfgs = earlier ++ cfg :: later →
      accepts (bringUpTo s.params earlier m ++ (configEmits s.params cfg).take 3) s →
      EmitsFail ((configEmits s.params cfg).drop 3)
        (s.emitAll (bringUpTo s.params earlier m ++ (configEmits s.params cfg).take 3)) e u →
      Finishes (.bringUp cfgs five) s
        { u with active := m, gainc := gainsAfter (earlier ++ [cfg]) s.gainc } (.raised e)) ∧
    (∀ e u, accepts (bringUpTo s.params cfgs m) s →
      EmitsFail (modeEmits s.params (five.getD false) s.fw) (s.emitAll (bringUpTo s.params cfgs m)) e u →
      Finishes (.bringUp cfgs five) s { u with active := m, gainc := gainsAfter cfgs s.gainc } (.raised e)) ∧
    (∀ e u, accepts (bringUpTo s.params cfgs m ++ modeEmits s.params (five.getD false) s.fw) s →
      EmitsFail (commitEmits s.params m)
        (s.emitAll (bringUpTo s.params cfgs m ++ modeEmits s.params (five.getD false) s.fw)) e u →
      Finishes (.bringUp cfgs five) s
        { u with active := m, gainc := gainsAfter cfgs s.gainc, fw := if five.getD false then .five else s.fw }
        (.raised e))

/-- R110, R171, R181: a set with an illegal configuration raises before any frame, configuration by configuration in
the given order and field by field in the order ch, f, cal, gain, src; one that names a channel twice raises after all
field checks, before any frame. -/
def Obligations.InitializeRefusesIllegalSets : Prop :=
  ∀ (s : State) (cfgs : List ChannelConfig) (five : Option Bool), s.isOpen = true →
    (∀ earlier cfg later field, cfgs = earlier ++ cfg :: later → (∀ c ∈ earlier, LegalConfig s.params c) →
      RefusedConfig s.params cfg field →
      Finishes (.bringUp cfgs five) s s (.raised (.invalidParameter field))) ∧
    ((∀ cfg ∈ cfgs, LegalConfig s.params cfg) → ¬(cfgs.map (·.ch)).Nodup →
      Finishes (.bringUp cfgs five) s s (.raised (.invalidParameter .duplicateChannel)))

/-- R111, R112, R113: the operations of one frame, with the refusals of SETSPEED and EESELECT before it and the
failures of its SEND. -/
def Obligations.SingleFrameOperations : Prop :=
  ∀ s : State, s.isOpen = true →
    ((accepts [.frame ⟨0x00, 0x00, 0xF0⟩] s → Finishes .resettimer s (s.sent ⟨0x00, 0x00, 0xF0⟩) (.done .empty)) ∧
     (∀ e u, EmitsFail [.frame ⟨0x00, 0x00, 0xF0⟩] s e u → Finishes .resettimer s u (.raised e))) ∧
    (∀ baud i : Int, (baud, i) ∈ [(2400, 0), (4800, 1), (9600, 2), (19200, 3), (38400, 4), ((57600 : Int), (5 : Int))] →
      (accepts [.frame (frameOfInts 0x5A 0x5A (s.params.speedBase.val + i))] s →
        Finishes (.setspeed baud) s (s.sent (frameOfInts 0x5A 0x5A (s.params.speedBase.val + i))) (.done .empty)) ∧
      (∀ e u, EmitsFail [.frame (frameOfInts 0x5A 0x5A (s.params.speedBase.val + i))] s e u →
        Finishes (.setspeed baud) s u (.raised e))) ∧
    (∀ baud : Int, baud ∉ [2400, 4800, 9600, 19200, 38400, (57600 : Int)] →
      Finishes (.setspeed baud) s s (.raised (.invalidParameter .speed))) ∧
    (∀ a : Int,
      (¬(0 ≤ a ∧ a ≤ 255) → Finishes (.eeselect a) s s (.raised (.invalidParameter .eeByte))) ∧
      (0 ≤ a → a ≤ 255 →
        (accepts [.frame (frameOfInts (a / 16) (a % 16) 0xF2)] s →
          Finishes (.eeselect a) s (s.sent (frameOfInts (a / 16) (a % 16) 0xF2)) (.done .empty)) ∧
        (∀ e u, EmitsFail [.frame (frameOfInts (a / 16) (a % 16) 0xF2)] s e u →
          Finishes (.eeselect a) s u (.raised e))))

/-! ### EEPROM -/

/-- R114: the frame, one read of two bytes, and the pair as received, or no result on a short read; a failing frame or
a failing read raises. -/
def Obligations.EereadReturnsThePair : Prop :=
  ∀ (s : State), s.isOpen = true →
    (∀ e u, EmitsFail [.frame ⟨0x00, 0x00, 0xF1⟩] s e u → Finishes .eeread s u (.raised e)) ∧
    (accepts [.frame ⟨0x00, 0x00, 0xF1⟩] s →
      ((s.sent ⟨0x00, 0x00, 0xF1⟩).answer.ok = false →
        Finishes .eeread s ((s.sent ⟨0x00, 0x00, 0xF1⟩).draw.log (.rx 2 none)) (.raised (.transportError .read))) ∧
      (∀ bs, (s.sent ⟨0x00, 0x00, 0xF1⟩).answer.ok = true →
        readBytes 2 (s.sent ⟨0x00, 0x00, 0xF1⟩).answer.count (s.sent ⟨0x00, 0x00, 0xF1⟩).draw.rx = bs →
        (∀ b0 b1, bs = [b0, b1] →
          Finishes .eeread s ((s.sent ⟨0x00, 0x00, 0xF1⟩).afterRead 2 bs) (.done (.pair b0 b1))) ∧
        (bs.length ≠ 2 →
          Finishes .eeread s ((s.sent ⟨0x00, 0x00, 0xF1⟩).afterRead 2 bs) (.done .nothing))))

/-- R115: the frame, then polls. Issued: an illegal value or a failing frame raises, a first poll that fails raises, a
first poll that reads the acknowledgement ends it, and any first poll comes to line 4 with what it read and no poll
counted. At line 3, in every state: a failing poll raises, any other goes on to line 4 with what it read. At line 4, in
every state: the acknowledgement ends it; anything else leads back to line 3, for ever and without a counter where no
bound is given (R26), with one poll counted where a bound is given and not reached; a bound that is reached raises
NoAck. -/
def Obligations.EewritePollsUntilAcknowledged : Prop :=
  (∀ (s : State) (v : Int), s.isOpen = true →
    (¬(0 ≤ v ∧ v ≤ 255) → Finishes (.eewrite v) s s (.raised (.invalidParameter .eeByte))) ∧
    (0 ≤ v → v ≤ 255 → ∀ f : Frame, f = frameOfInts (v / 16) (v % 16) 0xF3 →
      (∀ e u, EmitsFail [.frame f] s e u → Finishes (.eewrite v) s u (.raised e)) ∧
      (accepts [.frame f] s →
        ((s.sent f).answer.ok = false →
          Finishes (.eewrite v) s ((s.sent f).draw.log (.rx 1 none)) (.raised (.transportError .read))) ∧
        ((s.sent f).answer.ok = true → readBytes 1 (s.sent f).answer.count (s.sent f).draw.rx = [0xB0] →
          Finishes (.eewrite v) s ((s.sent f).afterRead 1 [0xB0]) (.done .empty)) ∧
        (∀ bs rest, (s.sent f).answer.ok = true → readBytes 1 (s.sent f).answer.count (s.sent f).draw.rx = bs →
          s.seq = .idle → s.requests = .op (.eewrite v) :: rest →
          ∃ n p, Sys2Proof.core.run n s = .next { (s.sent f).afterRead 1 bs with seq := .running p, requests := rest } ∧
            p.op = .eewrite v ∧ p.place = ⟨4, 0, 0⟩ ∧ p.bs = bs ∧ p.polls = 0)))) ∧
  (∀ (s : State) (p : Position) (v : Int), s.seq = .running p → p.op = .eewrite v → p.place = ⟨3, 0, 0⟩ →
    (s.answer.ok = false →
      step s = .next
        { s.draw.log (.rx 1 none) with seq := .idle, results := s.results ++ [.raised (.transportError .read)] }) ∧
    (∀ bs, s.answer.ok = true → readBytes 1 s.answer.count s.draw.rx = bs →
      step s = .next { s.afterRead 1 bs with seq := .running { p with bs := bs, place := ⟨4, 0, 0⟩ } })) ∧
  (∀ (s : State) (p : Position) (v : Int), s.seq = .running p → p.op = .eewrite v → p.place = ⟨4, 0, 0⟩ →
    (p.bs = [0xB0] → step s = .next { s with seq := .idle, results := s.results ++ [.done .empty] }) ∧
    (p.bs ≠ [0xB0] → s.params.eePollMax = none →
      Sys2Proof.core.run 4 s = .next { s with seq := .running { p with place := ⟨3, 0, 0⟩ } }) ∧
    (p.bs ≠ [0xB0] → ∀ m, s.params.eePollMax = some m → p.polls + 1 < m →
      Sys2Proof.core.run 4 s =
        .next { s with seq := .running { p with polls := p.polls + 1, place := ⟨3, 0, 0⟩ } }) ∧
    (p.bs ≠ [0xB0] → ∀ m, s.params.eePollMax = some m → m ≤ p.polls + 1 →
      Sys2Proof.core.run 3 s =
        .next { s with seq := .idle, results := s.results ++ [.raised (.transportError .noAck)] }))

/-! ### The sample decoder -/

/-- R130, R177, R181: the ends of READSAMPLE, in order: the read fails; a short read gives no sample and its bytes are
gone; a channel without gain raises and draws no time; else the sample, with a time drawn after the decode. -/
def Obligations.ReadsampleEndsInOrder : Prop :=
  ∀ (s : State) (bs : List Byte), s.isOpen = true →
    (s.answer.ok = false →
      Finishes .readsample s (s.draw.log (.rx s.fw.bytes none)) (.raised (.transportError .read))) ∧
    (s.answer.ok = true → readBytes s.fw.bytes s.answer.count s.draw.rx = bs →
      (bs.length ≠ s.fw.bytes →
        Finishes .readsample s (s.afterRead s.fw.bytes bs) (.done .nothing)) ∧
      (∀ b0 b1 b2 b3 timer, bs = b0 :: b1 :: b2 :: b3 :: timer → bs.length = s.fw.bytes →
        ∀ c : Channel, c.number = b0.toNat / 16 % 4 + 1 →
          (s.gainc.get c = none →
            Finishes .readsample s (s.afterRead s.fw.bytes bs) (.raised (.gainUnset c))) ∧
          (∀ g, s.gainc.get c = some g →
            Finishes .readsample s
              ((s.afterRead s.fw.bytes bs).draw.log (.now (s.afterRead s.fw.bytes bs).answer.time))
              (.done (.sample
                { time := (s.afterRead s.fw.bytes bs).answer.time
                  ch := c
                  num := ((sampleCode b0 b1 b2 b3 : Int) - 8388608) * (if s.coef = .raw then 1 else 2500)
                  exp := g.toNat + (if s.coef = .raw then 0 else 23)
                  timer := timer.head? })))))

/-- R133: the bytes at 20, 13, 6 and -1, combined by OR; which bit of the frame each bit of the code is, the shared
bits 20, 13 and 6 being the OR of two (R71); the code never exceeds 24 bits; with bit 7 of bytes 1 to 3 clear it is the
concatenation of 4, 7, 7 and 6 bits, byte 3 without its last. -/
def Obligations.CodeBitsAreOred : Prop :=
  ∀ b0 b1 b2 b3 : Byte,
    sampleCode b0 b1 b2 b3 =
      (b0.toNat % 16 * 2 ^ 20 ||| b1.toNat * 2 ^ 13 ||| b2.toNat * 2 ^ 6 ||| b3.toNat / 2) ∧
    sampleCode b0 b1 b2 b3 ≤ 0xFFFFFF ∧
    (∀ k, (sampleCode b0 b1 b2 b3).testBit k =
      ((decide (20 ≤ k ∧ k ≤ 23) && b0.getLsbD (k - 20)) || (decide (13 ≤ k ∧ k ≤ 20) && b1.getLsbD (k - 13)) ||
       (decide (6 ≤ k ∧ k ≤ 13) && b2.getLsbD (k - 6)) || (decide (k ≤ 6) && b3.getLsbD (k + 1)))) ∧
    (b1.toNat < 128 → b2.toNat < 128 → b3.toNat < 128 →
      sampleCode b0 b1 b2 b3 =
        b0.toNat % 16 * 2 ^ 20 + b1.toNat * 2 ^ 13 + b2.toNat * 2 ^ 6 + b3.toNat / 2)

/-- R134: the raw value is the code minus mid-scale; it lies in -2^23..2^23-1, with its ends and its zero at the codes
the source names. The last clause, that it is the code with bit 23 inverted read as two's complement, is the sentence
R134 itself marks [derived]. -/
def Obligations.RawIsOffsetBinary : Prop :=
  ∀ b0 b1 b2 b3 : Byte,
    sampleRaw b0 b1 b2 b3 = (sampleCode b0 b1 b2 b3 : Int) - 8388608 ∧
    -8388608 ≤ sampleRaw b0 b1 b2 b3 ∧ sampleRaw b0 b1 b2 b3 ≤ 8388607 ∧
    (sampleCode b0 b1 b2 b3 = 0x800000 → sampleRaw b0 b1 b2 b3 = 0) ∧
    (sampleCode b0 b1 b2 b3 = 0 → sampleRaw b0 b1 b2 b3 = -0x800000) ∧
    (sampleCode b0 b1 b2 b3 = 0xFFFFFF → sampleRaw b0 b1 b2 b3 = 0x7FFFFF) ∧
    sampleRaw b0 b1 b2 b3 = (BitVec.ofNat 24 (sampleCode b0 b1 b2 b3) ^^^ 0x800000#24).toInt

/-- R140, R141: DECODE depends on neither bits 7 to 6 of byte 0 nor bit 0 of byte 3; the value delivered is the
rational raw * K / 2^(gain code + S), which MV scales by 2500 / 2^23 and one gain code more halves; and two samples are
of the same value exactly where the rationals of their pairs are equal, reduced or not. -/
def Obligations.DecodeValueLaws : Prop :=
  (∀ (b0 b0' b1 b2 b3 b3' : Byte) (timer : Option Byte) (gains : GainTable) (coef : Coef),
    b0.toNat % 64 = b0'.toNat % 64 → b3.toNat / 2 = b3'.toNat / 2 →
    decodeParts b0 b1 b2 b3 timer gains coef = decodeParts b0' b1 b2 b3' timer gains coef) ∧
  (∀ (b0 b1 b2 b3 : Byte) (timer : Option Byte) (gains : GainTable) (c : Channel) (g : BitVec 3) (t : Time),
    c.number = b0.toNat / 16 % 4 + 1 → gains.get c = some g →
    ∃ raw mv : Decoded, decodeParts b0 b1 b2 b3 timer gains .raw = .ok raw ∧
      decodeParts b0 b1 b2 b3 timer gains .mv = .ok mv ∧
      (raw.stamp t).value = (sampleRaw b0 b1 b2 b3 : Rat) / 2 ^ g.toNat ∧
      (mv.stamp t).value = (raw.stamp t).value * 2500 / 2 ^ 23 ∧
      ∀ (gains' : GainTable) (g' : BitVec 3) (coef : Coef) (d d' : Decoded), gains'.get c = some g' →
        g'.toNat = g.toNat + 1 → decodeParts b0 b1 b2 b3 timer gains coef = .ok d →
        decodeParts b0 b1 b2 b3 timer gains' coef = .ok d' → (d'.stamp t).value = (d.stamp t).value / 2) ∧
  (∀ a b : Sample, a.sameValue b = true ↔ a.value = b.value)

/-! ### Frequency, gain and read-back -/

/-- R65: the divisor of a legal frequency is 19200 div f and lies in 19..3840. -/
def Obligations.DivisorOfLegalFrequency : Prop :=
  ∀ (hz : Int), 5 ≤ hz → hz ≤ 1000 →
    divisor (hz : Rat) = 19200 / hz ∧ 19 ≤ divisor (hz : Rat) ∧ divisor (hz : Rat) ≤ 3840

/-- R158 (a), (b): the bytes the two frames carry reassemble to c, a read-back group of them reports c and 19200/c, and
f <= 19200/c with equality iff f divides 19200. -/
def Obligations.FrequencyRoundTrip : Prop :=
  ∀ (base : SpeedBase) (hz : Nat) (c : Nat) (slot : Nat) (third : Byte), 5 ≤ hz → hz ≤ 1000 → c = 19200 / hz →
    (∃ h l hi lo : Byte,
      encode base (.freqlo 1 c) = ⟨h, l, 0xB1⟩ ∧ encode base (.freqhi 1 c) = ⟨hi, lo, 0xA1⟩ ∧
      (hi.toNat * 16 + lo.toNat) * 256 + (h.toNat * 16 + l.toNat) = c) ∧
    (∃ devch cal gcode gain,
      decodeGroup slot (BitVec.ofNat 8 (c / 256)) (BitVec.ofNat 8 (c % 256)) third =
        .report slot c 19200 c devch cal gcode gain) ∧
    hz * c ≤ 19200 ∧ (hz * c = 19200 ↔ hz ∣ 19200) ∧ 19200 * (19200 - hz) < 19200 * hz * c

/-- R66: the gain code is log2 of the gain, for the eight gains and no other. -/
def Obligations.GainCodeIsLogTwo : Prop :=
  (∀ g : BitVec 3, gaincode (2 ^ g.toNat) = some g ∧ gainFromCode g.toNat = 2 ^ g.toNat) ∧
  (∀ (gain : Rat) (g : BitVec 3), gaincode gain = some g → gain = 2 ^ g.toNat)

/-- R151: length first, then marker; a record with the right marker is accepted whatever follows. -/
def Obligations.RecordCheckedLengthThenMarker : Prop :=
  ∀ bs : List Byte,
    (bs.length ≠ 14 → checkRecord bs = some (.malformedReadback .length)) ∧
    (bs.length = 14 → ¬[0xEE, 0xEA] <+: bs → checkRecord bs = some (.malformedReadback .marker)) ∧
    (bs.length = 14 → [0xEE, 0xEA] <+: bs → checkRecord bs = none)

/-- R152, R153, R154: a group decodes by its formula, or is a slot error exactly where the divisor is zero. -/
def Obligations.GroupDecodesByFields : Prop :=
  ∀ (slot : Nat) (hi lo third : Byte),
    (hi.toNat * 256 + lo.toNat = 0 → decodeGroup slot hi lo third = .zeroDivisor slot) ∧
    (hi.toNat * 256 + lo.toNat ≠ 0 →
      decodeGroup slot hi lo third =
        .report slot (hi.toNat * 256 + lo.toNat) 19200 (hi.toNat * 256 + lo.toNat)
          (third.toNat / 64) (third.toNat / 8 % 8) (third.toNat % 8) (2 ^ (third.toNat % 8)))

/-- R150, R154, R155: stop, query, one read of 14 bytes; a failing frame, output flush or read raises, a malformed
record raises, else four entries, each decoded on its own. -/
def Obligations.ReadparamsReportsFourSlots : Prop :=
  ∀ (s q : State) (es : List Emit), s.isOpen = true → es = stopEmits ++ [.frame ⟨0x00, 0x00, 0xF5⟩] →
    q = s.emitAll es →
    (∀ e u, EmitsFail es s e u → Finishes .readparams s u (.raised e)) ∧
    (accepts es s →
      (q.answer.ok = false → Finishes .readparams s (q.draw.log (.rx 14 none)) (.raised (.transportError .read))) ∧
      (∀ bs, q.answer.ok = true → readBytes 14 q.answer.count q.draw.rx = bs →
        (∀ e, checkRecord bs = some e → Finishes .readparams s (q.afterRead 14 bs) (.raised e)) ∧
        (∀ h1 l1 t1 h2 l2 t2 h3 l3 t3 h4 l4 t4,
          bs = [0xEE, 0xEA, h1, l1, t1, h2, l2, t2, h3, l3, t3, h4, l4, t4] →
          Finishes .readparams s (q.afterRead 14 bs)
            (.done (.report [decodeGroup 1 h1 l1 t1, decodeGroup 2 h2 l2 t2, decodeGroup 3 h3 l3 t3,
              decodeGroup 4 h4 l4 t4])))))

/-- R155, R157: the self-test never passes a read-back with a slot error, and passes one without exactly where the lines
are the expected ones. -/
def Obligations.SelftestComparesWholeText : Prop :=
  ∀ (slots : List SlotEntry) (expected : List String),
    ((∃ slot, .zeroDivisor slot ∈ slots) →
      compareSlots expected slots = .fail expected (slots.map slotLine)) ∧
    ((∀ slot, .zeroDivisor slot ∉ slots) →
      (slots.map slotLine = expected → compareSlots expected slots = .pass) ∧
      (slots.map slotLine ≠ expected → compareSlots expected slots = .fail expected (slots.map slotLine)))

/-- R157, R142: SELFTEST sends the frames of READPARAMS and ends as it does where a frame, an output flush or the read
fails or the record is malformed, else with the comparison of the four slots; FORMATSAMPLE ends with the line and
touches nothing, and is refused on a closed block. That the compared text is a list of lines and that FORMATSAMPLE asks
for OPEN are the model's readings (log 18, log 16). -/
def Obligations.SelftestAndFormatsampleEnd : Prop :=
  (∀ (s q : State) (es : List Emit) (expected : List String), s.isOpen = true →
    es = stopEmits ++ [.frame ⟨0x00, 0x00, 0xF5⟩] → q = s.emitAll es →
    (∀ e u, EmitsFail es s e u → Finishes (.selftest expected) s u (.raised e)) ∧
    (accepts es s →
      (q.answer.ok = false →
        Finishes (.selftest expected) s (q.draw.log (.rx 14 none)) (.raised (.transportError .read))) ∧
      (∀ bs, q.answer.ok = true → readBytes 14 q.answer.count q.draw.rx = bs →
        (∀ e, checkRecord bs = some e → Finishes (.selftest expected) s (q.afterRead 14 bs) (.raised e)) ∧
        (checkRecord bs = none →
          Finishes (.selftest expected) s (q.afterRead 14 bs) (.done (compareSlots expected (recordSlots bs))))))) ∧
  (∀ (s : State) (smp : Sample),
    (s.isOpen = true → Finishes (.formatsample smp) s s (.done (.text (sampleLine smp)))) ∧
    (s.isOpen = false → Finishes (.formatsample smp) s s (.raised .notOpen)))

/-! ### What every step keeps -/

/-- R26: SEQ stays at a step of its operation. -/
def Obligations.StepKeepsSeqInList : Prop :=
  ∀ s t : State, SeqInList s → step s = .next t → SeqInList t

/-- R50 (O4), R51, R80: every accepted write is followed at once by its flush and, where that succeeds, by its settle,
and SEQ stands where the trace says. -/
def Obligations.StepKeepsPacing : Prop :=
  ∀ s t : State, PacedWithSeq s → step s = .next t → PacedWithSeq t

/-- R74: the block never sends a frame that is not a row of the map with operands in range. -/
def Obligations.StepKeepsFramesInMap : Prop :=
  ∀ s t : State, OperandsChecked s → FramesInMap s.params.speedBase s.trace → step s = .next t →
    FramesInMap t.params.speedBase t.trace

/-- R25, R101, R116: OPEN agrees with where SEQ is. -/
def Obligations.StepKeepsOpenAgreement : Prop :=
  ∀ s t : State, OpenAgreesWithSeq s → step s = .next t → OpenAgreesWithSeq t

/-- R81, R100, R116, R171: a step keeps that every operand check before SEQ has passed, and keeps that an exception CLOSE
has kept is a TransportError; and where both hold a step that raises InvalidParameter has only tests before it, so that
end leaves no event and no register written. -/
def Obligations.StepKeepsOperandsChecked : Prop :=
  (∀ s t : State, OperandsChecked s → step s = .next t → OperandsChecked t) ∧
  (∀ s t : State, KeptIsTransportError s → step s = .next t → KeptIsTransportError t) ∧
  (∀ s t : State, OperandsChecked s → KeptIsTransportError s → step s = .next t →
    ∀ p field, s.seq = .running p → t.results = s.results ++ [.raised (.invalidParameter field)] →
      ∀ x ∈ p.before s.params, x.2.isTest = true)

/-- The invariants hold at reset. -/
def Obligations.ResetMeetsTheInvariants : Prop :=
  SeqInList State.reset ∧ PacedWithSeq State.reset ∧ FramesInMap State.reset.params.speedBase State.reset.trace ∧
  OpenAgreesWithSeq State.reset ∧ OperandsChecked State.reset ∧ KeptIsTransportError State.reset

/-- R31: each register is written only inside the operations the write matrix names. -/
def Obligations.RegistersWrittenOnlyByTheirOperations : Prop :=
  ∀ s t : State, step s = .next t →
    (t.active ≠ s.active → ∃ o, s.currentOp = some o ∧ o.writesActive = true) ∧
    (t.fw ≠ s.fw → ∃ o, s.currentOp = some o ∧ o.writesFw = true) ∧
    (t.coef ≠ s.coef → ∃ o, s.currentOp = some o ∧ o.writesCoef = true) ∧
    (t.gainc ≠ s.gainc → ∃ o, s.currentOp = some o ∧ o.writesGainc = true) ∧
    (t.isOpen ≠ s.isOpen → ∃ o, s.currentOp = some o ∧ o.writesOpen = true)

/-- R10, R49: the trace and the results only grow, by appending, and the parameters never change. -/
def Obligations.StepOnlyAppends : Prop :=
  ∀ s t : State, step s = .next t →
    s.trace <+: t.trace ∧ s.results <+: t.results ∧ t.params = s.params ∧ t.requests <:+ s.requests

/-- No instruction and no operation stops the machine: in a state whose SEQ is at a step of its operation, only an
undecodable word is refused. -/
def Obligations.OnlyUndecodableWordsStop : Prop :=
  ∀ s : State, SeqInList s →
    (∀ w rest, s.seq = .idle → s.requests = .word w :: rest →
      ∃ i, decode s.params.speedBase (frameOfWord w.toNat).bytes = .ok i) →
    ∃ t, step s = .next t
end

