-- ==== Sys2Proof/Laws/State.lean ====
section
/-! SUPPORT. One lemma per field per update of State. -/

namespace Sys2Proof.Machine

/-! ### `s.draw` -/

@[simp] theorem draw_active (s : State) : (s.draw).active = s.active := rfl
@[simp] theorem draw_fw (s : State) : (s.draw).fw = s.fw := rfl
@[simp] theorem draw_coef (s : State) : (s.draw).coef = s.coef := rfl
@[simp] theorem draw_gainc (s : State) : (s.draw).gainc = s.gainc := rfl
@[simp] theorem draw_isOpen (s : State) : (s.draw).isOpen = s.isOpen := rfl
@[simp] theorem draw_seq (s : State) : (s.draw).seq = s.seq := rfl
@[simp] theorem draw_rx (s : State) : (s.draw).rx = s.rx.drop s.answer.lost ++ s.answer.arrived := rfl
@[simp] theorem draw_trace (s : State) : (s.draw).trace = s.trace := rfl
@[simp] theorem draw_results (s : State) : (s.draw).results = s.results := rfl
@[simp] theorem draw_requests (s : State) : (s.draw).requests = s.requests := rfl
@[simp] theorem draw_answers (s : State) : (s.draw).answers = s.answers.tail := rfl
@[simp] theorem draw_draws (s : State) : (s.draw).draws = s.draws + 1 := rfl
@[simp] theorem draw_params (s : State) : (s.draw).params = s.params := rfl
@[simp] theorem draw_registers (s : State) : (s.draw).registers = s.registers := rfl

/-! ### `s.log e` -/

@[simp] theorem log_active (s : State) (e : Event) : (s.log e).active = s.active := rfl
@[simp] theorem log_fw (s : State) (e : Event) : (s.log e).fw = s.fw := rfl
@[simp] theorem log_coef (s : State) (e : Event) : (s.log e).coef = s.coef := rfl
@[simp] theorem log_gainc (s : State) (e : Event) : (s.log e).gainc = s.gainc := rfl
@[simp] theorem log_isOpen (s : State) (e : Event) : (s.log e).isOpen = s.isOpen := rfl
@[simp] theorem log_seq (s : State) (e : Event) : (s.log e).seq = s.seq := rfl
@[simp] theorem log_rx (s : State) (e : Event) : (s.log e).rx = s.rx := rfl
@[simp] theorem log_trace (s : State) (e : Event) : (s.log e).trace = s.trace ++ [e] := rfl
@[simp] theorem log_results (s : State) (e : Event) : (s.log e).results = s.results := rfl
@[simp] theorem log_requests (s : State) (e : Event) : (s.log e).requests = s.requests := rfl
@[simp] theorem log_answers (s : State) (e : Event) : (s.log e).answers = s.answers := rfl
@[simp] theorem log_draws (s : State) (e : Event) : (s.log e).draws = s.draws := rfl
@[simp] theorem log_params (s : State) (e : Event) : (s.log e).params = s.params := rfl
@[simp] theorem log_registers (s : State) (e : Event) : (s.log e).registers = s.registers := rfl

/-! ### `s.deliver c` -/

@[simp] theorem deliver_active (s : State) (c : Completion) : (s.deliver c).active = s.active := rfl
@[simp] theorem deliver_fw (s : State) (c : Completion) : (s.deliver c).fw = s.fw := rfl
@[simp] theorem deliver_coef (s : State) (c : Completion) : (s.deliver c).coef = s.coef := rfl
@[simp] theorem deliver_gainc (s : State) (c : Completion) : (s.deliver c).gainc = s.gainc := rfl
@[simp] theorem deliver_isOpen (s : State) (c : Completion) : (s.deliver c).isOpen = s.isOpen := rfl
@[simp] theorem deliver_seq (s : State) (c : Completion) : (s.deliver c).seq = .idle := rfl
@[simp] theorem deliver_rx (s : State) (c : Completion) : (s.deliver c).rx = s.rx := rfl
@[simp] theorem deliver_trace (s : State) (c : Completion) : (s.deliver c).trace = s.trace := rfl
@[simp] theorem deliver_results (s : State) (c : Completion) : (s.deliver c).results = s.results ++ [c] := rfl
@[simp] theorem deliver_requests (s : State) (c : Completion) : (s.deliver c).requests = s.requests := rfl
@[simp] theorem deliver_answers (s : State) (c : Completion) : (s.deliver c).answers = s.answers := rfl
@[simp] theorem deliver_draws (s : State) (c : Completion) : (s.deliver c).draws = s.draws := rfl
@[simp] theorem deliver_params (s : State) (c : Completion) : (s.deliver c).params = s.params := rfl
@[simp] theorem deliver_registers (s : State) (c : Completion) : (s.deliver c).registers = s.registers := rfl

/-! ### `s.abort e` -/

@[simp] theorem abort_active (s : State) (e : Exc) : (s.abort e).active = s.active := rfl
@[simp] theorem abort_fw (s : State) (e : Exc) : (s.abort e).fw = s.fw := rfl
@[simp] theorem abort_coef (s : State) (e : Exc) : (s.abort e).coef = s.coef := rfl
@[simp] theorem abort_gainc (s : State) (e : Exc) : (s.abort e).gainc = s.gainc := rfl
@[simp] theorem abort_isOpen (s : State) (e : Exc) : (s.abort e).isOpen = s.isOpen := rfl
@[simp] theorem abort_seq (s : State) (e : Exc) : (s.abort e).seq = .idle := rfl
@[simp] theorem abort_rx (s : State) (e : Exc) : (s.abort e).rx = s.rx := rfl
@[simp] theorem abort_trace (s : State) (e : Exc) : (s.abort e).trace = s.trace := rfl
@[simp] theorem abort_results (s : State) (e : Exc) : (s.abort e).results = s.results ++ [.raised e] := rfl
@[simp] theorem abort_requests (s : State) (e : Exc) : (s.abort e).requests = s.requests := rfl
@[simp] theorem abort_answers (s : State) (e : Exc) : (s.abort e).answers = s.answers := rfl
@[simp] theorem abort_draws (s : State) (e : Exc) : (s.abort e).draws = s.draws := rfl
@[simp] theorem abort_params (s : State) (e : Exc) : (s.abort e).params = s.params := rfl
@[simp] theorem abort_registers (s : State) (e : Exc) : (s.abort e).registers = s.registers := rfl

/-! ### `s.sent f` -/

@[simp] theorem sent_active (s : State) (f : Frame) : (s.sent f).active = s.active := rfl
@[simp] theorem sent_fw (s : State) (f : Frame) : (s.sent f).fw = s.fw := rfl
@[simp] theorem sent_coef (s : State) (f : Frame) : (s.sent f).coef = s.coef := rfl
@[simp] theorem sent_gainc (s : State) (f : Frame) : (s.sent f).gainc = s.gainc := rfl
@[simp] theorem sent_isOpen (s : State) (f : Frame) : (s.sent f).isOpen = s.isOpen := rfl
@[simp] theorem sent_seq (s : State) (f : Frame) : (s.sent f).seq = s.seq := rfl
@[simp] theorem sent_rx (s : State) (f : Frame) : (s.sent f).rx = [] := rfl
@[simp] theorem sent_trace (s : State) (f : Frame) : (s.sent f).trace = s.trace ++ [.tx f (some 3), .flushIn true, .settle] := rfl
@[simp] theorem sent_results (s : State) (f : Frame) : (s.sent f).results = s.results := rfl
@[simp] theorem sent_requests (s : State) (f : Frame) : (s.sent f).requests = s.requests := rfl
@[simp] theorem sent_answers (s : State) (f : Frame) : (s.sent f).answers = s.answers.tail.tail := rfl
@[simp] theorem sent_draws (s : State) (f : Frame) : (s.sent f).draws = s.draws + 2 := rfl
@[simp] theorem sent_params (s : State) (f : Frame) : (s.sent f).params = s.params := rfl
@[simp] theorem sent_registers (s : State) (f : Frame) : (s.sent f).registers = s.registers := rfl

/-! ### `resume`, `advance`, `jump`, `raiseExc`: every field but SEQ and the results -/

@[simp] theorem resume_active (s : State) (p : Position) (l : List (Place × SeqStep)) :
    (s.resume p l).active = s.active := by cases l <;> rfl
@[simp] theorem advance_active (s : State) (p : Position) (k : Nat) : (s.advance p k).active = s.active := resume_active ..
@[simp] theorem jump_active (s : State) (p : Position) (l : Nat) : (s.jump p l).active = s.active := resume_active ..
@[simp] theorem raiseExc_active (s : State) (p : Position) (e : Exc) : (s.raiseExc p e).active = s.active := by
  unfold State.raiseExc; split <;> rfl
@[simp] theorem resume_fw (s : State) (p : Position) (l : List (Place × SeqStep)) :
    (s.resume p l).fw = s.fw := by cases l <;> rfl
@[simp] theorem advance_fw (s : State) (p : Position) (k : Nat) : (s.advance p k).fw = s.fw := resume_fw ..
@[simp] theorem jump_fw (s : State) (p : Position) (l : Nat) : (s.jump p l).fw = s.fw := resume_fw ..
@[simp] theorem raiseExc_fw (s : State) (p : Position) (e : Exc) : (s.raiseExc p e).fw = s.fw := by
  unfold State.raiseExc; split <;> rfl
@[simp] theorem resume_coef (s : State) (p : Position) (l : List (Place × SeqStep)) :
    (s.resume p l).coef = s.coef := by cases l <;> rfl
@[simp] theorem advance_coef (s : State) (p : Position) (k : Nat) : (s.advance p k).coef = s.coef := resume_coef ..
@[simp] theorem jump_coef (s : State) (p : Position) (l : Nat) : (s.jump p l).coef = s.coef := resume_coef ..
@[simp] theorem raiseExc_coef (s : State) (p : Position) (e : Exc) : (s.raiseExc p e).coef = s.coef := by
  unfold State.raiseExc; split <;> rfl
@[simp] theorem resume_gainc (s : State) (p : Position) (l : List (Place × SeqStep)) :
    (s.resume p l).gainc = s.gainc := by cases l <;> rfl
@[simp] theorem advance_gainc (s : State) (p : Position) (k : Nat) : (s.advance p k).gainc = s.gainc := resume_gainc ..
@[simp] theorem jump_gainc (s : State) (p : Position) (l : Nat) : (s.jump p l).gainc = s.gainc := resume_gainc ..
@[simp] theorem raiseExc_gainc (s : State) (p : Position) (e : Exc) : (s.raiseExc p e).gainc = s.gainc := by
  unfold State.raiseExc; split <;> rfl
@[simp] theorem resume_isOpen (s : State) (p : Position) (l : List (Place × SeqStep)) :
    (s.resume p l).isOpen = s.isOpen := by cases l <;> rfl
@[simp] theorem advance_isOpen (s : State) (p : Position) (k : Nat) : (s.advance p k).isOpen = s.isOpen := resume_isOpen ..
@[simp] theorem jump_isOpen (s : State) (p : Position) (l : Nat) : (s.jump p l).isOpen = s.isOpen := resume_isOpen ..
@[simp] theorem raiseExc_isOpen (s : State) (p : Position) (e : Exc) : (s.raiseExc p e).isOpen = s.isOpen := by
  unfold State.raiseExc; split <;> rfl
@[simp] theorem resume_rx (s : State) (p : Position) (l : List (Place × SeqStep)) :
    (s.resume p l).rx = s.rx := by cases l <;> rfl
@[simp] theorem advance_rx (s : State) (p : Position) (k : Nat) : (s.advance p k).rx = s.rx := resume_rx ..
@[simp] theorem jump_rx (s : State) (p : Position) (l : Nat) : (s.jump p l).rx = s.rx := resume_rx ..
@[simp] theorem raiseExc_rx (s : State) (p : Position) (e : Exc) : (s.raiseExc p e).rx = s.rx := by
  unfold State.raiseExc; split <;> rfl
@[simp] theorem resume_trace (s : State) (p : Position) (l : List (Place × SeqStep)) :
    (s.resume p l).trace = s.trace := by cases l <;> rfl
@[simp] theorem advance_trace (s : State) (p : Position) (k : Nat) : (s.advance p k).trace = s.trace := resume_trace ..
@[simp] theorem jump_trace (s : State) (p : Position) (l : Nat) : (s.jump p l).trace = s.trace := resume_trace ..
@[simp] theorem raiseExc_trace (s : State) (p : Position) (e : Exc) : (s.raiseExc p e).trace = s.trace := by
  unfold State.raiseExc; split <;> rfl
@[simp] theorem resume_requests (s : State) (p : Position) (l : List (Place × SeqStep)) :
    (s.resume p l).requests = s.requests := by cases l <;> rfl
@[simp] theorem advance_requests (s : State) (p : Position) (k : Nat) : (s.advance p k).requests = s.requests := resume_requests ..
@[simp] theorem jump_requests (s : State) (p : Position) (l : Nat) : (s.jump p l).requests = s.requests := resume_requests ..
@[simp] theorem raiseExc_requests (s : State) (p : Position) (e : Exc) : (s.raiseExc p e).requests = s.requests := by
  unfold State.raiseExc; split <;> rfl
@[simp] theorem resume_answers (s : State) (p : Position) (l : List (Place × SeqStep)) :
    (s.resume p l).answers = s.answers := by cases l <;> rfl
@[simp] theorem advance_answers (s : State) (p : Position) (k : Nat) : (s.advance p k).answers = s.answers := resume_answers ..
@[simp] theorem jump_answers (s : State) (p : Position) (l : Nat) : (s.jump p l).answers = s.answers := resume_answers ..
@[simp] theorem raiseExc_answers (s : State) (p : Position) (e : Exc) : (s.raiseExc p e).answers = s.answers := by
  unfold State.raiseExc; split <;> rfl
@[simp] theorem resume_draws (s : State) (p : Position) (l : List (Place × SeqStep)) :
    (s.resume p l).draws = s.draws := by cases l <;> rfl
@[simp] theorem advance_draws (s : State) (p : Position) (k : Nat) : (s.advance p k).draws = s.draws := resume_draws ..
@[simp] theorem jump_draws (s : State) (p : Position) (l : Nat) : (s.jump p l).draws = s.draws := resume_draws ..
@[simp] theorem raiseExc_draws (s : State) (p : Position) (e : Exc) : (s.raiseExc p e).draws = s.draws := by
  unfold State.raiseExc; split <;> rfl
@[simp] theorem resume_params (s : State) (p : Position) (l : List (Place × SeqStep)) :
    (s.resume p l).params = s.params := by cases l <;> rfl
@[simp] theorem advance_params (s : State) (p : Position) (k : Nat) : (s.advance p k).params = s.params := resume_params ..
@[simp] theorem jump_params (s : State) (p : Position) (l : Nat) : (s.jump p l).params = s.params := resume_params ..
@[simp] theorem raiseExc_params (s : State) (p : Position) (e : Exc) : (s.raiseExc p e).params = s.params := by
  unfold State.raiseExc; split <;> rfl
@[simp] theorem resume_registers (s : State) (p : Position) (l : List (Place × SeqStep)) :
    (s.resume p l).registers = s.registers := by cases l <;> rfl
@[simp] theorem advance_registers (s : State) (p : Position) (k : Nat) : (s.advance p k).registers = s.registers :=
  resume_registers ..
@[simp] theorem jump_registers (s : State) (p : Position) (l : Nat) : (s.jump p l).registers = s.registers :=
  resume_registers ..
@[simp] theorem raiseExc_registers (s : State) (p : Position) (e : Exc) : (s.raiseExc p e).registers = s.registers := by
  unfold State.raiseExc; split <;> rfl

/-! ### The answer drawn next -/

@[simp] theorem log_answer (s : State) (e : Event) : (s.log e).answer = s.answer := rfl
@[simp] theorem deliver_answer (s : State) (c : Completion) : (s.deliver c).answer = s.answer := rfl
@[simp] theorem log_draw (s : State) (e : Event) : (s.log e).draw = s.draw.log e := rfl

theorem answer_congr {s t : State} (ha : s.answers = t.answers) (hd : s.draws = t.draws) : s.answer = t.answer := by
  unfold State.answer; rw [ha, hd]

/-- With the next answer listed, the draw takes it. -/
theorem answer_of_cons {s : State} {a : Answer} {as : List Answer} (h : s.answers = a :: as) : s.answer = a := by
  unfold State.answer; rw [h]

/-! ### Where SEQ can be afterwards -/

@[simp] theorem resume_cons (s : State) (p : Position) (place : Place) (st : SeqStep) (l : List (Place × SeqStep)) :
    s.resume p ((place, st) :: l) = { s with seq := .running { p with place := place } } := rfl
@[simp] theorem resume_nil (s : State) (p : Position) : s.resume p [] = s.deliver (.done .empty) := rfl

/-- SEQ resumes at one of the steps left, or the operation is done. -/
theorem resume_cases (s : State) (p : Position) (l : List (Place × SeqStep)) :
    (l = [] ∧ s.resume p l = s.deliver (.done .empty)) ∨
    ∃ place st later, l = (place, st) :: later ∧
      s.resume p l = { s with seq := .running { p with place := place } } := by
  cases l with
  | nil => exact .inl ⟨rfl, rfl⟩
  | cons x l => exact .inr ⟨x.1, x.2, l, rfl, rfl⟩

theorem raiseExc_uncaught {s : State} {p : Position} {e : Exc} (hc : p.catches e = false) :
    s.raiseExc p e = s.abort e := by
  unfold State.raiseExc; simp [hc]

theorem raiseExc_caught {s : State} {p : Position} {e : Exc} (hc : p.catches e = true) :
    s.raiseExc p e = { s with seq := .running { p with err := some e, place := ⟨4, 0, 0⟩ } } := by
  unfold State.raiseExc; simp [hc]

/-- Only line 3 of CLOSE catches, and only a TransportError (R116). -/
theorem catches_iff {p : Position} {e : Exc} :
    p.catches e = true ↔ p.op = .close ∧ p.place.line = 3 ∧ e.isTransportError = true := by
  simp [Position.catches, and_assoc]

/-- What raising can leave: the operation ended with the exception, or CLOSE going on at its line 4 with it kept. -/
theorem raiseExc_cases (s : State) (p : Position) (e : Exc) :
    s.raiseExc p e = s.abort e ∨
    p.op = .close ∧ p.place.line = 3 ∧ e.isTransportError = true ∧
      s.raiseExc p e = { s with seq := .running { p with err := some e, place := ⟨4, 0, 0⟩ } } := by
  cases hc : p.catches e with
  | false => exact .inl (raiseExc_uncaught hc)
  | true =>
    obtain ⟨h1, h2, h3⟩ := catches_iff.mp hc
    exact .inr ⟨h1, h2, h3, raiseExc_caught hc⟩

end Sys2Proof.Machine
end

