-- ==== Sys2Proof/Laws/Ops.lean ====
section
/-! SUPPORT. One lemma per shared operation that says everything it can do; callers cite it instead of unfolding. -/

namespace Sys2Proof.Machine

/-! ### Checks -/

@[simp] theorem firstFailing_nil : firstFailing [] = none := rfl
@[simp] theorem firstFailing_none (cs : List (Option Exc)) : firstFailing (none :: cs) = firstFailing cs := rfl
@[simp] theorem firstFailing_some (e : Exc) (cs : List (Option Exc)) : firstFailing (some e :: cs) = some e := rfl

theorem chkOpen_open {s : State} (h : s.isOpen = true) : chkOpen s = none := by simp [chkOpen, h]
theorem chkOpen_closed {s : State} (h : s.isOpen = false) : chkOpen s = some .notOpen := by simp [chkOpen, h]

/-- A check answers no more than its own field. -/
theorem chk_eq_some {field : Field} {legal : Bool} {e : Exc} (h : chk field legal = some e) :
    e = .invalidParameter field ∧ legal = false := by
  unfold chk at h; split at h
  · cases h
  · next hl => cases h; exact ⟨rfl, by simpa using hl⟩

theorem chk_eq_none {field : Field} {legal : Bool} : chk field legal = none ↔ legal = true := by
  unfold chk; split <;> simp_all

theorem within_iff {lo hi n : Int} : within lo hi n = true ↔ lo ≤ n ∧ n ≤ hi := by simp [within]

/-! ### The primitives -/

/-- What a test can do. -/
theorem testing_cases (c : Option Exc) (s : State) :
    (c = none ∧ testing c s = .ok () s) ∨ ∃ e, c = some e ∧ testing c s = .raised e s := by
  cases c with
  | none => exact .inl ⟨rfl, rfl⟩
  | some e => exact .inr ⟨e, rfl, rfl⟩

/-- What `MemWrite` can do (R41). -/
theorem memWrite_cases (f : Frame) (s : State) :
    (s.answer.ok = true ∧ memWrite f s = .ok s.answer.count (s.draw.log (.tx f (some s.answer.count)))) ∨
    (s.answer.ok = false ∧ memWrite f s = .raised (.transportError .write) (s.draw.log (.tx f none))) := by
  unfold memWrite; cases s.answer.ok <;> simp

/-- What `FlushIn` can do (R43). -/
theorem flushIn_cases (s : State) :
    (s.answer.ok = true ∧ flushIn s = .ok () { s.draw.log (.flushIn true) with rx := [] }) ∨
    (s.answer.ok = false ∧ flushIn s = .raised (.transportError .flush) (s.draw.log (.flushIn false))) := by
  unfold flushIn; cases s.answer.ok <;> simp

/-- What `FlushOut` can do (R43). -/
theorem flushOut_cases (s : State) :
    (s.answer.ok = true ∧ flushOut s = .ok () (s.draw.log (.flushOut true))) ∨
    (s.answer.ok = false ∧ flushOut s = .raised (.transportError .flush) (s.draw.log (.flushOut false))) := by
  unfold flushOut; cases s.answer.ok <;> simp

/-- What `MemRead` can do (R42). -/
theorem memRead_cases (n : Nat) (s : State) :
    (s.answer.ok = true ∧ memRead n s = .ok (readBytes n s.answer.count s.draw.rx)
      (s.afterRead n (readBytes n s.answer.count s.draw.rx))) ∨
    (s.answer.ok = false ∧ memRead n s = .raised (.transportError .read) (s.draw.log (.rx n none))) := by
  unfold memRead
  cases h : s.answer.ok with
  | false => simp
  | true =>
    refine .inl ⟨rfl, ?_⟩
    have hd : ∀ l : List Byte, l.drop (min n s.answer.count) = l.drop (readBytes n s.answer.count l).length := by
      intro l
      rw [readBytes, List.length_take]
      rcases Nat.le_total (min n s.answer.count) l.length with h1 | h1
      · rw [Nat.min_eq_left h1]
      · rw [Nat.min_eq_right h1, List.drop_of_length_le h1, List.drop_of_length_le (Nat.le_refl _)]
    simp only [if_true, State.afterRead, hd]

/-- What the Transport's `open` can do (R101). -/
theorem transportOpen_cases (port : String) (baud : Int) (timeout : Rat) (s : State) :
    (s.answer.ok = true ∧ transportOpen port baud timeout s =
      .ok () { s.draw.log (.opened port baud timeout true) with rx := s.answer.arrived }) ∨
    (s.answer.ok = false ∧ transportOpen port baud timeout s =
      .raised .connectionError (s.draw.log (.opened port baud timeout false))) := by
  unfold transportOpen; cases s.answer.ok <;> simp

/-- What the Transport's `close` can do (R116). -/
theorem transportClose_cases (s : State) :
    (s.answer.ok = true ∧ transportClose s = .ok () (s.draw.log (.closed true))) ∨
    (s.answer.ok = false ∧ transportClose s = .raised (.transportError .close) (s.draw.log (.closed false))) := by
  unfold transportClose; cases s.answer.ok <;> simp

/-- What SEND can do (R80): accepted, it leaves `sent`; else it raises at its failing call. -/
theorem sendFrame_cases (f : Frame) (s : State) :
    (accepts [.frame f] s ∧ sendFrame f s = .ok () (s.sent f)) ∨
    ∃ e u, EmitsFail [.frame f] s e u ∧ sendFrame f s = .raised e u := by
  rcases memWrite_cases f s with ⟨h1, h⟩ | ⟨h1, h⟩
  · by_cases h2 : s.answer.count = 3
    · have hs : sendFrame f s = (flushIn (s.draw.log (.tx f (some 3)))).andThen fun _ s3 => settle s3 := by
        simp [sendFrame, h, Ends.andThen, chkCount, testing, h2]
      rcases flushIn_cases (s.draw.log (.tx f (some 3))) with ⟨h3, h4⟩ | ⟨h3, h4⟩
      · refine .inl ⟨⟨h1, h2, h3, trivial⟩, ?_⟩
        rw [hs, h4]
        simp [Ends.andThen, settle, State.log, State.draw, State.sent]
      · exact .inr ⟨_, _, .flushIn f [] s h1 h2 h3, by rw [hs, h4]; rfl⟩
    · exact .inr ⟨_, _, .short f [] s h1 h2, by simp [sendFrame, h, Ends.andThen, chkCount, testing, h2]⟩
  · exact .inr ⟨_, _, .write f [] s h1, by simp [sendFrame, h, Ends.andThen]⟩

/-! ### The frame-level instructions -/

/-- Every meaning is the one shared operation on its checks and its frame. -/
theorem exec_eq_issueFrame (i : Instr) (s : State) : exec i s = issueFrame (instrParts s.params.speedBase i) s := by
  cases i <;> rfl

/-- What `issueFrame` can do: raise a check, or end its SEND. -/
theorem issueFrame_cases (parts : FrameParts) (s : State) :
    (∃ e, firstFailing (chkOpen s :: parts.checks) = some e ∧ issueFrame parts s = .next (s.abort e)) ∨
    (firstFailing (chkOpen s :: parts.checks) = none ∧
      ((accepts [.frame parts.frame] s ∧ issueFrame parts s = .next ((s.sent parts.frame).deliver (.done .empty))) ∨
       ∃ e u, EmitsFail [.frame parts.frame] s e u ∧ issueFrame parts s = .next (u.abort e))) := by
  unfold issueFrame
  cases hc : firstFailing (chkOpen s :: parts.checks) with
  | some e => exact .inl ⟨e, rfl, rfl⟩
  | none =>
    rcases sendFrame_cases parts.frame s with ⟨h1, h2⟩ | ⟨e, u, h1, h2⟩
    · exact .inr ⟨rfl, .inl ⟨h1, by simp [h2]⟩⟩
    · exact .inr ⟨rfl, .inr ⟨e, u, h1, by simp [h2]⟩⟩

/-- Checks that all pass. -/
theorem firstFailing_eq_none {cs : List (Option Exc)} : firstFailing cs = none ↔ ∀ c ∈ cs, c = none := by
  induction cs with
  | nil => simp
  | cons c cs ih => cases c <;> simp [ih]

theorem byteOf_congr {a b : Nat} (h : a % 256 = b % 256) : byteOf a = byteOf b := by
  apply BitVec.eq_of_toNat_eq; simp [byteOf, h]

/-- The operand checks of an instruction all pass exactly where it is well-formed (R81). -/
theorem checks_eq_none_iff (base : SpeedBase) (i : Instr) :
    firstFailing (instrParts base i).checks = none ↔ i.wellFormed = true := by
  rw [firstFailing_eq_none]
  cases i <;>
    simp [instrParts, partsAct, partsReinit, partsIntype, partsFreqhi, partsFreqlo, partsGaincal, partsSpeed0, partsSpeed1,
      partsSpeed2, partsSpeed3, partsSpeed4, partsSpeed5, partsTmrrst, partsEerd, partsEeaddr, partsEewr, partsQuery,
      partsMode5, partsMode4, partsStop, Instr.wellFormed, chkMask, chkCh, chkItype, chkDiv, chkCal, chkGcode, chkByte,
      chkSidx, chk_eq_none, within, and_assoc]

/-- The frame a meaning sends, from its own rule, is the one of the syntax table R76. -/
theorem partsFrame_eq_encode (base : SpeedBase) (i : Instr) (h : i.wellFormed = true) :
    (instrParts base i).frame = encode base i := by
  cases i <;> simp [Instr.wellFormed, within] at h <;>
    simp only [instrParts, partsAct, partsReinit, partsIntype, partsFreqhi, partsFreqlo, partsGaincal, partsSpeed0,
      partsSpeed1, partsSpeed2, partsSpeed3, partsSpeed4, partsSpeed5, partsTmrrst, partsEerd, partsEeaddr, partsEewr,
      partsQuery, partsMode5, partsMode4, partsStop, encode, nibbleFrame, bitField, Nat.shiftRight_eq_div_pow,
      show (255 : Nat) = 2 ^ 8 - 1 by rfl, show (15 : Nat) = 2 ^ 4 - 1 by rfl, Nat.and_two_pow_sub_one_eq_mod]
  all_goals first
    | rfl
    | (congr 1 <;> apply byteOf_congr <;> omega)

/-! ### The value of a sample -/

/-- Equal values are equal rationals (R140). -/
theorem sameValue_iff (a b : Sample) : a.sameValue b = true ↔ a.value = b.value := by
  have h : ∀ n : Nat, (2 : Rat) ^ n ≠ 0 := fun n => pow_ne_zero n (by norm_num)
  rw [Sample.sameValue, decide_eq_true_iff, Sample.value, Sample.value, div_eq_div_iff (h _) (h _)]
  exact_mod_cast Iff.rfl

/-- Scaling numerator and denominator alike leaves the value (R140: the pair need not be reduced). -/
theorem value_of_shift (s : Sample) (k : Nat) : ({ s with num := s.num * 2 ^ k, exp := s.exp + k } : Sample).value = s.value := by
  simp only [Sample.value, pow_add]
  push_cast
  exact mul_div_mul_right _ _ (pow_ne_zero k (by norm_num))

/-! ### Channels -/

theorem channelOf_number (c : Channel) : channelOf (c.number : Int) = some c := by cases c <;> rfl

@[simp] theorem get_set_same (t : GainTable) (c : Channel) (g : BitVec 3) : (t.set c g).get c = some g := by
  cases c <;> rfl

theorem get_set_other (t : GainTable) {c d : Channel} (g : BitVec 3) (h : c ≠ d) : (t.set c g).get d = t.get d := by
  cases c <;> cases d <;> first | rfl | exact absurd rfl h

end Sys2Proof.Machine
end

