-- ==== Sys2Proof/Laws/PerInstr.lean ====
section
/-! SUPPORT. Per instruction: the canonical form of a well-formed instruction has the same frame and is well-formed. -/

namespace Sys2Proof.Laws.Canonical

/-- The canonical form, which drops the byte of the divisor that FREQHI and FREQLO do not carry (R97 (c)), has the
frame of the instruction under every `SPEED_BASE`, and its operands lie in their closed sets. -/
def Statement (i : Instr) : Prop :=
  i.wellFormed = true → (∀ base, encode base i.canonical = encode base i) ∧ i.canonical.wellFormed = true

theorem act (m : Int) : Statement (.act m) := fun h => ⟨fun _ => rfl, h⟩

theorem intype (ch t : Int) : Statement (.intype ch t) := fun h => ⟨fun _ => rfl, h⟩

theorem freqhi (ch c : Int) : Statement (.freqhi ch c) := by
  intro h
  simp only [Instr.wellFormed, Bool.and_eq_true, within, decide_eq_true_eq] at h
  have high : bitField (c / 256 * 256) 12 4 = bitField c 12 4 := by simp only [bitField]; omega
  have low : bitField (c / 256 * 256) 8 4 = bitField c 8 4 := by simp only [bitField]; omega
  refine ⟨fun _ => by simp only [encode, Instr.canonical, high, low], ?_⟩
  simp only [Instr.canonical, Instr.wellFormed, Bool.and_eq_true, within, decide_eq_true_eq]
  omega

theorem freqlo (ch c : Int) : Statement (.freqlo ch c) := by
  intro h
  simp only [Instr.wellFormed, Bool.and_eq_true, within, decide_eq_true_eq] at h
  have high : bitField (c % 256) 4 4 = bitField c 4 4 := by simp only [bitField]; omega
  have low : bitField (c % 256) 0 4 = bitField c 0 4 := by simp only [bitField]; omega
  refine ⟨fun _ => by simp only [encode, Instr.canonical, high, low], ?_⟩
  simp only [Instr.canonical, Instr.wellFormed, Bool.and_eq_true, within, decide_eq_true_eq]
  omega

theorem gaincal (ch k g : Int) : Statement (.gaincal ch k g) := fun h => ⟨fun _ => rfl, h⟩

theorem reinit (m : Int) : Statement (.reinit m) := fun h => ⟨fun _ => rfl, h⟩

theorem speed0 : Statement .speed0 := fun h => ⟨fun _ => rfl, h⟩

theorem speed1 : Statement .speed1 := fun h => ⟨fun _ => rfl, h⟩

theorem speed2 : Statement .speed2 := fun h => ⟨fun _ => rfl, h⟩

theorem speed3 : Statement .speed3 := fun h => ⟨fun _ => rfl, h⟩

theorem speed4 : Statement .speed4 := fun h => ⟨fun _ => rfl, h⟩

theorem speed5 : Statement .speed5 := fun h => ⟨fun _ => rfl, h⟩

theorem tmrrst : Statement .tmrrst := fun h => ⟨fun _ => rfl, h⟩

theorem eerd : Statement .eerd := fun h => ⟨fun _ => rfl, h⟩

theorem eeaddr (a : Int) : Statement (.eeaddr a) := fun h => ⟨fun _ => rfl, h⟩

theorem eewr (v : Int) : Statement (.eewr v) := fun h => ⟨fun _ => rfl, h⟩

theorem query : Statement .query := fun h => ⟨fun _ => rfl, h⟩

theorem mode5 : Statement .mode5 := fun h => ⟨fun _ => rfl, h⟩

theorem mode4 : Statement .mode4 := fun h => ⟨fun _ => rfl, h⟩

theorem stop : Statement .stop := fun h => ⟨fun _ => rfl, h⟩

end Sys2Proof.Laws.Canonical
end

