-- ==== Sys2Proof/Laws/Runs.lean ====
section
/-! SUPPORT. Running an operation piece by piece: the places of an operation are distinct, so SEQ finds its step again;
`Leads` (some number of steps); and `Passes` and `Aborts`, what a run of primitives does wherever it stands. -/

namespace Sys2Proof.Machine

/-- Some number of steps leads from one state to the other. -/
def Leads (s t : State) : Prop := ∃ n, Sys2Proof.core.run n s = .next t

theorem run_succ {s t : State} (n : Nat) (h : step s = .next t) :
    Sys2Proof.core.run (n + 1) s = Sys2Proof.core.run n t := by
  have h' : Sys2Proof.core.step s = .next t := h
  simp only [Host.Core.run, h']

theorem Leads.refl (s : State) : Leads s s := ⟨0, rfl⟩

theorem Leads.head {s t u : State} (h : step s = .next t) (h2 : Leads t u) : Leads s u := by
  obtain ⟨n, hn⟩ := h2
  exact ⟨n + 1, by rw [run_succ n h, hn]⟩

theorem Leads.single {s t : State} (h : step s = .next t) : Leads s t := .head h (.refl t)

theorem Leads.trans {s t u : State} (h1 : Leads s t) (h2 : Leads t u) : Leads s u := by
  obtain ⟨n, hn⟩ := h1
  induction n generalizing s with
  | zero =>
    have : s = t := by
      have h : (Host.Outcome.next s : Host.Outcome State Fault Refusal) = .next t := hn
      cases h; rfl
    exact this ▸ h2
  | succ n ih =>
    cases hs : step s with
    | next s' => rw [run_succ n hs] at hn; exact .head hs (ih hn)
    | fault r =>
      have h' : Sys2Proof.core.step s = .fault r := hs
      simp only [Host.Core.run, h'] at hn; cases hn
    | refused r =>
      have h' : Sys2Proof.core.step s = .refused r := hs
      simp only [Host.Core.run, h'] at hn; cases hn

/-! ### The places of an operation are distinct -/

theorem placed_places (line cfg k : Nat) (l : List SeqStep) {x : Place × SeqStep} (h : x ∈ placed line cfg k l) :
    x.1.line = line ∧ x.1.cfg = cfg ∧ k ≤ x.1.sub := by
  induction l generalizing k with
  | nil => cases h
  | cons st l ih =>
    rcases List.mem_cons.mp h with rfl | h
    · exact ⟨rfl, rfl, Nat.le_refl _⟩
    · obtain ⟨h1, h2, h3⟩ := ih (k + 1) h
      exact ⟨h1, h2, by omega⟩

theorem placed_nodup (line cfg k : Nat) (l : List SeqStep) : ((placed line cfg k l).map (·.1)).Nodup := by
  induction l generalizing k with
  | nil => exact List.nodup_nil
  | cons st l ih =>
    refine List.nodup_cons.mpr ⟨fun h => ?_, ih (k + 1)⟩
    obtain ⟨x, hx, he⟩ := List.mem_map.mp h
    have := (placed_places line cfg (k + 1) l hx).2.2
    have : x.1.sub = k := by rw [he]
    omega

theorem placed_steps (line cfg k : Nat) (l : List SeqStep) : (placed line cfg k l).map (·.2) = l := by
  induction l generalizing k with
  | nil => rfl
  | cons st l ih => simp [placed, ih]

/-- Two blocks of one operation are lines or rounds of their own. -/
def Apart (a b : Block) : Prop := a.line ≠ b.line ∨ a.cfg ≠ b.cfg

theorem roundBlocks_mem {p : Params} {j : Nat} {cfgs : List ChannelConfig} {b : Block} (h : b ∈ roundBlocks p j cfgs) :
    b.line = 5 ∧ j ≤ b.cfg := by
  induction cfgs generalizing j with
  | nil => cases h
  | cons cfg cfgs ih =>
    rcases List.mem_cons.mp h with rfl | h
    · exact ⟨rfl, Nat.le_refl _⟩
    · exact ⟨(ih h).1, by have := (ih h).2; omega⟩

theorem roundBlocks_apart (p : Params) (j : Nat) (cfgs : List ChannelConfig) : (roundBlocks p j cfgs).Pairwise Apart := by
  induction cfgs generalizing j with
  | nil => exact .nil
  | cons cfg cfgs ih =>
    refine .cons (fun b hb => .inr ?_) (ih (j + 1))
    have := (roundBlocks_mem hb).2
    show j ≠ b.cfg
    omega

theorem blocks_apart (p : Params) (o : Op) : (blocks p o).Pairwise Apart := by
  cases o
  case bringUp cfgs five =>
    show ((_ ++ roundBlocks p 1 cfgs) ++ _).Pairwise Apart
    refine List.pairwise_append.mpr ⟨List.pairwise_append.mpr ⟨?_, roundBlocks_apart p 1 cfgs, ?_⟩, ?_, ?_⟩
    · simp [Apart]
    · intro a ha b hb
      have h5 := (roundBlocks_mem hb).1
      simp only [List.mem_cons, List.not_mem_nil, or_false] at ha
      rcases ha with rfl | rfl | rfl | rfl <;> exact .inl (by rw [h5]; simp)
    · simp [Apart]
    · intro a ha b hb
      simp only [List.mem_cons, List.not_mem_nil, or_false] at hb
      rcases List.mem_append.mp ha with ha | ha
      · simp only [List.mem_cons, List.not_mem_nil, or_false] at ha
        rcases ha with rfl | rfl | rfl | rfl <;> rcases hb with rfl | rfl <;> exact .inl (by simp)
      · have h5 := (roundBlocks_mem ha).1
        rcases hb with rfl | rfl <;> exact .inl (by rw [h5]; simp)
  all_goals
    simp [blocks, frameBlocks, openBlocks, stopBlocks, setactiveBlocks, setfreqBlocks, setgaincalBlocks, setinputBlocks,
      applychBlocks, setbytemodeBlocks, modeChange, reinitializeBlocks, setspeedBlocks, eereadBlocks, eewriteBlocks,
      closeBlocks, readsampleBlocks, recordBlocks, selftestBlocks, Apart]

theorem flatMap_places_nodup {bs : List Block} (h : bs.Pairwise Apart) :
    ((bs.flatMap (fun b => placed b.line b.cfg 0 b.steps)).map (·.1)).Nodup := by
  induction bs with
  | nil => exact List.nodup_nil
  | cons b bs ih =>
    obtain ⟨h1, h2⟩ := List.pairwise_cons.mp h
    rw [List.flatMap_cons, List.map_append]
    refine List.Nodup.append (placed_nodup ..) (ih h2) fun x hx hy => ?_
    obtain ⟨y, hy1, rfl⟩ := List.mem_map.mp hx
    obtain ⟨z, hz1, he⟩ := List.mem_map.mp hy
    obtain ⟨c, hc, hz2⟩ := List.mem_flatMap.mp hz1
    have e1 := placed_places _ _ _ _ hy1
    have e2 := placed_places _ _ _ _ hz2
    rw [he] at e2
    rcases h1 c hc with h3 | h3
    · exact h3 (e1.1.symm.trans e2.1)
    · exact h3 (e1.2.1.symm.trans e2.2.1)

/-- No place names two steps of an operation (R26). -/
theorem program_places_nodup (p : Params) (o : Op) : ((program p o).map (·.1)).Nodup :=
  flatMap_places_nodup (blocks_apart p o)

theorem program_steps (p : Params) (o : Op) : (program p o).map (·.2) = inPlace (blocks p o) := by
  simp [program, inPlace, List.map_flatMap, placed_steps]

theorem dropWhile_of_nodup {l earlier later : List (Place × SeqStep)} {x : Place × SeqStep}
    (hn : (l.map (·.1)).Nodup) (h : l = earlier ++ x :: later) :
    l.dropWhile (fun y => y.1 ≠ x.1) = x :: later := by
  subst h
  rw [List.dropWhile_append_of_pos]
  · simp
  · intro y hy
    rw [List.map_append, List.map_cons] at hn
    have := (List.nodup_append.mp hn).2.2 y.1 (List.mem_map_of_mem hy) x.1 (by simp)
    simpa using this

/-- From the place of a step on stand that step and the ones after it. -/
theorem rest_of_split {params : Params} {p : Position} {earlier later : List (Place × SeqStep)} {st : SeqStep}
    (h : program params p.op = earlier ++ (p.place, st) :: later) : p.rest params = (p.place, st) :: later :=
  dropWhile_of_nodup (x := (p.place, st)) (program_places_nodup params p.op) h

/-- What stands at a later step is the tail of what stood before. -/
theorem rest_of_drop {params : Params} {p q : Position} {n : Nat} {st : SeqStep} {later : List (Place × SeqStep)}
    (hop : q.op = p.op) (h : (p.rest params).drop n = (q.place, st) :: later) :
    q.rest params = (q.place, st) :: later := by
  have hs : program params p.op =
      (program params p.op).takeWhile (fun x => x.1 ≠ p.place) ++ ((p.rest params).take n ++ (q.place, st) :: later) := by
    rw [← h, List.take_append_drop]
    exact (List.takeWhile_append_dropWhile ..).symm
  rw [← List.append_assoc] at hs
  exact rest_of_split (hop ▸ hs)

/-- A position and its locals: only the operation and the place say which steps are left. -/
theorem rest_congr {params : Params} {p q : Position} (hop : q.op = p.op) (hpl : q.place = p.place) :
    q.rest params = p.rest params := by unfold Position.rest; rw [hop, hpl]

/-- The head of the steps left is the step at the place. -/
theorem head_rest {params : Params} {p : Position} {x : Place × SeqStep} {l : List (Place × SeqStep)}
    (h : p.rest params = x :: l) : x.1 = p.place := by
  have := List.head?_dropWhile_not (fun y : Place × SeqStep => decide (y.1 ≠ p.place)) (program params p.op)
  unfold Position.rest at h
  rw [h] at this
  simpa using this

/-! ### Running -/

/-- A state at a position. -/
def State.at (s : State) (p : Position) : State := { s with seq := .running p }

theorem resume_at (s : State) (p q : Position) (l : List (Place × SeqStep)) : (s.at p).resume q l = s.resume q l := by
  cases l <;> rfl

/-- One step at a position, by its primitive. -/
theorem step_at {s : State} {p : Position} {st : SeqStep} {left : List SeqStep}
    (h : (p.rest s.params).map (·.2) = st :: left) : step (s.at p) = .next (primitive st p (s.at p)).conclude := by
  have hc : p.current s.params = some st := by
    cases hr : p.rest s.params with
    | nil => rw [hr] at h; cases h
    | cons x l => rw [hr] at h; simp only [Position.current, hr]; simp only [List.map_cons, List.cons.injEq] at h; simp [h.1]
  show runPosition p (s.at p) = _
  unfold runPosition
  have hc' : p.current (s.at p).params = some st := hc
  rw [hc']

/-- Taking an operation from the requests. -/
theorem step_take {s : State} {o : Op} {rest : List Request} (hi : s.seq = .idle) (hr : s.requests = .op o :: rest) :
    step s = .next (({ s with requests := rest } : State).at (startOf o)) := by
  unfold step; rw [hi]; simp only [takeRequest, hr]; rfl

/-- Every operation starts at a step. -/
theorem rest_startOf (params : Params) (o : Op) : (startOf o).rest params = program params o := by
  have h : ∃ st l, program params o = (⟨1, 0, 0⟩, st) :: l := by cases o <;> exact ⟨_, _, rfl⟩
  obtain ⟨st, l, h⟩ := h
  show (program params o).dropWhile _ = _
  rw [h, List.dropWhile_cons]
  simp [startOf]

/-- A change of a position's locals: the operation and the place stay. -/
def KeepsPlace (f : Position → Position) : Prop := ∀ p, (f p).op = p.op ∧ (f p).place = p.place

theorem keepsPlace_id : KeepsPlace id := fun _ => ⟨rfl, rfl⟩

theorem KeepsPlace.comp {f g : Position → Position} (hg : KeepsPlace g) (hf : KeepsPlace f) :
    KeepsPlace (fun p => g (f p)) :=
  fun p => ⟨(hg (f p)).1.trans (hf p).1, (hg (f p)).2.trans (hf p).2⟩

/-- The primitives `B` take `s` to `u` wherever they stand, changing the locals by `f` and leaving SEQ at what is left
(the end of the operation where nothing is). -/
structure Passes (B : List SeqStep) (s u : State) (f : Position → Position) : Prop where
  params : u.params = s.params
  keeps : KeepsPlace f
  leads : ∀ (p : Position) (L : List SeqStep), (p.rest s.params).map (·.2) = B ++ L →
    Leads (s.at p) (u.resume (f p) ((p.rest s.params).drop B.length))

/-- The primitives `B`, standing anywhere but in the `try` of CLOSE, end the operation with `e` in state `u`. -/
def Aborts (B : List SeqStep) (s u : State) (e : Exc) : Prop :=
  ∀ (p : Position) (L : List SeqStep), p.op ≠ .close → (p.rest s.params).map (·.2) = B ++ L →
    Leads (s.at p) (u.abort e)

/-- The primitives `B` end the operation with the result `v` in state `u`. -/
def Returns (B : List SeqStep) (s u : State) (v : Value) : Prop :=
  ∀ (p : Position) (L : List SeqStep), (p.rest s.params).map (·.2) = B ++ L → Leads (s.at p) (u.deliver (.done v))

/-- After `A`, what is left is `B ++ L` again, and the state stands at it. -/
theorem Passes.here {A B L : List SeqStep} {s t : State} {f : Position → Position} (h : Passes A s t f) (hB : B ≠ [])
    {p : Position} (hp : (p.rest s.params).map (·.2) = A ++ (B ++ L)) :
    ∃ q : Position, q.op = p.op ∧ (∃ place, q = { f p with place := place }) ∧
      (q.rest t.params).map (·.2) = B ++ L ∧ q.rest t.params = (p.rest s.params).drop A.length ∧
      Leads (s.at p) (t.at q) := by
  have hd : ((p.rest s.params).drop A.length).map (·.2) = B ++ L := by rw [List.map_drop, hp, List.drop_left]
  cases hr : (p.rest s.params).drop A.length with
  | nil => rw [hr] at hd; exact absurd hd.symm (by simp [hB])
  | cons x l =>
    have h2 := h.leads p (B ++ L) hp
    rw [hr] at h2 hd
    refine ⟨{ f p with place := x.1 }, (h.keeps p).1, ⟨x.1, rfl⟩, ?_, ?_, h2⟩
    · rw [h.params, rest_of_drop (p := p) (q := { f p with place := x.1 }) (h.keeps p).1 hr]; exact hd
    · rw [h.params, rest_of_drop (p := p) (q := { f p with place := x.1 }) (h.keeps p).1 hr]

/-- The locals a change leaves do not depend on the place. -/
def PlaceFree (g : Position → Position) : Prop := ∀ p place, { g { p with place := place } with place := p.place } = g p

theorem Passes.append {A B : List SeqStep} {s t u : State} {f g : Position → Position} (h1 : Passes A s t f)
    (hB : B ≠ []) (h2 : Passes B t u g) (hg : PlaceFree g) : Passes (A ++ B) s u (fun p => g (f p)) := by
  refine ⟨h2.params.trans h1.params, h2.keeps.comp h1.keeps, fun p L hp => ?_⟩
  rw [List.append_assoc] at hp
  obtain ⟨q, hop, ⟨place, rfl⟩, hq, hr, hl⟩ := h1.here hB hp
  have h3 := h2.leads _ L hq
  rw [hr, List.drop_drop, ← List.length_append] at h3
  refine hl.trans ?_
  have e : u.resume (g { f p with place := place }) ((p.rest s.params).drop (A ++ B).length) =
      u.resume (g (f p)) ((p.rest s.params).drop (A ++ B).length) := by
    cases (p.rest s.params).drop (A ++ B).length with
    | nil => rfl
    | cons x l =>
      have := congrArg (fun r : Position => ({ r with place := x.1 } : Position)) (hg (f p) place)
      exact congrArg (fun r => ({ u with seq := .running r } : State)) this
  rw [← e]; exact h3

theorem Passes.then_aborts {A B : List SeqStep} {s t u : State} {e : Exc} {f : Position → Position}
    (h1 : Passes A s t f) (hB : B ≠ []) (h2 : Aborts B t u e) : Aborts (A ++ B) s u e := by
  intro p L hc hp
  rw [List.append_assoc] at hp
  obtain ⟨q, hop, _, hq, _, hl⟩ := h1.here hB hp
  exact hl.trans (h2 q L (hop ▸ hc) hq)

theorem Passes.then_returns {A B : List SeqStep} {s t u : State} {v : Value} {f : Position → Position}
    (h1 : Passes A s t f) (hB : B ≠ []) (h2 : Returns B t u v) : Returns (A ++ B) s u v := by
  intro p L hp
  rw [List.append_assoc] at hp
  obtain ⟨q, _, _, hq, _, hl⟩ := h1.here hB hp
  exact hl.trans (h2 q L hq)

/-- What aborts, aborts before anything that follows. -/
theorem Aborts.before {A B : List SeqStep} {s u : State} {e : Exc} (h : Aborts A s u e) : Aborts (A ++ B) s u e :=
  fun p L hc hp => h p (B ++ L) hc (by rw [hp, List.append_assoc])

theorem Returns.before {A B : List SeqStep} {s u : State} {v : Value} (h : Returns A s u v) : Returns (A ++ B) s u v :=
  fun p L hp => h p (B ++ L) (by rw [hp, List.append_assoc])

/-- A whole operation that passes: done without result. -/
theorem finishes_of_passes {o : Op} {s t : State} {f : Position → Position}
    (h : ∀ rest, Passes (inPlace (blocks s.params o)) { s with requests := rest } { t with requests := rest } f)
    (hres : t.results = s.results) : Finishes o s t (.done .empty) := by
  intro rest hi hr
  have hp : ((startOf o).rest s.params).map (·.2) = inPlace (blocks s.params o) ++ [] := by
    rw [rest_startOf, program_steps, List.append_nil]
  have hl := (h rest).leads (startOf o) [] hp
  have hd : ((startOf o).rest s.params).drop (inPlace (blocks s.params o)).length = [] := by
    rw [List.drop_eq_nil_iff, ← List.length_map (f := (·.2)), hp, List.append_nil]
  rw [hd] at hl
  obtain ⟨n, hn⟩ := Leads.head (step_take hi hr) hl
  exact ⟨n, by rw [hn, ← hres]; rfl⟩

/-- A whole operation that aborts. -/
theorem finishes_of_aborts {o : Op} {s t : State} {e : Exc} (hc : o ≠ .close)
    (h : ∀ rest, Aborts (inPlace (blocks s.params o)) { s with requests := rest } { t with requests := rest } e)
    (hres : t.results = s.results) : Finishes o s t (.raised e) := by
  intro rest hi hr
  have hl := h rest (startOf o) [] hc (by
    show ((startOf o).rest s.params).map (·.2) = _
    rw [rest_startOf, program_steps, List.append_nil])
  obtain ⟨n, hn⟩ := Leads.head (step_take hi hr) hl
  exact ⟨n, by rw [hn, ← hres]; rfl⟩

/-- A whole operation that returns a result. -/
theorem finishes_of_returns {o : Op} {s t : State} {v : Value}
    (h : ∀ rest, Returns (inPlace (blocks s.params o)) { s with requests := rest } { t with requests := rest } v)
    (hres : t.results = s.results) : Finishes o s t (.done v) := by
  intro rest hi hr
  have hl := h rest (startOf o) [] (by
    show ((startOf o).rest s.params).map (·.2) = _
    rw [rest_startOf, program_steps, List.append_nil])
  obtain ⟨n, hn⟩ := Leads.head (step_take hi hr) hl
  exact ⟨n, by rw [hn, ← hres]; rfl⟩

/-! ### One primitive -/

/-- A primitive that, wherever it stands, takes `s` to `u`, changes the locals by `f` and goes on past `k` steps. -/
theorem passes_of_primitive {st : SeqStep} {mid : List SeqStep} {s u : State} {f : Position → Position}
    (hp : u.params = s.params) (hf : KeepsPlace f)
    (h : ∀ p, (primitive st p (s.at p)).conclude = u.advance (f p) mid.length) : Passes (st :: mid) s u f := by
  refine ⟨hp, hf, fun p L hr => ?_⟩
  refine .single ?_
  rw [step_at (by rw [hr]; rfl), h p]
  show Host.Outcome.next (u.resume (f p) (((f p).rest u.params).drop (mid.length + 1))) = _
  rw [hp, rest_congr (hf p).1 (hf p).2]
  rfl

/-- A primitive that raises. -/
theorem aborts_of_primitive {st : SeqStep} {s u : State} {e : Exc}
    (h : ∀ p, p.op ≠ .close → (primitive st p (s.at p)).conclude = u.abort e) : Aborts [st] s u e :=
  fun p L hc hr => .single (by rw [step_at (by rw [hr]; rfl), h p hc])

/-- A primitive that ends the operation with a result. -/
theorem returns_of_primitive {st : SeqStep} {s u : State} {v : Value}
    (h : ∀ p, (primitive st p (s.at p)).conclude = u.deliver (.done v)) : Returns [st] s u v :=
  fun p L hr => .single (by rw [step_at (by rw [hr]; rfl), h p])

theorem raiseExc_not_close {s : State} {p : Position} (e : Exc) (h : p.op ≠ .close) : s.raiseExc p e = s.abort e :=
  raiseExc_uncaught (by cases hc : p.catches e <;> simp_all [catches_iff])

theorem advance_at (s : State) (p q : Position) (k : Nat) : (s.at p).advance q k = s.advance q k := resume_at ..

/-! ### The primitives of a frame -/

theorem passes_testOpen {s : State} (ho : s.isOpen = true) : Passes [.testOpen] s s id :=
  passes_of_primitive rfl keepsPlace_id fun p => by
    have h : chkOpen (s.at p) = none := chkOpen_open ho
    simp only [primitive, h, testing, Ends.effect, Effect.conclude, id, List.length_nil, advance_at]

theorem aborts_testOpen {s : State} (ho : s.isOpen = false) : Aborts [.testOpen] s s .notOpen :=
  aborts_of_primitive fun p hc => by
    have h : chkOpen (s.at p) = some .notOpen := chkOpen_closed ho
    simp only [primitive, h, testing, Ends.effect, Effect.conclude, raiseExc_not_close _ hc]
    rfl

theorem passes_test (s : State) : Passes [.test none] s s id :=
  passes_of_primitive rfl keepsPlace_id fun p => by
    simp only [primitive, testing, Ends.effect, Effect.conclude, id, List.length_nil, advance_at]

theorem aborts_test (s : State) (e : Exc) : Aborts [.test (some e)] s s e :=
  aborts_of_primitive fun p hc => by
    simp only [primitive, testing, Ends.effect, Effect.conclude, raiseExc_not_close _ hc]
    rfl

theorem placeFree_id : PlaceFree id := fun _ _ => rfl

/-- Checks that all pass change nothing. -/
theorem passes_tests {s : State} (cs : List (Option Exc)) (hn : cs ≠ []) (hc : firstFailing cs = none) :
    Passes (cs.map .test) s s id := by
  induction cs with
  | nil => exact absurd rfl hn
  | cons c cs ih =>
    cases c with
    | some e => cases hc
    | none =>
      by_cases h : cs = []
      · subst h; exact passes_test s
      · exact (passes_test s).append (by simpa using h) (ih h hc) placeFree_id

/-- The first failing check ends it, with nothing done. -/
theorem aborts_tests {s : State} (cs : List (Option Exc)) (e : Exc) (hc : firstFailing cs = some e) :
    Aborts (cs.map .test) s s e := by
  induction cs with
  | nil => cases hc
  | cons c cs ih =>
    cases c with
    | some e' => cases hc; exact (aborts_test s e).before
    | none =>
      have h : cs ≠ [] := by rintro rfl; cases hc
      exact (passes_test s).then_aborts (by simpa using h) (ih hc)

/-- The tests of an instruction or an operation in an open block (R81). -/
theorem passes_testSteps {s : State} {cs : List (Option Exc)} (ho : s.isOpen = true) (hc : firstFailing cs = none) :
    Passes (testSteps cs) s s id := by
  by_cases h : cs = []
  · subst h; exact passes_testOpen ho
  · exact (passes_testOpen ho).append (by simpa using h) (passes_tests cs h hc) placeFree_id

theorem aborts_testSteps {s : State} {cs : List (Option Exc)} {e : Exc} (ho : s.isOpen = true)
    (hc : firstFailing cs = some e) : Aborts (testSteps cs) s s e :=
  (passes_testOpen ho).then_aborts (by rintro h; simp only [List.map_eq_nil_iff] at h; subst h; cases hc)
    (aborts_tests cs e hc)

/-- The local a write leaves. -/
def keepCount (n : Nat) (p : Position) : Position := { p with count := n }

theorem keepsPlace_count (n : Nat) : KeepsPlace (keepCount n) := fun _ => ⟨rfl, rfl⟩
theorem placeFree_count (n : Nat) : PlaceFree (keepCount n) := fun _ _ => rfl

/-- The frame a write sends from a state (R103, R109). -/
def sentBy (src : Source) (s : State) : Frame := sourceFrame s.params.speedBase s.active src

/-- The four primitives of an accepted SEND, run one after another from a position, and what is left after them. -/
theorem leads_sendSteps {src : Source} {s : State} {p : Position} {L : List SeqStep}
    (ha : accepts [.frame (sentBy src s)] s) (hr : (p.rest s.params).map (·.2) = sendSteps src ++ L) :
    Leads (s.at p) ((s.sent (sentBy src s)).resume (keepCount 3 p) ((p.rest s.params).drop 4)) := by
  obtain ⟨h1, h2, h3, _⟩ := ha
  match hl : p.rest s.params, hr with
  | (a, _) :: (b, _) :: (c, _) :: (d, _) :: l, hr =>
    simp only [sendSteps, List.map_cons, List.cons_append, List.nil_append, List.cons.injEq] at hr
    obtain ⟨rfl, rfl, rfl, rfl, _⟩ := hr
    have ea : a = p.place := head_rest hl
    let q (x : Place) : Position := { keepCount 3 p with place := x }
    have hq (n : Nat) (x : Place) (st : SeqStep) (l' : List (Place × SeqStep))
        (h : (p.rest s.params).drop n = (x, st) :: l') : (q x).rest s.params = (x, st) :: l' :=
      rest_of_drop (p := p) (q := q x) rfl h
    have r1 := hq 1 b _ _ (by rw [hl]; rfl)
    have r2 := hq 2 c _ _ (by rw [hl]; rfl)
    have r3 := hq 3 d _ _ (by rw [hl]; rfl)
    let s1 : State := s.draw.log (.tx (sentBy src s) (some 3))
    let s2 : State := { s1.draw.log (.flushIn true) with rx := [] }
    have e1 : step (s.at p) = .next (s1.at (q b)) := by
      rw [step_at (left := [.countTest, .flushIn, .settle] ++ l.map (·.2)) (by rw [hl]; rfl)]
      have ho : (s.at p).answer.ok = true := h1
      have hcount : (s.at p).answer.count = 3 := h2
      simp only [primitive, memWrite, ho, if_true, hcount, Ends.effect, Effect.conclude]
      show Host.Outcome.next (State.resume (keepCount 3 p) (((keepCount 3 p).rest s.params).drop 1) _) = _
      rw [rest_congr (p := p) (q := keepCount 3 p) rfl rfl, hl]
      rfl
    have e2 : step (s1.at (q b)) = .next (s1.at (q c)) := by
      rw [step_at (left := [.flushIn, .settle] ++ l.map (·.2)) (by show ((q b).rest s.params).map _ = _; rw [r1]; rfl)]
      show Host.Outcome.next (State.resume (q b) (((q b).rest s.params).drop 1) (s1.at (q b))) = _
      rw [r1]; rfl
    have e3 : step (s1.at (q c)) = .next (s2.at (q d)) := by
      rw [step_at (left := .settle :: l.map (·.2)) (by show ((q c).rest s.params).map _ = _; rw [r2]; rfl)]
      have ho : (s1.at (q c)).answer.ok = true := h3
      simp only [primitive, flushIn, ho, if_true, Ends.effect, Effect.conclude]
      show Host.Outcome.next (State.resume (q c) (((q c).rest s.params).drop 1) _) = _
      rw [r2]; rfl
    have e4 : step (s2.at (q d)) = .next ((s.sent (sentBy src s)).resume (keepCount 3 p) l) := by
      rw [step_at (left := l.map (·.2)) (by show ((q d).rest s.params).map _ = _; rw [r3]; rfl)]
      simp only [primitive, settle, Ends.effect, Effect.conclude]
      show Host.Outcome.next (State.resume (q d) (((q d).rest s.params).drop 1) _) = _
      rw [r3]
      have es : (s2.at (q d)).log .settle = (s.sent (sentBy src s)).at (q d) := by
        simp [s2, s1, State.at, State.sent, State.log, State.draw]
      rw [es]
      cases l <;> rfl
    exact .head e1 (.head e2 (.head e3 (.single e4)))

/-- An accepted SEND (R80). -/
theorem passes_sendSteps {src : Source} {s : State} (ha : accepts [.frame (sentBy src s)] s) :
    Passes (sendSteps src) s (s.sent (sentBy src s)) (keepCount 3) :=
  ⟨rfl, keepsPlace_count 3, fun _ _ hr => leads_sendSteps ha hr⟩

/-- A frame-level instruction called in place that passes its checks and whose frame is accepted. -/
theorem passes_callSteps {parts : FrameParts} {s : State} (ho : s.isOpen = true)
    (hc : firstFailing parts.checks = none) (ha : accepts [.frame parts.frame] s) :
    Passes (callSteps parts) s (s.sent parts.frame) (keepCount 3) := by
  have h : callSteps parts = testSteps parts.checks ++ sendSteps (.frame parts.frame) := by
    simp [callSteps, inPlace, frameBlocks]
  rw [h]
  exact (passes_testSteps ho hc).append (by simp [sendSteps]) (passes_sendSteps (src := .frame parts.frame) ha)
    (placeFree_count 3)

/-- An accepted `FlushOut`. -/
theorem passes_flushOut {s : State} (ha : s.answer.ok = true) :
    Passes [.flushOut] s (s.draw.log (.flushOut true)) id :=
  passes_of_primitive rfl keepsPlace_id fun p => by
    have h : (s.at p).answer.ok = true := ha
    simp only [primitive, flushOut, h, if_true, Ends.effect, Effect.conclude, id, List.length_nil]
    exact advance_at (s.draw.log (.flushOut true)) p p 0

/-! ### Emissions -/

theorem emitAll_nil (s : State) : s.emitAll [] = s := rfl
theorem emitAll_cons (e : Emit) (es : List Emit) (s : State) : s.emitAll (e :: es) = (s.emit e).emitAll es := rfl
theorem emitAll_append (es fs : List Emit) (s : State) : s.emitAll (es ++ fs) = (s.emitAll es).emitAll fs := by
  simp [State.emitAll, List.foldl_append]

/-- An acceptance depends only on the answers still to come. -/
theorem accepts_congr {es : List Emit} {s t : State} (ha : s.answers = t.answers) (hd : s.draws = t.draws) :
    accepts es s ↔ accepts es t := by
  induction es generalizing s t with
  | nil => exact Iff.rfl
  | cons e es ih =>
    have e1 : s.answer = t.answer := answer_congr ha hd
    have a2 : s.draw.answers = t.draw.answers := by simp [ha]
    have d2 : s.draw.draws = t.draw.draws := by simp [hd]
    have e2 : s.draw.answer = t.draw.answer := answer_congr a2 d2
    cases e with
    | frame f =>
      have a3 : s.draw.draw.answers = t.draw.draw.answers := by simp [ha]
      have d3 : s.draw.draw.draws = t.draw.draw.draws := by simp [hd]
      simp only [accepts, e1, e2, ih a3 d3]
    | flushOut => simp only [accepts, e1, ih a2 d2]

/-- To accept emissions is to accept the first, and then the rest from the state it leaves. -/
theorem accepts_cons {e : Emit} {es : List Emit} {s : State} :
    accepts (e :: es) s ↔ accepts [e] s ∧ accepts es (s.emit e) := by
  cases e with
  | frame f =>
    have h : accepts es (s.sent f) ↔ accepts es s.draw.draw := accepts_congr rfl rfl
    simp only [accepts, State.emit, h, and_true, and_assoc]
  | flushOut =>
    have h : accepts es (s.draw.log (.flushOut true)) ↔ accepts es s.draw := accepts_congr rfl rfl
    simp only [accepts, State.emit, h, and_true]

theorem accepts_append {es fs : List Emit} {s : State} :
    accepts (es ++ fs) s ↔ accepts es s ∧ accepts fs (s.emitAll es) := by
  induction es generalizing s with
  | nil => simp [accepts, emitAll_nil]
  | cons e es ih => rw [List.cons_append, accepts_cons, ih, emitAll_cons, accepts_cons (es := es), and_assoc]

/-- Emissions fail in a first part, or in a second after the first was accepted. -/
theorem emitsFail_append {es fs : List Emit} {s u : State} {e : Exc} :
    EmitsFail (es ++ fs) s e u ↔ EmitsFail es s e u ∨ (accepts es s ∧ EmitsFail fs (s.emitAll es) e u) := by
  constructor
  · intro h
    induction es generalizing s with
    | nil => exact .inr ⟨trivial, h⟩
    | cons e0 es ih =>
      cases h with
      | write f _ _ h1 => exact .inl (.write f es s h1)
      | short f _ _ h1 h2 => exact .inl (.short f es s h1 h2)
      | flushIn f _ _ h1 h2 h3 => exact .inl (.flushIn f es s h1 h2 h3)
      | flushOut _ _ h1 => exact .inl (.flushOut es s h1)
      | later _ _ _ _ _ h1 h2 =>
        rcases ih h2 with h3 | ⟨h3, h4⟩
        · exact .inl (.later e0 es s e u h1 h3)
        · exact .inr ⟨accepts_cons.mpr ⟨h1, h3⟩, h4⟩
  · rintro (h | ⟨h1, h2⟩)
    · induction h with
      | write f es s h1 => exact .write f _ s h1
      | short f es s h1 h2 => exact .short f _ s h1 h2
      | flushIn f es s h1 h2 h3 => exact .flushIn f _ s h1 h2 h3
      | flushOut es s h1 => exact .flushOut _ s h1
      | later e0 es s e u h1 _ ih => exact .later e0 _ s e u h1 ih
    · induction es generalizing s with
      | nil => exact h2
      | cons e0 es ih =>
        exact .later e0 _ s e u (accepts_cons.mp h1).1 (ih (accepts_cons.mp h1).2 h2)

/-- Accepted emissions write no register. -/
@[simp] theorem emitAll_registers (es : List Emit) (s : State) : (s.emitAll es).registers = s.registers := by
  induction es generalizing s with
  | nil => rfl
  | cons e es ih => rw [emitAll_cons, ih]; cases e <;> rfl

/-- Failing emissions write no register. -/
theorem registers_of_emitsFail {es : List Emit} {s u : State} {e : Exc} (h : EmitsFail es s e u) :
    u.registers = s.registers := by
  induction h with
  | later e0 _ s _ _ _ _ ih => rw [ih]; cases e0 <;> rfl
  | _ => rfl

end Sys2Proof.Machine
end

