-- ==== Sys2Proof/Laws/Sequencer.lean ====
section
/-! SUPPORT. What a step can do, said once: which registers a primitive writes (`writtenBy`), that it keeps the
parameters, requests, results and its own place, what it can append to the trace, and where `conclude` leaves SEQ. -/

namespace Sys2Proof.Machine

/-! ### A step is a primitive and a move of SEQ -/

theorem step_of_running {s : State} {p : Position} (hs : s.seq = .running p) : step s = runPosition p s := by
  unfold step; rw [hs]

theorem step_of_idle {s : State} (hs : s.seq = .idle) : step s = takeRequest s := by unfold step; rw [hs]

/-- With SEQ at a position, a next state is what the primitive standing there concludes. -/
theorem step_running {s t : State} {p : Position} (hs : s.seq = .running p) (h : step s = .next t) :
    ∃ st, p.current s.params = some st ∧ t = (primitive st p s).conclude := by
  rw [step_of_running hs, runPosition] at h
  cases hc : p.current s.params with
  | none => rw [hc] at h; cases h
  | some st => rw [hc] at h; cases h; exact ⟨st, rfl, rfl⟩

/-- With SEQ idle, a next state is the same one, a whole instruction from a word, or SEQ at the start of an
operation. -/
theorem step_idle {s t : State} (hs : s.seq = .idle) (h : step s = .next t) :
    t = s ∨
    (∃ w rest i, s.requests = .word w :: rest ∧ wordInstr s.params.speedBase w = .ok i ∧
      exec i { s with requests := rest } = .next t) ∨
    ∃ o r rest, s.requests = r :: rest ∧ t = { s with requests := rest, seq := .running (startOf o) } := by
  rw [step_of_idle hs] at h
  unfold takeRequest at h
  split at h
  · cases h; exact .inl rfl
  · next w rest hr =>
    split at h
    · next i hi => exact .inr (.inl ⟨w, rest, i, hr, hi, h⟩)
    · cases h
  · next i rest hr => cases h; exact .inr (.inr ⟨.frame i, _, rest, hr, rfl⟩)
  · next o rest hr => cases h; exact .inr (.inr ⟨o, _, rest, hr, rfl⟩)

/-- Where SEQ is after a primitive: the operation has ended, or SEQ is at a step of the same operation: one of those
left after its place, the first step of a line, or line 4 of CLOSE. -/
theorem conclude_cases (eff : Effect) :
    (∃ c, eff.conclude = eff.state.deliver c) ∨
    (∃ skip place st later, eff.goes = .on skip ∧
      (eff.pos.rest eff.state.params).drop (skip + 1) = (place, st) :: later ∧
      eff.conclude = { eff.state with seq := .running { eff.pos with place := place } }) ∨
    (∃ line place st later, eff.goes = .toLine line ∧
      (program eff.state.params eff.pos.op).dropWhile (fun x => x.1.line ≠ line) = (place, st) :: later ∧
      eff.conclude = { eff.state with seq := .running { eff.pos with place := place } }) ∨
    (∃ e, eff.goes = .raises e ∧ eff.pos.op = .close ∧ eff.pos.place.line = 3 ∧
      eff.conclude = { eff.state with seq := .running { eff.pos with err := some e, place := ⟨4, 0, 0⟩ } }) := by
  unfold Effect.conclude
  split
  · next skip hg =>
    rcases resume_cases eff.state eff.pos ((eff.pos.rest eff.state.params).drop (skip + 1)) with
      ⟨_, h⟩ | ⟨place, st, later, hl, h⟩
    · exact .inl ⟨_, h⟩
    · exact .inr (.inl ⟨skip, place, st, later, hg, hl, h⟩)
  · next line hg =>
    rcases resume_cases eff.state eff.pos ((program eff.state.params eff.pos.op).dropWhile (fun x => x.1.line ≠ line)) with
      ⟨_, h⟩ | ⟨place, st, later, hl, h⟩
    · exact .inl ⟨_, h⟩
    · exact .inr (.inr (.inl ⟨line, place, st, later, hg, hl, h⟩))
  · exact .inl ⟨_, rfl⟩
  · next e hg =>
    rcases raiseExc_cases eff.state eff.pos e with h | ⟨h1, h2, _, h⟩
    · exact .inl ⟨_, h⟩
    · exact .inr (.inr (.inr ⟨e, hg, h1, h2, h⟩))

/-- A move of SEQ touches only SEQ and the results, and those only grow. -/
theorem conclude_keeps (eff : Effect) :
    eff.conclude.registers = eff.state.registers ∧ eff.conclude.trace = eff.state.trace ∧
    eff.conclude.params = eff.state.params ∧ eff.conclude.requests = eff.state.requests ∧
    eff.state.results <+: eff.conclude.results := by
  rcases conclude_cases eff with ⟨c, h⟩ | ⟨_, _, _, _, _, _, h⟩ | ⟨_, _, _, _, _, _, h⟩ | ⟨_, _, _, _, h⟩ <;> rw [h] <;>
    simp [State.registers]

/-! ### What a primitive leaves -/

/-- The registers a step writes where it does not raise: all but the named ones are as they were (R31). -/
def writtenBy (st : SeqStep) (s : State) : Registers :=
  match st with
  | .clearActive => { s.registers with active := 0 }
  | .flipActive c => { s.registers with active := s.active ^^^ c.bit }
  | .writeFw w => { s.registers with fw := w }
  | .unsetGain c => { s.registers with gainc := s.gainc.clear c }
  | .writeGain ch g => { s.registers with gainc := setGain s.gainc ch g }
  | .writeCoef c => { s.registers with coef := c }
  | .writeOpen b => { s.registers with isOpen := b }
  | _ => s.registers

/-- What one primitive leaves: its registers, and beside them the parameters, requests and results as they were, its
operation and place, and a trace that grew by at most one event. -/
structure Leaves (st : SeqStep) (p : Position) (s : State) (eff : Effect) : Prop where
  registers : eff.state.registers = writtenBy st s
  params : eff.state.params = s.params
  requests : eff.state.requests = s.requests
  results : eff.state.results = s.results
  op : eff.pos.op = p.op
  place : eff.pos.place = p.place
  trace : eff.state.trace = s.trace ∨ ∃ e, eff.state.trace = s.trace ++ [e]

/-- An effect that keeps the state but for the registers the step writes. -/
theorem leaves_quiet {st : SeqStep} {p q : Position} {s u : State} {g : Goes} (hr : u.registers = writtenBy st s)
    (hp : u.params = s.params) (hq : u.requests = s.requests) (hd : u.results = s.results) (ht : u.trace = s.trace)
    (ho : q.op = p.op) (hl : q.place = p.place) : Leaves st p s ⟨u, q, g⟩ :=
  ⟨hr, hp, hq, hd, ho, hl, .inl ht⟩

/-- A test, and any primitive that logs one event and writes no register. -/
theorem leaves_testing {st : SeqStep} {p : Position} {s : State} (hw : writtenBy st s = s.registers) (c : Option Exc) :
    Leaves st p s ((testing c s).effect p fun _ => p) := by
  rcases testing_cases c s with ⟨_, h⟩ | ⟨e, _, h⟩ <;> rw [h] <;>
    exact leaves_quiet hw.symm rfl rfl rfl rfl rfl rfl

/-- A call of the Transport or the clock: one event, no register. -/
theorem leaves_call {st : SeqStep} {p q : Position} {s u : State} {g : Goes} {e : Event}
    (hw : writtenBy st s = s.registers) (hr : u.registers = s.registers) (hp : u.params = s.params)
    (hq : u.requests = s.requests) (hd : u.results = s.results) (ht : u.trace = s.trace ++ [e])
    (ho : q.op = p.op) (hl : q.place = p.place) : Leaves st p s ⟨u, q, g⟩ :=
  ⟨hr.trans hw.symm, hp, hq, hd, ho, hl, .inr ⟨e, ht⟩⟩

theorem leaves_read {st : SeqStep} {p : Position} {s : State} (n : Nat) (hw : writtenBy st s = s.registers) :
    Leaves st p s ((memRead n s).effect p fun bs => { p with bs := bs }) := by
  rcases memRead_cases n s with ⟨_, h⟩ | ⟨_, h⟩ <;> rw [h]
  · exact leaves_call (e := .rx n (some (readBytes n s.answer.count s.draw.rx))) hw rfl rfl rfl rfl rfl rfl rfl
  · exact leaves_call (e := .rx n none) hw rfl rfl rfl rfl rfl rfl rfl

theorem primitive_leaves (st : SeqStep) (p : Position) (s : State) : Leaves st p s (primitive st p s) := by
  cases st
  case testOpen => exact leaves_testing rfl _
  case test c => exact leaves_testing rfl _
  case testActive => exact leaves_testing rfl _
  case countTest => exact leaves_testing rfl _
  case closedTest => exact leaves_testing rfl _
  case boundTest => exact leaves_testing rfl _
  case lengthTest => exact leaves_testing rfl _
  case markerTest => exact leaves_testing rfl _
  case reportCaught => exact leaves_testing rfl _
  case write src =>
    simp only [primitive]
    rcases memWrite_cases (sourceFrame s.params.speedBase s.active src) s with ⟨_, h⟩ | ⟨_, h⟩ <;> rw [h]
    · exact leaves_call (e := .tx (sourceFrame s.params.speedBase s.active src) (some s.answer.count))
        rfl rfl rfl rfl rfl rfl rfl rfl
    · exact leaves_call (e := .tx (sourceFrame s.params.speedBase s.active src) none) rfl rfl rfl rfl rfl rfl rfl rfl
  case flushIn =>
    simp only [primitive]
    rcases flushIn_cases s with ⟨_, h⟩ | ⟨_, h⟩ <;> rw [h]
    · exact leaves_call (e := .flushIn true) rfl rfl rfl rfl rfl rfl rfl rfl
    · exact leaves_call (e := .flushIn false) rfl rfl rfl rfl rfl rfl rfl rfl
  case settle => exact leaves_call (e := .settle) rfl rfl rfl rfl rfl rfl rfl rfl
  case flushOut =>
    simp only [primitive]
    rcases flushOut_cases s with ⟨_, h⟩ | ⟨_, h⟩ <;> rw [h]
    · exact leaves_call (e := .flushOut true) rfl rfl rfl rfl rfl rfl rfl rfl
    · exact leaves_call (e := .flushOut false) rfl rfl rfl rfl rfl rfl rfl rfl
  case openTransport port baud timeout =>
    simp only [primitive]
    rcases transportOpen_cases port baud timeout s with ⟨_, h⟩ | ⟨_, h⟩ <;> rw [h]
    · exact leaves_call (e := .opened port baud timeout true) rfl rfl rfl rfl rfl rfl rfl rfl
    · exact leaves_call (e := .opened port baud timeout false) rfl rfl rfl rfl rfl rfl rfl rfl
  case read n => exact leaves_read n rfl
  case readFrame => exact leaves_read _ rfl
  case decode =>
    simp only [primitive, decodeEffect]
    split <;> exact leaves_quiet rfl rfl rfl rfl rfl rfl rfl
  case stamp => exact leaves_call (e := .now s.answer.time) rfl rfl rfl rfl rfl rfl rfl rfl
  case closeTransport =>
    simp only [primitive, closeEffect]
    rcases transportClose_cases s with ⟨_, h⟩ | ⟨_, h⟩ <;> rw [h]
    · exact leaves_call (e := .closed true) rfl rfl rfl rfl rfl rfl rfl rfl
    · exact leaves_call (e := .closed false) rfl rfl rfl rfl rfl rfl rfl rfl
  all_goals exact leaves_quiet rfl rfl rfl rfl rfl rfl rfl

/-- Only a write leaves a frame in the trace, and it is the frame of its source. -/
theorem primitive_frames (st : SeqStep) (p : Position) (s : State) {f : Frame} {count : Option Nat}
    (h : Event.tx f count ∈ (primitive st p s).state.trace) :
    Event.tx f count ∈ s.trace ∨ ∃ src, st = .write src ∧ f = sentBy src s := by
  have test : ∀ c : Option Exc, ((testing c s).effect p fun _ => p).state.trace = s.trace := fun c => by
    rcases testing_cases c s with ⟨_, h⟩ | ⟨e, _, h⟩ <;> rw [h] <;> rfl
  have read : ∀ n, Event.tx f count ∈ ((memRead n s).effect p fun bs => { p with bs := bs }).state.trace →
      Event.tx f count ∈ s.trace := fun n hm => by
    rcases memRead_cases n s with ⟨_, hr⟩ | ⟨_, hr⟩ <;> rw [hr] at hm <;>
      simpa [Ends.effect, State.afterRead] using hm
  cases st
  case write src =>
    refine (?_ : _ ∨ f = sentBy src s).imp_right fun hf => ⟨src, rfl, hf⟩
    simp only [primitive] at h
    rcases memWrite_cases (sourceFrame s.params.speedBase s.active src) s with ⟨_, hr⟩ | ⟨_, hr⟩ <;> rw [hr] at h <;>
      simp only [Ends.effect, log_trace, draw_trace, List.mem_append, List.mem_singleton, Event.tx.injEq] at h <;>
      exact h.imp_right And.left
  all_goals left
  case flushIn =>
    simp only [primitive] at h
    rcases flushIn_cases s with ⟨_, hr⟩ | ⟨_, hr⟩ <;> rw [hr] at h <;> simpa [Ends.effect] using h
  case settle => simpa [primitive, settle, Ends.effect] using h
  case flushOut =>
    simp only [primitive] at h
    rcases flushOut_cases s with ⟨_, hr⟩ | ⟨_, hr⟩ <;> rw [hr] at h <;> simpa [Ends.effect] using h
  case openTransport port baud timeout =>
    simp only [primitive] at h
    rcases transportOpen_cases port baud timeout s with ⟨_, hr⟩ | ⟨_, hr⟩ <;> rw [hr] at h <;>
      simpa [Ends.effect] using h
  case read n => exact read n h
  case readFrame => exact read _ h
  case decode => simp only [primitive, decodeEffect] at h; split at h <;> exact h
  case stamp => simpa [primitive, drawTime, Ends.effect] using h
  case closeTransport =>
    simp only [primitive, closeEffect] at h
    rcases transportClose_cases s with ⟨_, hr⟩ | ⟨_, hr⟩ <;> rw [hr] at h <;> simpa using h
  case testOpen => exact test _ ▸ h
  case test c => exact test _ ▸ h
  case testActive => exact test _ ▸ h
  case countTest => exact test _ ▸ h
  case closedTest => exact test _ ▸ h
  case boundTest => exact test _ ▸ h
  case lengthTest => exact test _ ▸ h
  case markerTest => exact test _ ▸ h
  case reportCaught => exact test _ ▸ h
  all_goals exact h

/-- The registers after a step at a position are those its primitive writes. -/
theorem registers_step {s t : State} {p : Position} (hs : s.seq = .running p) (h : step s = .next t) :
    ∃ st, p.current s.params = some st ∧ t.registers = writtenBy st s := by
  obtain ⟨st, hc, rfl⟩ := step_running hs h
  exact ⟨st, hc, (conclude_keeps _).1.trans (primitive_leaves st p s).registers⟩

/-! ### The pacing -/

theorem phaseOf_append (tr evs : List Event) :
    phaseOf (tr ++ evs) = evs.foldl (fun ph e => ph.bind (fun q => q.next e)) (phaseOf tr) := by
  simp [phaseOf, List.foldl_append]

/-- A whole frame accepted brings the pacing back to where it was. -/
theorem phaseOf_sent {s : State} (f : Frame) (h : phaseOf s.trace = some .free) :
    phaseOf (s.sent f).trace = some .free := by
  rw [sent_trace, phaseOf_append, h]; rfl

end Sys2Proof.Machine
end

