-- ==== Sys2Proof/Tests/Slice0.lean ====
section
/-! SUPPORT. The package's own tests. Expected values come from spec/95_test_vectors.md (X, V and P numbers) or from the
formats of spec/30_encoding.md written out by hand. `test_` theorems check the model; `witness_` theorems show that the
hypotheses of a statement can be met together. -/

namespace Sys2Proof.Tests

open Sys2Proof Sys2Proof.Machine

/-! ### WellFormed refuses an ill-formed term of each check (R81) -/

theorem test_illFormed_mask :
    (Instr.act 16).wellFormed = false ∧ (Instr.act (-1)).wellFormed = false ∧ (Instr.reinit 16).wellFormed = false := by
  decide
theorem test_illFormed_channel :
    (Instr.intype 5 0).wellFormed = false ∧ (Instr.intype 0 0).wellFormed = false ∧
    (Instr.freqhi 5 0).wellFormed = false ∧ (Instr.freqlo 0 0).wellFormed = false ∧
    (Instr.gaincal 5 0 0).wellFormed = false := by decide
theorem test_illFormed_inputType : (Instr.intype 4 4).wellFormed = false := by decide
theorem test_illFormed_divisor :
    (Instr.freqlo 2 65536).wellFormed = false ∧ (Instr.freqhi 2 65536).wellFormed = false := by decide
theorem test_illFormed_calibration : (Instr.gaincal 1 8 0).wellFormed = false := by decide
theorem test_illFormed_gain : (Instr.gaincal 1 0 8).wellFormed = false := by decide
theorem test_illFormed_byte :
    (Instr.eeaddr 256).wellFormed = false ∧ (Instr.eewr (-1)).wellFormed = false := by decide

/-! ### Decoding of words written out from the formats (R61, R62; V1) -/

theorem test_decode_act : decodeTableWord 24 0b00000000_00000000_10000101 = some (.act 5) := by decide
theorem test_decode_intype : decodeTableWord 24 0b00000000_00000010_10010100 = some (.intype 3 2) := by decide
theorem test_decode_freqhi : decodeTableWord 24 0b00000000_00001010_10101000 = some (.freqhi 4 0xA00) := by decide
theorem test_decode_freqlo : decodeTableWord 24 0b00001011_00000110_10111000 = some (.freqlo 4 0xB6) := by decide
theorem test_decode_gaincal : decodeTableWord 24 0b00000011_00000101_11000010 = some (.gaincal 2 3 5) := by decide
theorem test_decode_reinit : decodeTableWord 24 0b00000000_00000000_11010101 = some (.reinit 5) := by decide
theorem test_decode_speed0 : decodeTableWord 24 0b01011010_01011010_00001110 = some .speed0 := by decide
theorem test_decode_speed1 : decodeTableWord 24 0b01011010_01011010_00001111 = some .speed1 := by decide
theorem test_decode_speed2 : decodeTableWord 24 0b01011010_01011010_00010000 = some .speed2 := by decide
theorem test_decode_speed3 : decodeTableWord 24 0b01011010_01011010_00010001 = some .speed3 := by decide
theorem test_decode_speed4 : decodeTableWord 24 0b01011010_01011010_00010010 = some .speed4 := by decide
theorem test_decode_speed5 : decodeTableWord 24 0b01011010_01011010_00010011 = some .speed5 := by decide
theorem test_decode_tmrrst : decodeTableWord 24 0b00000000_00000000_11110000 = some .tmrrst := by decide
theorem test_decode_eerd : decodeTableWord 24 0b00000000_00000000_11110001 = some .eerd := by decide
theorem test_decode_eeaddr : decodeTableWord 24 0b00000001_00000000_11110010 = some (.eeaddr 0x10) := by decide
theorem test_decode_eewr : decodeTableWord 24 0b00001010_00000111_11110011 = some (.eewr 0xA7) := by decide
theorem test_decode_query : decodeTableWord 24 0b00000000_00000000_11110101 = some .query := by decide
theorem test_decode_mode5 : decodeTableWord 24 0b00000000_00000000_11110110 = some .mode5 := by decide
theorem test_decode_mode4 : decodeTableWord 24 0b00000000_00000000_11110111 = some .mode4 := by decide
theorem test_decode_stop : decodeTableWord 24 0b00000000_00000000_11111111 = some .stop := by decide

/-- Outside the map (R74): the alternative speed base of C4, a channel-bit that is not one-hot, an operand byte above
its field, an operand byte of a frame without operands, a frame of two bytes. -/
theorem test_decode_refuses :
    decode 0x0E [0x5A, 0x5A, 0xE0] = .error .unassignedOpcode ∧ decode 0x0E [0, 0, 0x93] = .error .badChannelBit ∧
    decode 0x0E [0x10, 0, 0xB1] = .error .badOperandByte ∧ decode 0x0E [0, 4, 0x91] = .error .badOperandByte ∧
    decode 0x0E [0, 1, 0x85] = .error .badOperandByte ∧ decode 0x0E [0, 0xFF] = .error .wrongLength := by decide
/-- Under the alternative base that C4 records the speed frame is `5A 5A E3`, and the written one is no instruction. -/
theorem test_decode_otherBase :
    decode 0xE0 [0x5A, 0x5A, 0xE3] = .ok .speed3 ∧ decode 0xE0 [0x5A, 0x5A, 0x11] = .error .unassignedOpcode ∧
    encode 0xE0 .speed3 = ⟨0x5A, 0x5A, 0xE3⟩ := by decide

/-! ### Small states -/

/-- A call that succeeds and reports 3 bytes. -/
def okAnswer : Answer := { ok := true, count := 3, lost := 0, arrived := [], time := default }

/-- A call that fails. -/
def failAnswer : Answer := { ok := false, count := 0, lost := 0, arrived := [], time := default }

/-- A call during which bytes arrive. -/
def arrival (bs : List Byte) : Answer := { ok := true, count := 14, lost := 0, arrived := bs, time := default }

/-- An open, idle block, with these answers to come. -/
def opened (answers : List Answer) : State := { State.reset with isOpen := true, answers := answers }

/-- The same with a request. -/
def asked (o : Op) (answers : List Answer) : State := { opened answers with requests := [.op o] }

/-- A block at a place of an operation. -/
def inside (o : Op) (place : Place) (answers : List Answer) : State :=
  { opened answers with seq := .running { startOf o with place := place } }
/-- Answers that let up to this many calls succeed, and then the given ones. -/
def oks (n : Nat) (l : List Answer) : List Answer := List.replicate n okAnswer ++ l

/-- How many calls of the Transport an emission makes. -/
def calls : Emit → Nat
  | .frame _ => 2
  | .flushOut => 1

/-- How many calls of the Transport emissions make. -/
def callsOf (es : List Emit) : Nat := (es.map calls).sum

/-- As many good answers as there are calls make every emission accepted, and leave the rest. -/
theorem accepts_calls (es : List Emit) (n : Nat) (l : List Answer) (s : State) (h : s.answers = oks n l)
    (hn : callsOf es ≤ n) : accepts es s ∧ (s.emitAll es).answers = oks (n - callsOf es) l := by
  induction es generalizing n s with
  | nil => exact ⟨trivial, h⟩
  | cons e es ih =>
    simp only [callsOf, List.map_cons, List.sum_cons] at hn ih ⊢
    cases e with
    | frame f =>
      obtain ⟨k, rfl⟩ : ∃ k, n = k + 2 := ⟨n - 2, by simp only [calls] at hn; omega⟩
      have h0 : s.answers = okAnswer :: okAnswer :: oks k l := by rw [h]; simp [oks, List.replicate_succ]
      obtain ⟨h1, h2⟩ := ih k (s.emit (.frame f)) (by simp [State.emit, State.sent, h0])
        (by simp only [calls] at hn; omega)
      exact ⟨accepts_cons.mpr ⟨by simp [accepts, State.answer, h0, okAnswer], h1⟩,
        by rw [emitAll_cons, h2, calls]; congr 1; omega⟩
    | flushOut =>
      obtain ⟨k, rfl⟩ : ∃ k, n = k + 1 := ⟨n - 1, by simp only [calls] at hn; omega⟩
      have h0 : s.answers = okAnswer :: oks k l := by rw [h]; simp [oks, List.replicate_succ]
      obtain ⟨h1, h2⟩ := ih k (s.emit .flushOut) (by simp [State.emit, h0]) (by simp only [calls] at hn; omega)
      exact ⟨accepts_cons.mpr ⟨by simp [accepts, State.answer, h0, okAnswer], h1⟩,
        by rw [emitAll_cons, h2, calls]; congr 1; omega⟩

/-- Two good answers for each emission make every one accepted. -/
theorem accepts_oks (es : List Emit) (n : Nat) (l : List Answer) (s : State) (h : s.answers = oks n l)
    (hn : 2 * es.length ≤ n) : accepts es s := by
  refine (accepts_calls es n l s h (le_trans ?_ hn)).1
  rw [Nat.mul_comm, ← List.length_map (f := calls) (as := es)]
  refine List.sum_le_card_nsmul _ _ fun x hx => ?_
  obtain ⟨e, -, rfl⟩ := List.mem_map.mp hx
  cases e <;> simp [calls]

/-- A failing answer after fewer good ones than there are calls makes the emissions fail. -/
theorem emitsFail_calls (es : List Emit) (n : Nat) (s : State) (h : s.answers = oks n [failAnswer])
    (hn : n < callsOf es) : ∃ e u, EmitsFail es s e u := by
  induction es generalizing n s with
  | nil => simp [callsOf] at hn
  | cons e es ih =>
    simp only [callsOf, List.map_cons, List.sum_cons] at hn ih
    by_cases h1 : calls e ≤ n
    · obtain ⟨h2, h3⟩ := accepts_calls [e] n _ s h (by simpa [callsOf] using h1)
      obtain ⟨x, u, hu⟩ := ih _ (s.emit e) h3 (by simp [callsOf]; omega)
      exact ⟨x, u, .later e es s x u h2 hu⟩
    · cases e with
      | frame f =>
        obtain rfl | rfl : n = 0 ∨ n = 1 := by simp only [calls] at h1; omega
        · exact ⟨_, _, .write f es s (by simp [State.answer, h, oks, failAnswer])⟩
        · exact ⟨_, _, .flushIn f es s (by simp [State.answer, h, oks, okAnswer])
            (by simp [State.answer, h, oks, okAnswer]) (by simp [State.answer, h, oks, failAnswer])⟩
      | flushOut =>
        obtain rfl : n = 0 := by simp only [calls] at h1; omega
        exact ⟨_, _, .flushOut es s (by simp [State.answer, h, oks, failAnswer])⟩

/-- The same for emissions that follow accepted ones. -/
theorem emitsFail_after (es fs : List Emit) (n : Nat) (s : State) (h : s.answers = oks n [failAnswer])
    (he : callsOf es ≤ n) (hf : n < callsOf es + callsOf fs) :
    accepts es s ∧ ∃ e u, EmitsFail fs (s.emitAll es) e u :=
  ⟨(accepts_calls es n _ s h he).1, emitsFail_calls fs _ _ (accepts_calls es n _ s h he).2 (by omega)⟩

/-- The events a next state logged and what was delivered; nothing for a stop. -/
def outcome (o : Host.Outcome State Fault Refusal) : Option (List Event × List Completion) :=
  match o with
  | .next t => some (t.trace, t.results)
  | _ => none

/-- The trace of a SEND (R80). -/
def sendTrace (b1 b2 b3 : Byte) : List Event := [.tx ⟨b1, b2, b3⟩ (some 3), .flushIn true, .settle]

/-! ### One instruction each: the frame it sends (V1) -/

theorem test_act : outcome (exec (.act 0b0101) (opened (oks 2 []))) = some (sendTrace 0 0 0x85, [.done .empty]) := by
  decide
theorem test_act_bad :
    outcome (exec (.act 16) (opened (oks 2 []))) = some ([], [.raised (.invalidParameter .mask)]) := by decide
theorem test_reinit : outcome (exec (.reinit 15) (opened (oks 2 []))) = some (sendTrace 0 0 0xDF, [.done .empty]) := by
  decide
theorem test_intype : outcome (exec (.intype 4 3) (opened (oks 2 []))) = some (sendTrace 0 3 0x98, [.done .empty]) := by
  decide
theorem test_intype_order :
    outcome (exec (.intype 5 4) (opened (oks 2 []))) = some ([], [.raised (.invalidParameter .channel)]) := by decide
theorem test_freqlo :
    outcome (exec (.freqlo 4 2742) (opened (oks 2 []))) = some (sendTrace 0x0B 0x06 0xB8, [.done .empty]) := by decide
theorem test_freqlo_bad :
    outcome (exec (.freqlo 2 65536) (opened (oks 2 []))) = some ([], [.raised (.invalidParameter .divisor)]) := by
  decide
theorem test_freqhi :
    outcome (exec (.freqhi 1 384) (opened (oks 2 []))) = some (sendTrace 0x00 0x01 0xA1, [.done .empty]) := by decide
theorem test_freqhi_top :
    outcome (exec (.freqhi 2 0xFFFF) (opened (oks 2 []))) = some (sendTrace 0x0F 0x0F 0xA2, [.done .empty]) := by decide
theorem test_gaincal :
    outcome (exec (.gaincal 2 3 5) (opened (oks 2 []))) = some (sendTrace 0x03 0x05 0xC2, [.done .empty]) := by decide
theorem test_gaincal_bad :
    outcome (exec (.gaincal 1 8 8) (opened (oks 2 []))) = some ([], [.raised (.invalidParameter .calibration)]) := by
  decide
theorem test_tmrrst : outcome (exec .tmrrst (opened (oks 2 []))) = some (sendTrace 0 0 0xF0, [.done .empty]) := by decide
theorem test_eerd : outcome (exec .eerd (opened (oks 2 []))) = some (sendTrace 0 0 0xF1, [.done .empty]) := by decide
theorem test_eeaddr :
    outcome (exec (.eeaddr 0x10) (opened (oks 2 []))) = some (sendTrace 0x01 0x00 0xF2, [.done .empty]) := by decide
theorem test_eewr :
    outcome (exec (.eewr 0xA7) (opened (oks 2 []))) = some (sendTrace 0x0A 0x07 0xF3, [.done .empty]) := by decide
theorem test_query : outcome (exec .query (opened (oks 2 []))) = some (sendTrace 0 0 0xF5, [.done .empty]) := by decide
theorem test_mode5 : outcome (exec .mode5 (opened (oks 2 []))) = some (sendTrace 0 0 0xF6, [.done .empty]) := by decide
theorem test_mode4 : outcome (exec .mode4 (opened (oks 2 []))) = some (sendTrace 0 0 0xF7, [.done .empty]) := by decide
theorem test_stop : outcome (exec .stop (opened (oks 2 []))) = some (sendTrace 0 0 0xFF, [.done .empty]) := by decide
theorem test_speed0 :
    outcome (exec .speed0 (opened (oks 2 []))) = some (sendTrace 0x5A 0x5A 0x0E, [.done .empty]) := by decide
theorem test_speed1 :
    outcome (exec .speed1 (opened (oks 2 []))) = some (sendTrace 0x5A 0x5A 0x0F, [.done .empty]) := by decide
theorem test_speed2 :
    outcome (exec .speed2 (opened (oks 2 []))) = some (sendTrace 0x5A 0x5A 0x10, [.done .empty]) := by decide
theorem test_speed3 :
    outcome (exec .speed3 (opened (oks 2 []))) = some (sendTrace 0x5A 0x5A 0x11, [.done .empty]) := by decide
theorem test_speed4 :
    outcome (exec .speed4 (opened (oks 2 []))) = some (sendTrace 0x5A 0x5A 0x12, [.done .empty]) := by decide
theorem test_speed5 :
    outcome (exec .speed5 (opened (oks 2 []))) = some (sendTrace 0x5A 0x5A 0x13, [.done .empty]) := by decide

/-- A write that reports 2 bytes: no flush, no settle (V1). -/
theorem test_stop_shortWrite :
    outcome (exec .stop (opened [{ okAnswer with count := 2 }])) =
      some ([.tx ⟨0, 0, 0xFF⟩ (some 2)], [.raised (.transportError .shortWrite)]) := by decide
/-- A flush that fails: no settle (V6). -/
theorem test_stop_flushFails :
    outcome (exec .stop (opened [okAnswer, failAnswer])) =
      some ([.tx ⟨0, 0, 0xFF⟩ (some 3), .flushIn false], [.raised (.transportError .flush)]) := by decide

/-- SPEED under another base (R6, C4). -/
theorem test_speed_otherBase :
    outcome (exec .speed3 { opened (oks 2 []) with params := { Params.default with speedBase := 0xE0 } }) =
      some (sendTrace 0x5A 0x5A 0xE3, [.done .empty]) := by decide

/-- The word placed for the next step is the one that runs, here as the first after reset: the block is not open (V1). -/
theorem test_withFetchWord_reset :
    outcome (step (State.reset.withFetchWord 24 0x0000FF)) = some ([], [.raised .notOpen]) := by decide
/-- The same in an open block. -/
theorem test_withFetchWord_open :
    outcome (step ((opened (oks 2 [])).withFetchWord 24 0x0A07F3)) =
      some (sendTrace 0x0A 0x07 0xF3, [.done .empty]) := by decide

/-! ### Single steps of the operations -/

/-- Where SEQ is after a step. -/
def seqAfter (o : Host.Outcome State Fault Refusal) : Option Place :=
  match o with
  | .next t => match t.seq with
    | .running p => some p.place
    | .idle => none
  | _ => none

/-- A frame-level instruction issued with its operands takes one primitive a step: the write of its line 2 first, then
the test of the count (R26, R80). -/
theorem test_frame_write :
    outcome (step (inside (.frame .stop) ⟨2, 0, 0⟩ [okAnswer])) = some ([.tx ⟨0, 0, 0xFF⟩ (some 3)], []) ∧
    seqAfter (step (inside (.frame .stop) ⟨2, 0, 0⟩ [okAnswer])) = some ⟨2, 0, 1⟩ := by decide
/-- A count of 2 ends it at SEND step 2 (V1). -/
theorem test_frame_shortWrite :
    outcome (step (inside (.frame .stop) ⟨2, 0, 1⟩ [])) = some ([], [.raised (.transportError .shortWrite)]) := by decide
/-- SETACTIVE -, T, F, - from 0b0001 (V3): the round of channel 2 flips bit 1, that of channel 3 nothing. -/
theorem test_setactive_rounds :
    flagAgrees 0b0001 .ch2 (some true) = false ∧ (0b0001#4 ^^^ Channel.ch2.bit) = 0b0011 ∧
    flagAgrees 0b0011 .ch3 (some false) = true ∧
    seqAfter (step (inside (.setactive none (some true) none none) ⟨3, 0, 0⟩ [])) = some ⟨3, 0, 3⟩ := by decide
/-- SETBYTEMODE 5 in 4-byte mode: test, frame, then FW (V3). -/
theorem test_setbytemode_order :
    inPlace (setbytemodeBlocks 5) =
      [.testOpen, .test none, .modeTest .five 6, .testOpen, .write (.frame ⟨0, 0, 0xF6⟩), .countTest] ++
      [.flushIn, .settle, .writeFw .five] := by decide
/-- CLOSE keeps the failure of the stop, its line 3, and goes on at its line 4 (V3). -/
theorem test_close_catches :
    (match step (inside .close ⟨3, 0, 2⟩ [failAnswer]) with | .next t => t.seq | _ => .idle) =
      .running { startOf .close with place := ⟨4, 0, 0⟩, err := some (.transportError .write) } := by decide
/-- STOPOP with a failing FlushOut (V6). -/
theorem test_stopop_flushOut :
    outcome (step (inside .stopop ⟨3, 0, 0⟩ [failAnswer])) =
      some ([.flushOut false], [.raised (.transportError .flush)]) := by decide
/-- SETGAINCAL 9, 9, 3: operands left to right (V6), and NotOpen before them. -/
theorem test_setgaincal_priority :
    outcome (step (inside (.setgaincal 9 9 3) ⟨1, 0, 1⟩ [])) = some ([], [.raised (.invalidParameter .channel)]) ∧
    outcome (step { inside (.setgaincal 9 9 3) ⟨1, 0, 0⟩ [] with isOpen := false }) = some ([], [.raised .notOpen]) := by
  decide
/-- INITIALIZE with a channel named twice: the last of its eleven operand checks (V6). -/
theorem test_bringUp_duplicate :
    outcome (step (inside (.bringUp [⟨1, 50, 1, 0, .lineA⟩, ⟨1, 100, 2, 0, .lineA⟩] (some false)) ⟨1, 0, 11⟩ [])) =
      some ([], [.raised (.invalidParameter .duplicateChannel)]) := by decide
/-- INITIALIZE whose second configuration asks for 4 Hz: no frame (V6). -/
theorem test_bringUp_frequency :
    outcome (step (inside (.bringUp [⟨1, 50, 1, 0, .lineA⟩, ⟨2, 4, 2, 0, .lineA⟩] (some false)) ⟨1, 0, 7⟩ [])) =
      some ([], [.raised (.invalidParameter .frequency)]) := by decide
/-- Inside INITIALIZE SEQ names the configuration being applied: after the last primitive of the first round, the
settle of its INTYPE, comes the first of the second (R26, R110). -/
theorem test_bringUp_rounds :
    seqAfter (step (inside (.bringUp [⟨1, 50, 1, 0, .lineA⟩, ⟨2, 50, 2, 0, .lineA⟩] none) ⟨5, 1, 45⟩ [])) =
      some ⟨5, 2, 0⟩ := by decide
/-- The read of READSAMPLE asks for FW bytes and takes them from the head of the input buffer (X5). -/
theorem test_readsample_read :
    (match step (inside .readsample ⟨2, 0, 0⟩ [arrival [0x30, 0, 0, 0, 0x18]]) with
      | .next t => (t.rx, t.trace) | _ => ([], [])) =
      ([0x18], [.rx 4 (some [0x30, 0, 0, 0])]) := by decide
/-- With no bound EEWRITE keeps no counter; with one it counts (R26, R115). -/
theorem test_eewrite_counts :
    countedPolls Params.default 0 = 0 ∧ countedPolls { Params.default with eePollMax := some 2 } 0 = 1 := by decide

/-! ### The sample decoder (V4, X4, X5) -/

/-- GAINC with one code in every cell. -/
def gains (g : BitVec 3) : GainTable := ⟨some g, some g, some g, some g⟩

theorem test_sample_scenario :
    decodeParts 0x30 0 0 0 none (gains 0) .raw = .ok ⟨.ch4, -8388608, 0, none⟩ := by rfl
theorem test_sample_code : sampleCode 0x24 0x12 0x34 0x56 = 0x424D2B := by decide
theorem test_sample_ored : sampleCode 0x01 0x80 0 0 = 0x100000 ∧ sampleCode 0 0x80 0 0 = 0x100000 := by decide
theorem test_sample_mv :
    decodeParts 0x2C 0 0 0 (some 0xA7) (gains 1) .mv = .ok ⟨.ch3, 10485760000, 24, some 0xA7⟩ := by rfl
theorem test_sample_negative :
    decodeParts 0x17 0x7F 0x7F 0x7E none (gains 3) .raw = .ok ⟨.ch2, -1, 3, none⟩ := by rfl
theorem test_sample_unset :
    decodeParts 0x18 0 0 0 none ⟨some 0, none, none, none⟩ .raw = .error (.gainUnset .ch2) := by rfl

/-- Equal values at unreduced pairs (R140): 2 / 2 and 1 / 1 are the same, 1 / 2 is not. -/
theorem test_sample_sameValue :
    Sample.sameValue ⟨default, .ch1, 2, 1, none⟩ ⟨default, .ch2, 1, 0, none⟩ = true ∧
    Sample.sameValue ⟨default, .ch1, 1, 1, none⟩ ⟨default, .ch1, 1, 0, none⟩ = false := by decide
/-- Two digits for hours, minutes and seconds, six for the fraction (R142). -/
theorem test_sample_digits :
    paddedText 2 7 = "07" ∧ paddedText 2 59 = "59" ∧ paddedText 6 42 = "000042" ∧ paddedText 6 999999 = "999999" := by
  decide

/-! ### Frequency and read-back (V2, V5, X6, X8) -/

theorem test_divisor : divisor 7 = 2742 ∧ divisor 961 = 19 ∧ divisor 5 = 3840 := by decide
theorem test_freq_refused :
    chkFreq 4 = some (.invalidParameter .frequency) ∧ chkFreq ⟨101, 2, by decide, by decide⟩ = some (.invalidParameter .frequency) ∧
    chkFreq 1001 = some (.invalidParameter .frequency) ∧ chkFreq 5 = none ∧ chkFreq 1000 = none := by decide
theorem test_gain : gaincode 128 = some 7 ∧ gaincode 3 = none ∧ gainFromCode 5 = 32 := by decide
theorem test_group : decodeGroup 3 0x01 0x00 0xAD = .report 3 256 19200 256 2 5 5 32 := by decide
theorem test_group_zero : decodeGroup 2 0x00 0x00 0x80 = .zeroDivisor 2 := by decide
theorem test_record_marker :
    checkRecord [0xEA, 0xEE, 0x0F, 0, 0, 0x0F, 0, 0x40, 0x0F, 0, 0x80, 0x0F, 0, 0xC0] =
      some (.malformedReadback .marker) := by decide
theorem test_record_length : checkRecord [0xEE, 0xEA] = some (.malformedReadback .length) := by decide
theorem test_line :
    slotLine (decodeGroup 1 0x0F 0x00 0x00) =
      "ADC_Channel #1\tfrequency 5\tad7714_channel 0\tcalibration 0\tgain 1" := by decide

/-! ### Witnesses: encoding -/

theorem witness_DecodeGivesBackEncodedInstruction :
    (Instr.act 15).wellFormed = true ∧ (Instr.freqhi 4 65535).wellFormed = true ∧
    (Instr.gaincal 4 7 7).wellFormed = true ∧ (Instr.eewr 255).wellFormed = true ∧ Instr.stop.wellFormed = true := by
  decide
theorem witness_DecoderAcceptsOnlyFramesOfTheMap :
    decode 0x0E [0x0F, 0x0F, 0xB8] = .ok (.freqlo 4 255) ∧
    ((Instr.freqlo 4 255).wellFormed = true ∧ (Instr.freqlo 4 255).canonical = .freqlo 4 255 ∧
      (encode 0x0E (.freqlo 4 255)).bytes = [0x0F, 0x0F, 0xB8]) ∧
    decode 0xE0 [0x5A, 0x5A, 0xE0] = .ok .speed0 ∧ decode 0x0E [0x00, 0x00, 0x80] = .ok (.act 0) := by decide
/-- One frame for each reason, at the ends of the ranges. -/
theorem witness_FramesOutsideTheMapAreRefused :
    ((0x0D : Byte).toNat ≤ 0x0D ∧ 0x14 ≤ (0x14 : Byte).toNat ∧ (0x7F : Byte).toNat ≤ 0x7F ∧
      0xE0 ≤ (0xE0 : Byte).toNat ∧ (0xEF : Byte).toNat ≤ 0xEF ∧ (0xF4 : Byte).toNat = 0xF4 ∧
      0xF8 ≤ (0xF8 : Byte).toNat ∧ (0xFE : Byte).toNat ≤ 0xFE) ∧
    (0x90 ≤ (0x90 : Byte).toNat ∧ (0x90 : Byte).toNat % 16 = 0 ∧ (0xCF : Byte).toNat ≤ 0xCF ∧
      (0xCF : Byte).toNat % 16 = 15) ∧
    (0x0F < (0x10 : Byte).toNat ∧ (0x10 : Byte).toNat ≠ 0x5A ∧ 0x0F < (0xFF : Byte).toNat ∧
      (0xFF : Byte).toNat ≠ 0x5A) ∧
    (3 < (4 : Byte).toNat ∧ (0x91 : Byte).toNat ≤ 0x9F) ∧ (7 < (8 : Byte).toNat ∧ 0xC0 ≤ (0xC1 : Byte).toNat) ∧
    ((0x0E : Byte).toNat ≤ 0x7F ∧ ¬((0xE0 : SpeedBase).val ≤ (0x0E : Byte).toNat)) ∧
    ((0xE5 : Byte).toNat ≤ 0xEF ∧ (0xE5 : Byte).toNat ≤ (0xE0 : SpeedBase).val + 5 ∧ (0 : Byte).toNat ≠ 0x5A) := by
  decide

/-! ### Witnesses: the frame-level instructions -/

/-- Whatever the emission and whatever follows it, a write that fails, a short write and a flush that fails each meet
`EmitsFail`. -/
theorem emitsFail_firstFrame (f : Frame) (es : List Emit) (s : State) :
    (s.answers = [failAnswer] → EmitsFail (.frame f :: es) s (.transportError .write) (s.draw.log (.tx f none))) ∧
    (s.answers = [{ okAnswer with count := 2 }] →
      EmitsFail (.frame f :: es) s (.transportError .shortWrite) (s.draw.log (.tx f (some s.answer.count)))) ∧
    (s.answers = [okAnswer, failAnswer] →
      EmitsFail (.frame f :: es) s (.transportError .flush)
        ((s.draw.log (.tx f (some 3))).draw.log (.flushIn false))) := by
  refine ⟨fun h => .write f es s (by simp [answer_of_cons h, failAnswer]), fun h => .short f es s ?_ ?_,
    fun h => .flushIn f es s ?_ ?_ ?_⟩ <;> simp [State.answer, h, okAnswer, failAnswer]

/-- The failing output flush of a stop whose frame was accepted. -/
theorem emitsFail_flushOut (s : State) (h : s.answers = oks 2 [failAnswer]) :
    EmitsFail stopEmits s (.transportError .flush) ((s.sent ⟨0x00, 0x00, 0xFF⟩).draw.log (.flushOut false)) := by
  refine .later _ _ s _ _ (accepts_oks [_] 2 [failAnswer] s h (by simp)) (.flushOut [] _ ?_)
  simp [State.answer, State.emit, h, oks, okAnswer, failAnswer]

/-- A second frame that fails after a first accepted one. -/
theorem emitsFail_second (f g : Frame) (es : List Emit) (s : State) (h : s.answers = oks 2 [failAnswer]) :
    EmitsFail (.frame f :: .frame g :: es) s (.transportError .write) ((s.sent f).draw.log (.tx g none)) := by
  refine .later _ _ s _ _ (accepts_oks [_] 2 [failAnswer] s h (by simp)) (.write g es _ ?_)
  simp [State.answer, State.emit, h, oks, okAnswer, failAnswer]

/-- The hypotheses of `FrameLaw`, whatever the frame: a closed block; an open one with a Transport that accepts, whose
write fails, whose write is short, whose flush fails; an instruction that answers a next state. -/
theorem witness_frameLaw (f : Frame) :
    State.reset.isOpen = false ∧
    ((opened (oks 2 [])).isOpen = true ∧ accepts [.frame f] (opened (oks 2 []))) ∧
    (∃ u, EmitsFail [.frame f] (opened [failAnswer]) (.transportError .write) u) ∧
    (∃ u, EmitsFail [.frame f] (opened [{ okAnswer with count := 2 }]) (.transportError .shortWrite) u) ∧
    (∃ u, EmitsFail [.frame f] (opened [okAnswer, failAnswer]) (.transportError .flush) u) ∧
    ∃ t, exec .stop (opened (oks 2 [])) = .next t :=
  ⟨rfl, ⟨rfl, rfl, rfl, rfl, trivial⟩, ⟨_, (emitsFail_firstFrame f [] _).1 rfl⟩,
    ⟨_, (emitsFail_firstFrame f [] _).2.1 rfl⟩, ⟨_, (emitsFail_firstFrame f [] _).2.2 rfl⟩, ⟨_, rfl⟩⟩

/-- Masks at both sides of both ends. -/
theorem witness_ActSendsItsMask :
    (∀ m : Int, m = 0 ∨ m = 15 → (if 0 ≤ m ∧ m ≤ 15 then none else some (Exc.invalidParameter .mask)) = none) ∧
    (∀ m : Int, m = -1 ∨ m = 16 →
      (if 0 ≤ m ∧ m ≤ 15 then none else some (Exc.invalidParameter .mask)) = some (.invalidParameter .mask)) := by
  constructor <;> rintro m (rfl | rfl) <;> rfl
theorem witness_ReinitSendsItsMask :
    (if (0 : Int) ≤ 15 ∧ (15 : Int) ≤ 15 then none else some (Exc.invalidParameter .mask)) = none ∧
    (if (0 : Int) ≤ 16 ∧ (16 : Int) ≤ 15 then none else some (Exc.invalidParameter .mask)) ≠ none := by decide
theorem witness_IntypeSendsItsCode :
    ((1 : Int) ≤ 1 ∧ (4 : Int) ≤ 4 ∧ (0 : Int) ≤ 0 ∧ (3 : Int) ≤ 3) ∧ ¬((1 : Int) ≤ 0 ∧ (0 : Int) ≤ 4) ∧
    ¬((1 : Int) ≤ 5 ∧ (5 : Int) ≤ 4) ∧ ¬((0 : Int) ≤ 4 ∧ (4 : Int) ≤ 3) := by decide
theorem witness_FreqloSendsLowByte :
    ((1 : Int) ≤ 4 ∧ (4 : Int) ≤ 4 ∧ (0 : Int) ≤ 65535 ∧ (65535 : Int) ≤ 65535) ∧
    ¬((0 : Int) ≤ 65536 ∧ (65536 : Int) ≤ 65535) ∧ ¬((0 : Int) ≤ -1 ∧ (-1 : Int) ≤ 65535) := by decide
theorem witness_FreqhiSendsHighByte :
    ((1 : Int) ≤ 1 ∧ (1 : Int) ≤ 4 ∧ (0 : Int) ≤ 0 ∧ (0 : Int) ≤ 65535) ∧
    ¬((0 : Int) ≤ 65536 ∧ (65536 : Int) ≤ 65535) ∧ ¬((1 : Int) ≤ -1 ∧ (-1 : Int) ≤ 4) := by decide
theorem witness_GaincalSendsItsCodes :
    ((0 : Int) ≤ 7 ∧ (7 : Int) ≤ 7) ∧ ¬((1 : Int) ≤ 5 ∧ (5 : Int) ≤ 4) ∧ ¬((0 : Int) ≤ 8 ∧ (8 : Int) ≤ 7) ∧
    ¬((0 : Int) ≤ -1 ∧ (-1 : Int) ≤ 7) := by decide
theorem witness_EepromFramesSendNibbles :
    ((0 : Int) ≤ 255 ∧ (255 : Int) ≤ 255) ∧ ¬((0 : Int) ≤ 256 ∧ (256 : Int) ≤ 255) ∧
    ¬((0 : Int) ≤ -1 ∧ (-1 : Int) ≤ 255) := by decide

/-- The hypotheses of `Finishes`: idle, with the operation as the next request. -/
def issues (o : Op) (s : State) : Prop := s.seq = .idle ∧ s.requests = .op o :: []

/-- The open block of the tests meets them for every operation. -/
theorem asked_issues (o : Op) (l : List Answer) : issues o (asked o l) ∧ (asked o l).isOpen = true :=
  ⟨⟨rfl, rfl⟩, rfl⟩

theorem witness_SpeedSendsGuardedIndex :
    (issues (.speed 6) (asked (.speed 6) []) ∧ ¬((0 : Int) ≤ 6 ∧ (6 : Int) ≤ 5)) ∧
    (issues (.speed (-1)) (asked (.speed (-1)) []) ∧ ¬((0 : Int) ≤ -1 ∧ (-1 : Int) ≤ 5)) ∧
    (∀ i : Int, i = 0 ∨ i = 5 → 0 ≤ i ∧ i ≤ 5 ∧ issues (.speed i) (asked (.speed i) (oks 2 [])) ∧
      accepts [.frame (frameOfInts 0x5A 0x5A ((asked (.speed i) (oks 2 [])).params.speedBase.val + i))]
        (asked (.speed i) (oks 2 []))) ∧
    (∃ u, EmitsFail [.frame (frameOfInts 0x5A 0x5A ((asked (.speed 5) [failAnswer]).params.speedBase.val + 5))]
      (asked (.speed 5) [failAnswer]) (.transportError .write) u) := by
  refine ⟨⟨⟨rfl, rfl⟩, by decide⟩, ⟨⟨rfl, rfl⟩, by decide⟩, ?_, ⟨_, (emitsFail_firstFrame _ [] _).1 rfl⟩⟩
  rintro i (rfl | rfl) <;> exact ⟨by decide, by decide, ⟨rfl, rfl⟩, rfl, rfl, rfl, trivial⟩

/-- One instruction of each constructor, at an end of its operands' sets. -/
def everyInstr : List Instr :=
  [.act 15, .intype 4 3, .freqhi 4 65535, .freqlo 1 0, .gaincal 4 7 7, .reinit 0, .speed0, .speed1, .speed2, .speed3] ++
  [.speed4, .speed5, .tmrrst, .eerd, .eeaddr 255, .eewr 0, .query, .mode5, .mode4, .stop]

theorem witness_EveryInstructionSendsItsEncoding :
    ∀ i ∈ everyInstr, (opened (oks 2 [])).isOpen = true ∧ i.wellFormed = true ∧
      accepts [.frame (encode (opened (oks 2 [])).params.speedBase i)] (opened (oks 2 [])) :=
  fun i h => ⟨rfl, (show ∀ j ∈ everyInstr, j.wellFormed = true by decide) i h, rfl, rfl, rfl, trivial⟩

/-! ### Witnesses: primitives, SEQ, exceptions -/

theorem witness_SendWritesFlushesSettles :
    ((opened (oks 2 [])).answer.ok = true ∧ (opened (oks 2 [])).answer.count = 3 ∧
      (opened (oks 2 [])).draw.answer.ok = true) ∧
    (opened [failAnswer]).answer.ok = false ∧
    ((opened [{ okAnswer with count := 4 }]).answer.ok = true ∧
      (opened [{ okAnswer with count := 4 }]).answer.count ≠ 3) ∧
    ((opened [okAnswer, failAnswer]).answer.ok = true ∧ (opened [okAnswer, failAnswer]).answer.count = 3 ∧
      (opened [okAnswer, failAnswer]).draw.answer.ok = false) :=
  ⟨⟨rfl, rfl, rfl⟩, rfl, ⟨rfl, by decide⟩, ⟨rfl, rfl, rfl⟩⟩
theorem witness_ReadTakesFromTheHead :
    (opened [arrival [0x12]]).answer.ok = true ∧ (opened [failAnswer]).answer.ok = false := ⟨rfl, rfl⟩
theorem witness_ReadAfterSendSeesOnlyLaterBytes :
    ∃ t u, sendFrame ⟨0, 0, 0xF1⟩ (opened (oks 2 [arrival [0x12, 0x34, 0x56]])) = .ok () t ∧
      memRead 2 t = .ok [0x12, 0x34] u := ⟨_, _, rfl, rfl⟩
/-- Positions for both halves: another operation, CLOSE just before and just after its line 3, an exception of another
class on line 3, and a TransportError on line 3. -/
theorem witness_ExceptionEndsOperation :
    ({ startOf .stopop with place := ⟨3, 0, 0⟩ } : Position).op ≠ .close ∧
    ({ startOf .close with place := ⟨2, 0, 0⟩ } : Position).place.line ≠ 3 ∧
    ({ startOf .close with place := ⟨4, 0, 0⟩ } : Position).place.line ≠ 3 ∧
    (∀ k, Exc.notOpen ≠ .transportError k) ∧
    (({ startOf .close with place := ⟨3, 0, 6⟩ } : Position).op = .close ∧
      ({ startOf .close with place := ⟨3, 0, 6⟩ } : Position).place.line = 3) := by
  refine ⟨?_, ?_, ?_, ?_, ?_⟩ <;> simp [startOf]
/-- A step with steps after it, the last step, and the line a loop goes back to. -/
theorem witness_SeqAdvancesOrEnds :
    program Params.default .stopop =
      (program Params.default .stopop).take 1 ++ (⟨2, 0, 0⟩, .testOpen) :: (program Params.default .stopop).drop 2 ∧
    (program Params.default .stopop).drop 2 =
      (⟨2, 0, 1⟩, .write (.frame ⟨0, 0, 0xFF⟩)) :: (program Params.default .stopop).drop 3 ∧
    program Params.default .stopop = (program Params.default .stopop).take 6 ++ (⟨3, 0, 0⟩, .flushOut) :: [] ∧
    program Params.default (.eewrite 5) =
      (program Params.default (.eewrite 5)).take 7 ++ (⟨3, 0, 0⟩, .read 1) :: (program Params.default (.eewrite 5)).drop 8 ∧
    (∀ x ∈ (program Params.default (.eewrite 5)).take 7, x.1.line ≠ 3) := by decide
theorem witness_StepRunsTheInstruction :
    (State.reset.withFetchWord 24 0x0A07F3).seq = .idle ∧
    (State.reset.withFetchWord 24 0x0A07F3).requests = .word 0x0A07F3 :: [] ∧
    decode State.reset.params.speedBase (frameOfWord (0x0A07F3 : BitVec 24).toNat).bytes = .ok (.eewr 0xA7) ∧
    decode State.reset.params.speedBase (frameOfWord (0x5A5AE0 : BitVec 24).toNat).bytes = .error .unassignedOpcode ∧
    ({ startOf .stopop with place := ⟨3, 0, 0⟩ } : Position).current Params.default = some .flushOut ∧
    ({ opened [] with requests := [.instr .stop] } : State).requests = .instr .stop :: [] ∧
    ((({ startOf .stopop with place := ⟨2, 0, 0⟩ } : Position).rest Params.default).map (·.2) =
        callSteps (instrParts Params.default.speedBase .stop) ++ [.flushOut] ∧
      Instr.stop.wellFormed = true ∧
      accepts [.frame (encode Params.default.speedBase .stop)] (inside .stopop ⟨2, 0, 0⟩ (oks 2 []))) :=
  ⟨rfl, rfl, by decide, by decide, by decide, rfl, by decide, rfl, rfl, rfl, rfl, trivial⟩

/-! ### Witnesses: construction, stop, shutdown -/

/-- A closed block with a request. -/
def closedWith (o : Op) (l : List Answer) : State := { asked o l with isOpen := false }

theorem witness_OpenConstructsTheBlock :
    (issues (.openBlock "p" none none none) (asked (.openBlock "p" none none none) []) ∧
      (asked (.openBlock "p" none none none) []).isOpen = true) ∧
    (issues (.openBlock "p" none none none) (closedWith (.openBlock "p" none none none) [okAnswer]) ∧
      (closedWith (.openBlock "p" none none none) [okAnswer]).isOpen = false ∧
      (closedWith (.openBlock "p" none none none) [okAnswer]).answer.ok = true) ∧
    (issues (.openBlock "p" none none none) (closedWith (.openBlock "p" none none none) [failAnswer]) ∧
      (closedWith (.openBlock "p" none none none) [failAnswer]).answer.ok = false) :=
  ⟨⟨⟨rfl, rfl⟩, rfl⟩, ⟨⟨rfl, rfl⟩, rfl, rfl⟩, ⟨⟨rfl, rfl⟩, rfl⟩⟩
theorem witness_NotOpenAndAlreadyOpenComeFirst :
    (issues (.setgaincal 9 9 3) (closedWith (.setgaincal 9 9 3) []) ∧
      (closedWith (.setgaincal 9 9 3) []).isOpen = false ∧
      ∀ port baud timeout mv, Op.setgaincal 9 9 3 ≠ .openBlock port baud timeout mv) ∧
    (State.reset.isOpen = false ∧ State.reset.seq = .idle) ∧
    (issues (.openBlock "p" none none none) (asked (.openBlock "p" none none none) []) ∧
      (asked (.openBlock "p" none none none) []).isOpen = true) :=
  ⟨⟨⟨rfl, rfl⟩, rfl, by intro a b c d h; cases h⟩, ⟨rfl, rfl⟩, ⟨⟨rfl, rfl⟩, rfl⟩⟩
theorem witness_StopSendsFrameThenFlushesOut :
    (issues .stopop (asked .stopop (oks 3 [])) ∧ accepts stopEmits (asked .stopop (oks 3 []))) ∧
    (∃ u, EmitsFail stopEmits (asked .stopop [failAnswer]) (.transportError .write) u) ∧
    (∃ u, EmitsFail stopEmits (asked .stopop (oks 2 [failAnswer])) (.transportError .flush) u) :=
  ⟨⟨⟨rfl, rfl⟩, rfl, rfl, rfl, rfl, trivial⟩, ⟨_, (emitsFail_firstFrame _ _ _).1 rfl⟩, ⟨_, emitsFail_flushOut _ rfl⟩⟩
theorem witness_CloseAlwaysReleases :
    (asked .close []).isOpen = true ∧ (asked .close []).seq = .idle ∧ (asked .close []).requests = .op .close :: [] :=
  ⟨rfl, rfl, rfl⟩
/-- Success, a failing close, and each of the four ways the stop can fail. -/
theorem witness_CloseReportsFirstFailure :
    (issues .close (asked .close (oks 4 [])) ∧ accepts stopEmits (asked .close (oks 4 [])) ∧
      ((asked .close (oks 4 [])).emitAll stopEmits).answer.ok = true) ∧
    (accepts stopEmits (asked .close (oks 3 [failAnswer])) ∧
      ((asked .close (oks 3 [failAnswer])).emitAll stopEmits).answer.ok = false) ∧
    (∃ u, EmitsFail stopEmits (asked .close [failAnswer]) (.transportError .write) u) ∧
    (∃ u, EmitsFail stopEmits (asked .close [{ okAnswer with count := 2 }]) (.transportError .shortWrite) u) ∧
    (∃ u, EmitsFail stopEmits (asked .close [okAnswer, failAnswer]) (.transportError .flush) u) ∧
    (∃ u, EmitsFail stopEmits (asked .close (oks 2 [failAnswer])) (.transportError .flush) u) :=
  ⟨⟨⟨rfl, rfl⟩, ⟨rfl, rfl, rfl, rfl, trivial⟩, rfl⟩, ⟨⟨rfl, rfl, rfl, rfl, trivial⟩, rfl⟩,
    ⟨_, (emitsFail_firstFrame _ _ _).1 rfl⟩, ⟨_, (emitsFail_firstFrame _ _ _).2.1 rfl⟩,
    ⟨_, (emitsFail_firstFrame _ _ _).2.2 rfl⟩, ⟨_, emitsFail_flushOut _ rfl⟩⟩

/-! ### Witnesses: configuration -/

/-- Every flag form at once: set, kept, cleared, set, from 0b0110. -/
def flagState (l : List Answer) : State :=
  { asked (.setactive (some true) none (some false) (some true)) l with active := 0b0110 }

theorem witness_SetActiveWritesMaskBetweenFrames :
    issues (.setactive (some true) none (some false) (some true)) (flagState []) ∧ (flagState []).isOpen = true ∧
    (0b1011#4).getLsbD 0 = (some true).getD ((flagState []).active.getLsbD 0) ∧
    (0b1011#4).getLsbD 1 = (none : Option Bool).getD ((flagState []).active.getLsbD 1) ∧
    (0b1011#4).getLsbD 2 = (some false).getD ((flagState []).active.getLsbD 2) ∧
    (0b1011#4).getLsbD 3 = (some true).getD ((flagState []).active.getLsbD 3) ∧
    accepts (stopEmits ++ [.frame (frameOfInts 0 0 (0x80 + ((0b1011#4).toNat : Int)))]) (flagState (oks 6 [])) ∧
    (accepts stopEmits (flagState (oks 3 [failAnswer])) ∧
      ∃ u, EmitsFail [.frame (frameOfInts 0 0 (0x80 + ((0b1011#4).toNat : Int)))]
        ((flagState (oks 3 [failAnswer])).emitAll stopEmits) (.transportError .write) u) ∧
    (∃ u, EmitsFail stopEmits (flagState [failAnswer]) (.transportError .write) u) :=
  ⟨⟨rfl, rfl⟩, rfl, by decide, by decide, by decide, by decide, accepts_oks _ 6 [] _ rfl (by decide),
    ⟨⟨rfl, rfl, rfl, rfl, trivial⟩, ⟨_, .write _ [] _ rfl⟩⟩, ⟨_, (emitsFail_firstFrame _ _ _).1 rfl⟩⟩
theorem witness_ReinitializeSendsReinitThenAct :
    issues .reinitialize (asked .reinitialize (oks 4 [])) ∧ (asked .reinitialize (oks 4 [])).isOpen = true ∧
    accepts [.frame (frameOfInts 0 0 (0xD0 + ((asked .reinitialize (oks 4 [])).active.toNat : Int))),
      .frame (frameOfInts 0 0 (0x80 + ((asked .reinitialize (oks 4 [])).active.toNat : Int)))]
      (asked .reinitialize (oks 4 [])) ∧
    (∃ u, EmitsFail [.frame (frameOfInts 0 0 (0xD0 + ((asked .reinitialize []).active.toNat : Int))),
      .frame (frameOfInts 0 0 (0x80 + ((asked .reinitialize []).active.toNat : Int)))]
      (asked .reinitialize (oks 2 [failAnswer])) (.transportError .write) u) :=
  ⟨⟨rfl, rfl⟩, rfl, accepts_oks _ 4 [] _ rfl (by decide), ⟨_, emitsFail_second _ _ [] _ rfl⟩⟩
/-- A channel and a frequency at each end, and just past it. -/
theorem witness_SetFreqSendsLowThenHigh :
    (issues (.setfreq 5 50) (asked (.setfreq 5 50) []) ∧ (asked (.setfreq 5 50) []).isOpen = true) ∧ ¬((1 : Int) ≤ 5 ∧ (5 : Int) ≤ 4) ∧ ¬((1 : Int) ≤ 0 ∧ (0 : Int) ≤ 4) ∧
    ¬((4 : Rat).den = 1 ∧ (5 : Rat) ≤ 4 ∧ (4 : Rat) ≤ 1000) ∧
    ¬((1001 : Rat).den = 1 ∧ (5 : Rat) ≤ 1001 ∧ (1001 : Rat) ≤ 1000) ∧
    ((5 : Rat) = ((5 : Int) : Rat) ∧ (1000 : Rat) = ((1000 : Int) : Rat)) ∧
    accepts [.frame (encode 0x0E (.freqlo 1 (19200 / 5))), .frame (encode 0x0E (.freqhi 1 (19200 / 5)))]
      (asked (.setfreq 1 5) (oks 4 [])) ∧
    (∃ u, EmitsFail [.frame (encode 0x0E (.freqlo 4 (19200 / 1000))), .frame (encode 0x0E (.freqhi 4 (19200 / 1000)))]
      (asked (.setfreq 4 1000) (oks 2 [failAnswer])) (.transportError .write) u) :=
  ⟨⟨⟨rfl, rfl⟩, rfl⟩, by decide, by decide, by norm_num, by norm_num, by norm_num, accepts_oks _ 4 [] _ rfl (by decide),
    ⟨_, emitsFail_second _ _ [] _ rfl⟩⟩
/-- GAINC[4] written with the greatest code; a channel, a calibration and a gain just outside their sets. -/
theorem witness_SetGainCalWritesGainAfterFrame :
    ((⟨none, none, none, some 7⟩ : GainTable).get .ch4 = some 7 ∧
      (∀ d, d ≠ Channel.ch4 →
        (⟨none, none, none, some 7⟩ : GainTable).get d = (asked (.setgaincal 4 7 128) (oks 2 [])).gainc.get d) ∧
      accepts [.frame (frameOfInts 7 ((7#3).toNat : Int) (0xC0 + channelBitTable (Channel.ch4.number : Int)))]
        (asked (.setgaincal 4 7 128) (oks 2 []))) ∧
    (∃ u, EmitsFail [.frame (frameOfInts 7 ((7#3).toNat : Int) (0xC0 + channelBitTable (Channel.ch4.number : Int)))]
      (asked (.setgaincal 4 7 128) [failAnswer]) (.transportError .write) u) ∧
    ¬((1 : Int) ≤ 9 ∧ (9 : Int) ≤ 4) ∧ ¬((0 : Int) ≤ 8 ∧ (8 : Int) ≤ 7) ∧
    (∀ g : Nat, g ≤ 7 → (3 : Rat) ≠ 2 ^ g) := by
  refine ⟨⟨rfl, by intro d hd; cases d <;> first | rfl | exact absurd rfl hd, accepts_oks _ 2 [] _ rfl (by decide)⟩,
    ⟨_, (emitsFail_firstFrame _ [] _).1 rfl⟩, by decide, by decide, ?_⟩
  intro g hg
  interval_cases g <;> norm_num
theorem witness_SetInputSendsTheCode :
    (issues (.setinput 5 (.unknownName "x")) (asked (.setinput 5 (.unknownName "x")) []) ∧ ¬((1 : Int) ≤ 5 ∧ (5 : Int) ≤ 4)) ∧
    (issues (.setinput 3 .selfVoltage) (asked (.setinput 3 .selfVoltage) (oks 2 [])) ∧
      inputCode (asked (.setinput 3 .selfVoltage) (oks 2 [])).params .selfVoltage = some 2 ∧
      accepts [.frame (frameOfInts 0 2 (0x90 + channelBitTable 3))] (asked (.setinput 3 .selfVoltage) (oks 2 []))) ∧
    (∃ u, EmitsFail [.frame (frameOfInts 0 2 (0x90 + channelBitTable 3))] (asked (.setinput 3 .selfVoltage) [failAnswer])
      (.transportError .write) u) ∧
    (∀ t : Int, inputCode (asked (.setinput 3 (.code 4)) []).params (.code 4) = some t → ¬(0 ≤ t ∧ t ≤ 3)) ∧
    (∀ t : Int, inputCode (asked (.setinput 3 (.unknownName "x")) []).params (.unknownName "x") = some t →
      ¬(0 ≤ t ∧ t ≤ 3)) :=
  ⟨⟨⟨rfl, rfl⟩, by decide⟩, ⟨⟨rfl, rfl⟩, rfl, rfl, rfl, rfl, trivial⟩, ⟨_, (emitsFail_firstFrame _ [] _).1 rfl⟩,
    by intro t h; cases h; decide, by intro t h; cases h⟩

/-- A legal configuration at the low ends and one at the high ends. -/
theorem legal_low : LegalConfig Params.default ⟨1, 5, 1, 0, .lineA⟩ :=
  ⟨⟨by decide, by decide⟩, ⟨rfl, by decide, by decide⟩, ⟨by decide, by decide⟩, ⟨0, by decide, by norm_num⟩, ⟨0, rfl, by decide, by decide⟩⟩
theorem legal_high : LegalConfig Params.default ⟨4, 1000, 128, 7, .code 3⟩ :=
  ⟨⟨by decide, by decide⟩, ⟨rfl, by decide, by decide⟩, ⟨by decide, by decide⟩, ⟨7, by decide, by norm_num⟩, ⟨3, rfl, by decide, by decide⟩⟩

/-- One configuration for each field that can be refused, every field before it legal at an end of its set and every
field after it illegal too. -/
theorem refused_each :
    RefusedConfig Params.default ⟨5, 4, 3, 8, .code 4⟩ .channel ∧
    RefusedConfig Params.default ⟨4, 1001, 3, 8, .code 4⟩ .frequency ∧
    RefusedConfig Params.default ⟨1, 5, 3, 8, .code 4⟩ .calibration ∧
    RefusedConfig Params.default ⟨1, 1000, 3, 7, .code 4⟩ .gain ∧
    RefusedConfig Params.default ⟨4, 5, 128, 0, .unknownName "x"⟩ .inputType := by
  have no3 : ¬LegalGain ⟨1, 1000, 3, 7, .code 4⟩ := by
    rintro ⟨g, hg, h⟩
    interval_cases g <;> norm_num at h
  refine ⟨?_, ⟨?_, ?_⟩, ⟨?_, ?_, ?_⟩, ⟨?_, ?_, ?_, no3⟩, ⟨?_, ?_, ?_, ⟨7, by decide, by norm_num⟩, ?_⟩⟩
  case refine_1 => rintro ⟨_, h⟩; exact absurd h (by decide)
  case refine_3 => rintro ⟨_, _, h⟩; exact absurd h (by decide)
  case refine_6 => rintro ⟨_, h⟩; exact absurd h (by decide)
  case refine_13 => rintro ⟨t, h, _⟩; cases h
  all_goals exact ⟨by decide, by decide⟩

/-- Their first three frames accepted and the fourth failing, or the third failing. -/
theorem emitsFail_configEmits (p : Params) (cfg : ChannelConfig) (s : State) (h : s.answers = oks 2 [failAnswer]) :
    ∃ e u, EmitsFail ((configEmits p cfg).take 3) s e u := ⟨_, _, emitsFail_second _ _ _ s h⟩

theorem witness_ApplyChannelSendsFourFrames :
    issues (.applych ⟨4, 1000, 128, 7, .code 3⟩) (asked (.applych ⟨4, 1000, 128, 7, .code 3⟩) (oks 8 [])) ∧
    (asked (.applych ⟨4, 1000, 128, 7, .code 3⟩) (oks 8 [])).isOpen = true ∧
    LegalConfig (asked (.applych ⟨4, 1000, 128, 7, .code 3⟩) (oks 8 [])).params ⟨4, 1000, 128, 7, .code 3⟩ ∧
    accepts (configEmits (asked (.applych ⟨4, 1000, 128, 7, .code 3⟩) (oks 8 [])).params ⟨4, 1000, 128, 7, .code 3⟩)
      (asked (.applych ⟨4, 1000, 128, 7, .code 3⟩) (oks 8 [])) ∧
    RefusedConfig (asked (.applych ⟨1, 5, 3, 8, .code 4⟩) []).params ⟨1, 5, 3, 8, .code 4⟩ .calibration ∧
    (∃ e u, EmitsFail ((configEmits Params.default ⟨4, 1000, 128, 7, .code 3⟩).take 3)
      (asked (.applych ⟨4, 1000, 128, 7, .code 3⟩) (oks 2 [failAnswer])) e u) ∧
    (accepts ((configEmits Params.default ⟨4, 1000, 128, 7, .code 3⟩).take 3)
        (asked (.applych ⟨4, 1000, 128, 7, .code 3⟩) (oks 6 [failAnswer])) ∧
      ∃ e u, EmitsFail ((configEmits Params.default ⟨4, 1000, 128, 7, .code 3⟩).drop 3)
        ((asked (.applych ⟨4, 1000, 128, 7, .code 3⟩) (oks 6 [failAnswer])).emitAll
          ((configEmits Params.default ⟨4, 1000, 128, 7, .code 3⟩).take 3)) e u) :=
  ⟨⟨rfl, rfl⟩, rfl, legal_high, accepts_oks _ 8 [] _ rfl (by simp [configEmits]), refused_each.2.2.1,
    emitsFail_configEmits _ _ _ rfl, accepts_oks _ 6 [failAnswer] _ rfl (by simp [configEmits]),
    _, _, .write _ [] _ rfl⟩

/-- A block in 5-byte mode. -/
def fiveByte (o : Op) (l : List Answer) : State := { asked o l with fw := .five }

theorem witness_SetByteModeChangesWidthAfterFrame :
    ((3 : Int) ≠ 4 ∧ (3 : Int) ≠ 5) ∧ issues (.setbytemode 3) (asked (.setbytemode 3) []) ∧
    (issues (.setbytemode 4) (asked (.setbytemode 4) []) ∧ (asked (.setbytemode 4) []).fw = .four) ∧
    (issues (.setbytemode 5) (fiveByte (.setbytemode 5) []) ∧ (fiveByte (.setbytemode 5) []).fw = .five) ∧
    (issues (.setbytemode 5) (asked (.setbytemode 5) (oks 2 [])) ∧
      accepts [.frame ⟨0x00, 0x00, 0xF6⟩] (asked (.setbytemode 5) (oks 2 []))) ∧
    (issues (.setbytemode 4) (fiveByte (.setbytemode 4) (oks 2 [])) ∧
      accepts [.frame ⟨0x00, 0x00, 0xF7⟩] (fiveByte (.setbytemode 4) (oks 2 []))) ∧
    (∃ u, EmitsFail [.frame ⟨0x00, 0x00, 0xF6⟩] (asked (.setbytemode 5) [failAnswer]) (.transportError .write) u) ∧
    (∃ u, EmitsFail [.frame ⟨0x00, 0x00, 0xF7⟩] (fiveByte (.setbytemode 4) [failAnswer]) (.transportError .write) u) :=
  ⟨by decide, ⟨rfl, rfl⟩, ⟨⟨rfl, rfl⟩, rfl⟩, ⟨⟨rfl, rfl⟩, rfl⟩, ⟨⟨rfl, rfl⟩, rfl, rfl, rfl, trivial⟩,
    ⟨⟨rfl, rfl⟩, rfl, rfl, rfl, trivial⟩, ⟨_, (emitsFail_firstFrame _ [] _).1 rfl⟩,
    ⟨_, (emitsFail_firstFrame _ [] _).1 rfl⟩⟩

/-- Channels 4 and 1, in that order, with 5-byte mode asked for. -/
def twoConfigs : List ChannelConfig := [⟨4, 1000, 128, 7, .code 3⟩, ⟨1, 5, 1, 0, .lineA⟩]

/-- The open block asked to bring the two channels up. -/
def bringUpState : State := asked (.bringUp twoConfigs (some true)) (oks 36 [])

theorem twoConfigs_legal : ∀ cfg ∈ twoConfigs, LegalConfig Params.default cfg := by
  intro cfg h
  simp only [twoConfigs, List.mem_cons, List.not_mem_nil, or_false] at h
  rcases h with rfl | rfl
  · exact legal_high
  · exact legal_low

/-- Two configurations with five = true; the same with five = some false and with the flag absent; and the empty set. -/
theorem witness_InitializeBringsUpInOrder :
    issues (.bringUp twoConfigs (some true)) bringUpState ∧ bringUpState.isOpen = true ∧
    (∀ cfg ∈ twoConfigs, LegalConfig bringUpState.params cfg) ∧ (twoConfigs.map (·.ch)).Nodup ∧
    (∀ c : Channel, (0b1001#4).getLsbD (c.number - 1) = true ↔ ∃ cfg ∈ twoConfigs, cfg.ch = c.number) ∧
    (∀ five : Option Bool,
      accepts (bringUpEmits bringUpState.params twoConfigs (five.getD false) bringUpState.fw 0b1001) bringUpState) ∧
    (∀ c : Channel, (0b0000#4).getLsbD (c.number - 1) = true ↔
      ∃ cfg ∈ ([] : List ChannelConfig), cfg.ch = c.number) := by
  refine ⟨⟨rfl, rfl⟩, rfl, twoConfigs_legal, by decide, ?_, ?_, ?_⟩
  · intro c; cases c <;> simp [twoConfigs, Channel.number]
  · rintro (_ | _ | _) <;> exact accepts_oks _ 36 [] _ rfl (by decide)
  · intro c; cases c <;> simp [Channel.number]

/-- The same block with a Transport that fails after so many accepted calls. -/
def bringUpFailing (n : Nat) : State := asked (.bringUp twoConfigs (some true)) (oks n [failAnswer])

/-- A failing call at each place: the output flush of the second stop; the ACT frame and the output flush of the third
stop; the GAINCAL frame and the INTYPE frame of the second configuration; MODE5; the last ACT. -/
theorem witness_InitializeBringsUpInOrder_failing :
    (∃ e u, EmitsFail (stopEmits ++ stopEmits) (bringUpFailing 5) e u) ∧
    (∀ n, n = 6 ∨ n = 10 → accepts (stopEmits ++ stopEmits) (bringUpFailing n) ∧
      ∃ e u, EmitsFail (.frame (encode (bringUpFailing n).params.speedBase (.act 9)) :: stopEmits)
        ((bringUpFailing n).emitAll (stopEmits ++ stopEmits)) e u) ∧
    (∃ cfg, twoConfigs = [⟨4, 1000, 128, 7, .code 3⟩] ++ cfg :: [] ∧
      (accepts (bringUpTo Params.default [⟨4, 1000, 128, 7, .code 3⟩] 9) (bringUpFailing 23) ∧
        ∃ e u, EmitsFail ((configEmits Params.default cfg).take 3)
          ((bringUpFailing 23).emitAll (bringUpTo Params.default [⟨4, 1000, 128, 7, .code 3⟩] 9)) e u) ∧
      (accepts (bringUpTo Params.default [⟨4, 1000, 128, 7, .code 3⟩] 9 ++ (configEmits Params.default cfg).take 3)
          (bringUpFailing 25) ∧
        ∃ e u, EmitsFail ((configEmits Params.default cfg).drop 3)
          ((bringUpFailing 25).emitAll
            (bringUpTo Params.default [⟨4, 1000, 128, 7, .code 3⟩] 9 ++ (configEmits Params.default cfg).take 3)) e u)) ∧
    (accepts (bringUpTo Params.default twoConfigs 9) (bringUpFailing 27) ∧
      ∃ e u, EmitsFail (modeEmits Params.default true (bringUpFailing 27).fw)
        ((bringUpFailing 27).emitAll (bringUpTo Params.default twoConfigs 9)) e u) ∧
    (accepts (bringUpTo Params.default twoConfigs 9 ++ modeEmits Params.default true .four) (bringUpFailing 31) ∧
      ∃ e u, EmitsFail (commitEmits Params.default 9)
        ((bringUpFailing 31).emitAll (bringUpTo Params.default twoConfigs 9 ++ modeEmits Params.default true .four))
        e u) := by
  refine ⟨?_, ?_, ⟨⟨1, 5, 1, 0, .lineA⟩, rfl, ?_, ?_⟩, ?_, ?_⟩
  · exact emitsFail_calls _ 5 _ rfl (by decide)
  · rintro n (rfl | rfl) <;> exact emitsFail_after _ _ _ _ rfl (by decide) (by decide)
  · exact emitsFail_after _ _ 23 _ rfl (by decide) (by decide)
  · exact emitsFail_after _ _ 25 _ rfl (by decide) (by decide)
  · exact emitsFail_after _ _ 27 _ rfl (by decide) (by decide)
  · exact emitsFail_after _ _ 31 _ rfl (by decide) (by decide)

/-- Each field of the second configuration refused after a legal first one, and a channel named twice. -/
theorem witness_InitializeRefusesIllegalSets :
    (∀ cfg ∈ [(⟨4, 1000, 128, 7, .code 3⟩ : ChannelConfig)], LegalConfig Params.default cfg) ∧
    (∀ cfg field, RefusedConfig Params.default cfg field →
      issues (.bringUp [⟨4, 1000, 128, 7, .code 3⟩, cfg] none) (asked (.bringUp [⟨4, 1000, 128, 7, .code 3⟩, cfg] none) []) ∧
      [(⟨4, 1000, 128, 7, .code 3⟩ : ChannelConfig), cfg] = [⟨4, 1000, 128, 7, .code 3⟩] ++ cfg :: []) ∧
    RefusedConfig Params.default ⟨1, 1000, 3, 7, .code 4⟩ .gain ∧
    (∀ cfg ∈ [(⟨1, 5, 1, 0, .lineA⟩ : ChannelConfig), ⟨1, 5, 1, 0, .lineA⟩], LegalConfig Params.default cfg) ∧
    ¬([(⟨1, 5, 1, 0, .lineA⟩ : ChannelConfig), ⟨1, 5, 1, 0, .lineA⟩].map (·.ch)).Nodup := by
  refine ⟨?_, fun _ _ _ => ⟨⟨rfl, rfl⟩, rfl⟩, refused_each.2.2.2.1, ?_, by decide⟩
  · intro cfg h
    rw [List.mem_singleton.mp h]; exact legal_high
  · intro cfg h
    simp only [List.mem_cons, List.not_mem_nil, or_false, or_self] at h
    exact h ▸ legal_low
theorem witness_SingleFrameOperations :
    (issues .resettimer (asked .resettimer (oks 2 [])) ∧
      accepts [.frame ⟨0x00, 0x00, 0xF0⟩] (asked .resettimer (oks 2 [])) ∧
      ∃ u, EmitsFail [.frame ⟨0x00, 0x00, 0xF0⟩] (asked .resettimer [failAnswer]) (.transportError .write) u) ∧
    (((57600 : Int), (5 : Int)) ∈
        [((2400 : Int), (0 : Int)), (4800, 1), (9600, 2), (19200, 3), (38400, 4), (57600, 5)] ∧
      accepts [.frame (frameOfInts 0x5A 0x5A ((asked (.setspeed 57600) []).params.speedBase.val + 5))]
        (asked (.setspeed 57600) (oks 2 []))) ∧
    (115200 : Int) ∉ [(2400 : Int), 4800, 9600, 19200, 38400, 57600] ∧
    ¬((0 : Int) ≤ 256 ∧ (256 : Int) ≤ 255) ∧
    ((0 : Int) ≤ 255 ∧ (255 : Int) ≤ 255 ∧
      accepts [.frame (frameOfInts (255 / 16) (255 % 16) 0xF2)] (asked (.eeselect 255) (oks 2 []))) :=
  ⟨⟨⟨rfl, rfl⟩, ⟨rfl, rfl, rfl, trivial⟩, ⟨_, (emitsFail_firstFrame _ [] _).1 rfl⟩⟩,
    ⟨by decide, rfl, rfl, rfl, trivial⟩, by decide, by decide, ⟨by decide, by decide, rfl, rfl, rfl, trivial⟩⟩

/-! ### Witnesses: EEPROM and samples -/

theorem witness_EereadReturnsThePair :
    (issues .eeread (asked .eeread (oks 2 [arrival [0x12, 0x34]])) ∧
      accepts [.frame ⟨0x00, 0x00, 0xF1⟩] (asked .eeread (oks 2 [arrival [0x12, 0x34]])) ∧
      ((asked .eeread (oks 2 [arrival [0x12, 0x34]])).sent ⟨0x00, 0x00, 0xF1⟩).answer.ok = true ∧
      readBytes 2 ((asked .eeread (oks 2 [arrival [0x12, 0x34]])).sent ⟨0x00, 0x00, 0xF1⟩).answer.count
        ((asked .eeread (oks 2 [arrival [0x12, 0x34]])).sent ⟨0x00, 0x00, 0xF1⟩).draw.rx = [0x12, 0x34]) ∧
    readBytes 2 ((asked .eeread (oks 2 [arrival [0x12]])).sent ⟨0x00, 0x00, 0xF1⟩).answer.count
      ((asked .eeread (oks 2 [arrival [0x12]])).sent ⟨0x00, 0x00, 0xF1⟩).draw.rx = [0x12] ∧
    ([0x12] : List Byte).length ≠ 2 ∧
    ((asked .eeread (oks 2 [failAnswer])).sent ⟨0x00, 0x00, 0xF1⟩).answer.ok = false ∧
    (∃ u, EmitsFail [.frame ⟨0x00, 0x00, 0xF1⟩] (asked .eeread [failAnswer]) (.transportError .write) u) :=
  ⟨⟨⟨rfl, rfl⟩, ⟨rfl, rfl, rfl, trivial⟩, rfl, rfl⟩, rfl, by decide, rfl, ⟨_, (emitsFail_firstFrame _ [] _).1 rfl⟩⟩

/-- EEWRITE at a line, with these bytes read and so many polls counted before, under a bound. -/
def polling (line : Nat) (bs : List Byte) (polls : Nat) (bound : Option Nat) (answers : List Answer) : State :=
  { opened answers with
    seq := .running { startOf (.eewrite 0xA7) with place := ⟨line, 0, 0⟩, bs := bs, polls := polls }
    params := { Params.default with eePollMax := bound } }

theorem witness_EewritePollsUntilAcknowledged :
    (issues (.eewrite 256) (asked (.eewrite 256) []) ∧ ¬((0 : Int) ≤ 256 ∧ (256 : Int) ≤ 255)) ∧
    (∃ u, EmitsFail [.frame (frameOfInts (255 / 16) (255 % 16) 0xF3)] (asked (.eewrite 255) [failAnswer])
      (.transportError .write) u) ∧
    (accepts [.frame (frameOfInts (255 / 16) (255 % 16) 0xF3)] (asked (.eewrite 255) (oks 2 [failAnswer])) ∧
      ((asked (.eewrite 255) (oks 2 [failAnswer])).sent (frameOfInts (255 / 16) (255 % 16) 0xF3)).answer.ok = false) ∧
    (issues (.eewrite 255) (asked (.eewrite 255) (oks 2 [arrival [0xB0]])) ∧
      accepts [.frame (frameOfInts (255 / 16) (255 % 16) 0xF3)] (asked (.eewrite 255) (oks 2 [arrival [0xB0]])) ∧
      ((asked (.eewrite 255) (oks 2 [arrival [0xB0]])).sent
        (frameOfInts (255 / 16) (255 % 16) 0xF3)).answer.ok = true ∧
      readBytes 1 ((asked (.eewrite 255) (oks 2 [arrival [0xB0]])).sent
          (frameOfInts (255 / 16) (255 % 16) 0xF3)).answer.count
        ((asked (.eewrite 255) (oks 2 [arrival [0xB0]])).sent
          (frameOfInts (255 / 16) (255 % 16) 0xF3)).draw.rx = [0xB0]) ∧
    (readBytes 1 ((asked (.eewrite 255) (oks 2 [arrival [0x55]])).sent
          (frameOfInts (255 / 16) (255 % 16) 0xF3)).answer.count
        ((asked (.eewrite 255) (oks 2 [arrival [0x55]])).sent
          (frameOfInts (255 / 16) (255 % 16) 0xF3)).draw.rx = [0x55] ∧
      readBytes 1 ((asked (.eewrite 255) (oks 2 [arrival []])).sent
          (frameOfInts (255 / 16) (255 % 16) 0xF3)).answer.count
        ((asked (.eewrite 255) (oks 2 [arrival []])).sent
          (frameOfInts (255 / 16) (255 % 16) 0xF3)).draw.rx = []) ∧
    (polling 3 [] 0 none [failAnswer]).answer.ok = false ∧
    ((polling 3 [] 0 none [arrival [0x55]]).answer.ok = true ∧
      readBytes 1 (polling 3 [] 0 none [arrival [0x55]]).answer.count (polling 3 [] 0 none [arrival [0x55]]).draw.rx =
        [0x55]) ∧
    (∃ p, (polling 4 [0xB0] 0 none []).seq = .running p ∧ p.op = .eewrite 0xA7 ∧ p.place = ⟨4, 0, 0⟩ ∧ p.bs = [0xB0]) ∧
    (∃ p, (polling 4 [] 0 none []).seq = .running p ∧ p.bs ≠ [0xB0] ∧
      (polling 4 [] 0 none []).params.eePollMax = none) ∧
    (∃ p, (polling 4 [0xFF] 0 (some 2) []).seq = .running p ∧ p.bs ≠ [0xB0] ∧
      (polling 4 [0xFF] 0 (some 2) []).params.eePollMax = some 2 ∧ p.polls + 1 < 2) ∧
    (∃ p, (polling 4 [] 1 (some 2) []).seq = .running p ∧ p.bs ≠ [0xB0] ∧
      (polling 4 [] 1 (some 2) []).params.eePollMax = some 2 ∧ 2 ≤ p.polls + 1) :=
  ⟨⟨⟨rfl, rfl⟩, by decide⟩, ⟨_, (emitsFail_firstFrame _ [] _).1 rfl⟩, ⟨⟨rfl, rfl, rfl, trivial⟩, rfl⟩,
    ⟨⟨rfl, rfl⟩, ⟨rfl, rfl, rfl, trivial⟩, rfl, rfl⟩, ⟨rfl, rfl⟩, rfl, ⟨rfl, rfl⟩, ⟨_, rfl, rfl, rfl, rfl⟩, ⟨_, rfl, by decide, rfl⟩,
    ⟨_, rfl, by decide, rfl, by decide⟩, ⟨_, rfl, by decide, rfl, by decide⟩⟩

/-- READSAMPLE asked for, with one gain set and these bytes arriving. -/
def sampling (bs : List Byte) : State :=
  { asked .readsample [arrival bs] with gainc := ⟨some 7, none, none, none⟩ }

theorem witness_ReadsampleEndsInOrder :
    (issues .readsample (sampling []) ∧ (sampling []).isOpen = true) ∧
    (asked .readsample [failAnswer]).answer.ok = false ∧
    ((sampling [0x30, 0, 0]).answer.ok = true ∧
      readBytes (sampling [0x30, 0, 0]).fw.bytes (sampling [0x30, 0, 0]).answer.count (sampling [0x30, 0, 0]).draw.rx =
        [0x30, 0, 0] ∧
      ([0x30, 0, 0] : List Byte).length ≠ (sampling [0x30, 0, 0]).fw.bytes) ∧
    (readBytes (sampling [0x30, 0, 0, 0]).fw.bytes (sampling [0x30, 0, 0, 0]).answer.count
        (sampling [0x30, 0, 0, 0]).draw.rx = [0x30, 0, 0, 0] ∧
      Channel.ch4.number = (0x30 : Byte).toNat / 16 % 4 + 1 ∧ (sampling [0x30, 0, 0, 0]).gainc.get .ch4 = none) ∧
    (readBytes (sampling [0xC8, 0, 0, 2]).fw.bytes (sampling [0xC8, 0, 0, 2]).answer.count
        (sampling [0xC8, 0, 0, 2]).draw.rx = [0xC8, 0, 0, 2] ∧
      Channel.ch1.number = (0xC8 : Byte).toNat / 16 % 4 + 1 ∧ (sampling [0xC8, 0, 0, 2]).gainc.get .ch1 = some 7) :=
  ⟨⟨⟨rfl, rfl⟩, rfl⟩, rfl, ⟨rfl, rfl, by decide⟩, ⟨rfl, by decide, rfl⟩, ⟨rfl, by decide, rfl⟩⟩
theorem witness_CodeBitsAreOred :
    (0x7F : Byte).toNat < 128 ∧ (0 : Byte).toNat < 128 ∧ (0x7E : Byte).toNat < 128 := by decide
theorem witness_RawIsOffsetBinary :
    sampleCode 0x08 0 0 0 = 0x800000 ∧ sampleCode 0 0 0 0 = 0 ∧ sampleCode 0x0F 0x7F 0x7F 0x7E = 0xFFFFFF := by decide
/-- Two frames that differ in the unused bits only; a channel whose gain code is 6 in one table and 7 in another. -/
theorem witness_DecodeValueLaws :
    ((0xC8 : Byte).toNat % 64 = (0x08 : Byte).toNat % 64 ∧ (3 : Byte).toNat / 2 = (2 : Byte).toNat / 2) ∧
    (Channel.ch3.number = (0x2F : Byte).toNat / 16 % 4 + 1 ∧ (gains 6).get .ch3 = some 6 ∧ (gains 7).get .ch3 = some 7 ∧
      (7#3).toNat = (6#3).toNat + 1 ∧
      (∃ d d', decodeParts 0x2F 0 0 0 none (gains 6) .mv = .ok d ∧
        decodeParts 0x2F 0 0 0 none (gains 7) .mv = .ok d')) :=
  ⟨by decide, by decide, rfl, rfl, by decide, _, _, rfl, rfl⟩

/-! ### Witnesses: frequency, gain, read-back -/

theorem witness_DivisorOfLegalFrequency : ((5 : Int) ≤ 5 ∧ (5 : Int) ≤ 1000) ∧ ((5 : Int) ≤ 1000 ∧ (1000 : Int) ≤ 1000) := by
  decide
theorem witness_FrequencyRoundTrip :
    (5 ≤ 5 ∧ 5 ≤ 1000 ∧ 3840 = 19200 / 5) ∧ (5 ≤ 1000 ∧ 1000 ≤ 1000 ∧ 19 = 19200 / 1000) := by decide
theorem witness_GainCodeIsLogTwo : gaincode 1 = some 0 ∧ gaincode 128 = some 7 := by decide
/-- A record whose four slots are 5 Hz (X6). -/
def goodRecord : List Byte := [0xEE, 0xEA, 0x0F, 0, 0, 0x0F, 0, 0x40, 0x0F, 0, 0x80, 0x0F, 0, 0xC0]

/-- The same with a divisor of zero in slot 2. -/
def zeroRecord : List Byte := [0xEE, 0xEA, 0x0F, 0, 0, 0, 0, 0x40, 0x0F, 0, 0x80, 0x0F, 0, 0xC0]

theorem witness_RecordCheckedLengthThenMarker :
    (goodRecord.take 13).length ≠ 14 ∧ (goodRecord.length = 14 ∧ [0xEE, 0xEA] <+: goodRecord) ∧
    ((0xEF :: goodRecord.tail).length = 14 ∧ ¬[0xEE, 0xEA] <+: 0xEF :: goodRecord.tail) := by decide
theorem witness_GroupDecodesByFields :
    (0 : Byte).toNat * 256 + (0 : Byte).toNat = 0 ∧ (0 : Byte).toNat * 256 + (1 : Byte).toNat ≠ 0 := by decide

/-- READPARAMS asked for, with these bytes arriving for its read. -/
def reading (bs : List Byte) : State := asked .readparams (oks 5 [arrival bs])

/-- The state before its read. -/
def queried (bs : List Byte) : State := (reading bs).emitAll (stopEmits ++ [.frame ⟨0x00, 0x00, 0xF5⟩])

theorem witness_ReadparamsReportsFourSlots :
    (issues .readparams (reading goodRecord) ∧ (reading goodRecord).isOpen = true ∧
      accepts (stopEmits ++ [.frame ⟨0x00, 0x00, 0xF5⟩]) (reading goodRecord) ∧
      (queried goodRecord).answer.ok = true ∧
      readBytes 14 (queried goodRecord).answer.count (queried goodRecord).draw.rx = goodRecord) ∧
    (readBytes 14 (queried [0xEE, 0xEA]).answer.count (queried [0xEE, 0xEA]).draw.rx = [0xEE, 0xEA] ∧
      checkRecord [0xEE, 0xEA] = some (.malformedReadback .length)) ∧
    ((asked .readparams (oks 5 [failAnswer])).emitAll (stopEmits ++ [.frame ⟨0x00, 0x00, 0xF5⟩])).answer.ok = false ∧
    (∃ u, EmitsFail (stopEmits ++ [.frame ⟨0x00, 0x00, 0xF5⟩]) (asked .readparams [failAnswer])
      (.transportError .write) u) :=
  ⟨⟨⟨rfl, rfl⟩, rfl, ⟨rfl, rfl, rfl, rfl, rfl, rfl, rfl, trivial⟩, rfl, rfl⟩, ⟨rfl, by decide⟩, rfl,
    ⟨_, (emitsFail_firstFrame _ _ _).1 rfl⟩⟩
theorem witness_SelftestComparesWholeText :
    (.zeroDivisor 2 ∈ recordSlots zeroRecord) ∧
    ((∀ slot, .zeroDivisor slot ∉ recordSlots goodRecord) ∧
      (recordSlots goodRecord).map slotLine = (recordSlots goodRecord).map slotLine ∧
      (recordSlots goodRecord).map slotLine ≠ []) := by
  refine ⟨by decide, ?_, rfl, by simp [recordSlots]⟩
  intro slot h
  simp [recordSlots, recordSlot, decodeGroup, groupDivisor, goodRecord] at h

/-- SELFTEST asked for, with these bytes arriving for its read. -/
def selfTesting (bs : List Byte) : State := asked (.selftest []) (oks 5 [arrival bs])

/-- A sample to format. -/
def someSample : Sample := ⟨default, .ch1, 0, 0, none⟩

theorem witness_SelftestAndFormatsampleEnd :
    (issues (.selftest []) (selfTesting goodRecord) ∧ (selfTesting goodRecord).isOpen = true ∧
      accepts (stopEmits ++ [.frame ⟨0x00, 0x00, 0xF5⟩]) (selfTesting goodRecord) ∧
      ((selfTesting goodRecord).emitAll (stopEmits ++ [.frame ⟨0x00, 0x00, 0xF5⟩])).answer.ok = true ∧
      checkRecord goodRecord = none) ∧
    checkRecord (0xEF :: goodRecord.tail) = some (.malformedReadback .marker) ∧
    ((asked (.selftest []) (oks 5 [failAnswer])).emitAll (stopEmits ++ [.frame ⟨0x00, 0x00, 0xF5⟩])).answer.ok = false ∧
    (∃ u, EmitsFail (stopEmits ++ [.frame ⟨0x00, 0x00, 0xF5⟩]) (asked (.selftest []) (oks 2 [failAnswer]))
      (.transportError .flush) u) ∧
    issues (.formatsample someSample) (asked (.formatsample someSample) []) ∧
    (issues (.formatsample someSample) (closedWith (.formatsample someSample) []) ∧
      (closedWith (.formatsample someSample) []).isOpen = false) :=
  ⟨⟨⟨rfl, rfl⟩, rfl, ⟨rfl, rfl, rfl, rfl, rfl, rfl, rfl, trivial⟩, rfl, by decide⟩, by decide, rfl,
    ⟨_, .later _ _ _ _ _ ⟨rfl, rfl, rfl, trivial⟩ (.flushOut _ _ rfl)⟩, ⟨rfl, rfl⟩, ⟨⟨rfl, rfl⟩, rfl⟩⟩

/-! ### Witnesses: what every step keeps -/

/-- STOPOP between the write of its frame and the test of the count: a whole frame in the trace, the count kept. -/
def midStop : State :=
  { opened (oks 2 []) with
    seq := .running { startOf .stopop with place := ⟨2, 0, 2⟩, count := 3 }
    trace := [.tx ⟨0, 0, 0xFF⟩ (some 3)] }

/-- It meets the hypotheses of StepKeepsSeqInList, StepKeepsPacing, StepKeepsFramesInMap, StepKeepsOpenAgreement,
StepKeepsOperandsChecked and StepOnlyAppends: every invariant holds and a step leaves it. -/
theorem witness_invariants :
    SeqInList midStop ∧ PacedWithSeq midStop ∧ FramesInMap midStop.params.speedBase midStop.trace ∧
    OpenAgreesWithSeq midStop ∧ OperandsChecked midStop ∧ KeptIsTransportError midStop ∧
    ∃ t, step midStop = .next t := by
  refine ⟨?_, rfl, ?_, ?_, ?_, ?_, ⟨_, rfl⟩⟩
  · intro p h; cases h; decide
  · intro f c h
    simp only [midStop, List.mem_singleton, Event.tx.injEq] at h
    exact ⟨.stop, rfl, h.1.symm⟩
  · intro p h _; cases h; rfl
  · intro p h x hx c hc; cases h
    exact (show ∀ y ∈ ({ startOf .stopop with place := ⟨2, 0, 2⟩, count := 3 } : Position).before midStop.params,
      ∀ d, y.2 = .test d → d = none by
        intro y hy
        have hm : y.2 ∈ [SeqStep.testOpen, .testOpen, .write (.frame ⟨0, 0, 0xFF⟩)] :=
          (show ∀ z ∈ ({ startOf .stopop with place := ⟨2, 0, 2⟩, count := 3 } : Position).before midStop.params,
            z.2 ∈ [SeqStep.testOpen, .testOpen, .write (.frame ⟨0, 0, 0xFF⟩)] by decide) y hy
        intro d hd
        rw [hd] at hm
        simp at hm) x hx c hc
  · intro p e h he; cases h; cases he
/-- A step that raises InvalidParameter, with its check at the place of SEQ, where both invariants hold; and CLOSE at its
report of a kept exception. -/
theorem witness_StepKeepsOperandsChecked :
    OperandsChecked (inside (.setfreq 5 50) ⟨1, 0, 1⟩ []) ∧ KeptIsTransportError (inside (.setfreq 5 50) ⟨1, 0, 1⟩ []) ∧
    (∃ t, step (inside (.setfreq 5 50) ⟨1, 0, 1⟩ []) = .next t ∧
      t.results = (inside (.setfreq 5 50) ⟨1, 0, 1⟩ []).results ++ [.raised (.invalidParameter .channel)]) ∧
    KeptIsTransportError { inside .close ⟨6, 0, 0⟩ [] with
      seq := .running { startOf .close with place := ⟨6, 0, 0⟩, err := some (.transportError .write) } } := by
  refine ⟨?_, ?_, ⟨_, rfl, rfl⟩, ?_⟩
  · intro p h x hx c hc; cases h
    have hm : x ∈ [((⟨1, 0, 0⟩ : Place), SeqStep.testOpen)] := hx
    rw [List.mem_singleton.mp hm] at hc
    cases hc
  · intro p e h he; cases h; cases he
  · intro p e h he; cases h; cases he; rfl
/-- Agreement in the state after the close inside CLOSE, where OPEN has been written 0, and at the write of OPEN. -/
theorem witness_StepKeepsOpenAgreement :
    OpenAgreesWithSeq { inside .close ⟨6, 0, 0⟩ [] with isOpen := false } ∧
    OpenAgreesWithSeq (inside .close ⟨5, 0, 0⟩ []) ∧
    OpenAgreesWithSeq { inside (.openBlock "p" none none none) ⟨7, 0, 0⟩ [] with isOpen := false } := by
  refine ⟨?_, ?_, ?_⟩ <;> intro p h _ <;> cases h <;> rfl
/-- Steps that write each register: its operation does. -/
theorem witness_RegistersWrittenOnlyByTheirOperations :
    (∃ t, step (inside (.setactive (some true) none none none) ⟨3, 0, 2⟩ []) = .next t ∧
      t.active ≠ (inside (.setactive (some true) none none none) ⟨3, 0, 2⟩ []).active) ∧
    (∃ t, step (inside (.setbytemode 5) ⟨5, 0, 0⟩ []) = .next t ∧
      t.fw ≠ (inside (.setbytemode 5) ⟨5, 0, 0⟩ []).fw) ∧
    (∃ t, step (inside (.openBlock "p" none none (some true)) ⟨6, 0, 0⟩ []) = .next t ∧
      t.coef ≠ (inside (.openBlock "p" none none (some true)) ⟨6, 0, 0⟩ []).coef) ∧
    (∃ t, step (inside (.setgaincal 2 0 1) ⟨4, 0, 0⟩ []) = .next t ∧
      t.gainc ≠ (inside (.setgaincal 2 0 1) ⟨4, 0, 0⟩ []).gainc) ∧
    (∃ t, step (inside .close ⟨5, 0, 0⟩ []) = .next t ∧ t.isOpen ≠ (inside .close ⟨5, 0, 0⟩ []).isOpen) :=
  ⟨⟨_, rfl, by decide⟩, ⟨_, rfl, by decide⟩, ⟨_, rfl, by decide⟩, ⟨_, rfl, by decide⟩, ⟨_, rfl, by decide⟩⟩
theorem witness_OnlyUndecodableWordsStop :
    SeqInList (State.reset.withFetchWord 24 0x0000FF) ∧
    decode State.reset.params.speedBase (frameOfWord (0x0000FF : BitVec 24).toNat).bytes = .ok .stop := by
  refine ⟨?_, by decide⟩
  intro p h
  cases h

end Sys2Proof.Tests
end

/-! ## What a step keeps, and that it answers (00_scope.md R10, R11; 10_state.md R26; 20_memory.md R49, R50)

Both statements come down to what the two kinds of step do: a primitive (`primitive_leaves`, `conclude_keeps`) and a
whole instruction from a word (`issueFrame_cases`). -/

namespace Sys2Proof.Machine

/-- `t` continues `s`: nothing recorded or delivered is taken back, the parameters of the run stay, and no request is
added (R10, R11, R50). -/
structure Extends (s t : State) : Prop where
  trace : s.trace <+: t.trace
  results : s.results <+: t.results
  params : t.params = s.params
  requests : t.requests <:+ s.requests

theorem Extends.refl (s : State) : Extends s s :=
  ⟨List.prefix_refl _, List.prefix_refl _, rfl, List.suffix_refl _⟩

theorem Extends.trans {s t u : State} (h1 : Extends s t) (h2 : Extends t u) : Extends s u :=
  ⟨h1.trace.trans h2.trace, h1.results.trans h2.results, h2.params.trans h1.params, h2.requests.trans h1.requests⟩

/-! ### The updates of the state -/

theorem extends_draw (s : State) : Extends s s.draw :=
  ⟨List.prefix_refl _, List.prefix_refl _, rfl, List.suffix_refl _⟩

theorem extends_log (s : State) (e : Event) : Extends s (s.log e) :=
  ⟨List.prefix_append _ _, List.prefix_refl _, rfl, List.suffix_refl _⟩

theorem extends_deliver (s : State) (c : Completion) : Extends s (s.deliver c) :=
  ⟨List.prefix_refl _, List.prefix_append _ _, rfl, List.suffix_refl _⟩

theorem extends_sent (s : State) (f : Frame) : Extends s (s.sent f) :=
  ⟨List.prefix_append _ _, List.prefix_refl _, rfl, List.suffix_refl _⟩

theorem extends_draw_log (s : State) (e : Event) : Extends s (s.draw.log e) :=
  (extends_draw s).trans (extends_log _ e)

/-- Taking a request, whatever SEQ becomes (R50). -/
theorem extends_take {s : State} {r : Request} {rest : List Request} (q : Seq) (hr : s.requests = r :: rest) :
    Extends s { s with requests := rest, seq := q } :=
  ⟨List.prefix_refl _, List.prefix_refl _, rfl, hr ▸ List.suffix_cons r rest⟩

/-! ### Emissions and frame-level instructions -/

theorem extends_emit (s : State) : ∀ e : Emit, Extends s (s.emit e)
  | .frame f => extends_sent s f
  | .flushOut => extends_draw_log s _

theorem EmitsFail.extends {es : List Emit} {s u : State} {e : Exc} (h : EmitsFail es s e u) : Extends s u := by
  induction h with
  | write _ _ s _ => exact extends_draw_log s _
  | short _ _ s _ _ => exact extends_draw_log s _
  | flushIn _ _ s _ _ _ => exact (extends_draw_log s _).trans (extends_draw_log _ _)
  | flushOut _ s _ => exact extends_draw_log s _
  | later e0 _ s _ _ _ _ ih => exact (extends_emit s e0).trans ih

/-- The shared operation of the frame-level instructions never stops the machine, and only appends (R80, R81). -/
theorem issueFrame_extends (parts : FrameParts) (s : State) : ∃ t, issueFrame parts s = .next t ∧ Extends s t := by
  rcases issueFrame_cases parts s with ⟨e, _, h⟩ | ⟨_, ⟨_, h⟩ | ⟨e, u, hfail, h⟩⟩
  · exact ⟨_, h, extends_deliver s _⟩
  · exact ⟨_, h, (extends_sent s _).trans (extends_deliver _ _)⟩
  · exact ⟨_, h, hfail.extends.trans (extends_deliver u _)⟩

theorem exec_extends (i : Instr) (s : State) : ∃ t, exec i s = .next t ∧ Extends s t := by
  rw [exec_eq_issueFrame]
  exact issueFrame_extends _ s

/-! ### Steps of the sequencer -/

theorem extends_primitive (st : SeqStep) (p : Position) (s : State) : Extends s (primitive st p s).state := by
  have h := primitive_leaves st p s
  refine ⟨?_, h.results ▸ List.prefix_refl _, h.params, h.requests ▸ List.suffix_refl _⟩
  rcases h.trace with ht | ⟨e, ht⟩ <;> rw [ht]
  exact List.prefix_append _ _

theorem extends_conclude (eff : Effect) : Extends eff.state eff.conclude := by
  obtain ⟨_, htrace, hparams, hrequests, hresults⟩ := conclude_keeps eff
  exact ⟨htrace ▸ List.prefix_refl _, hresults, hparams, hrequests ▸ List.suffix_refl _⟩

theorem step_extends {s t : State} (h : step s = .next t) : Extends s t := by
  cases hs : s.seq with
  | running p =>
    obtain ⟨st, _, rfl⟩ := step_running hs h
    exact (extends_primitive st p s).trans (extends_conclude _)
  | idle =>
    rcases step_idle hs h with rfl | ⟨w, rest, i, hr, _, hx⟩ | ⟨o, r, rest, hr, rfl⟩
    · exact .refl _
    · obtain ⟨u, hu, hext⟩ := exec_extends i { s with requests := rest }
      rw [hu] at hx
      cases hx
      exact (extends_take s.seq hr).trans hext
    · exact extends_take _ hr

/-- At a step of its operation the sequencer answers (R26). -/
theorem runPosition_of_current {s : State} {p : Position} {st : SeqStep} (h : p.current s.params = some st) :
    runPosition p s = .next (primitive st p s).conclude := by
  unfold runPosition
  rw [h]

/-- Of the caller's requests only a word outside the opcode map is not taken (R50, R74). -/
theorem takeRequest_next {s : State}
    (hw : ∀ w rest, s.requests = .word w :: rest → ∃ i, wordInstr s.params.speedBase w = .ok i) :
    ∃ t, takeRequest s = .next t := by
  unfold takeRequest
  split
  · exact ⟨_, rfl⟩
  · next w rest hr =>
    obtain ⟨i, hi⟩ := hw w rest hr
    obtain ⟨t, ht, _⟩ := exec_extends i { s with requests := rest }
    rw [hi]
    exact ⟨t, ht⟩
  · exact ⟨_, rfl⟩
  · exact ⟨_, rfl⟩

/-! ### The obligations -/

/-- Settles O59: every update a step is made of extends the state, and extending is transitive. -/
theorem stepOnlyAppends : Obligations.StepOnlyAppends := by
  intro s t h
  obtain ⟨htrace, hresults, hparams, hrequests⟩ := step_extends h
  exact ⟨htrace, hresults, hparams, hrequests⟩

/-- Settles O60: a position in its list runs its primitive, and idle the block takes any request but a word that does
not decode. -/
theorem onlyUndecodableWordsStop : Obligations.OnlyUndecodableWordsStop := by
  intro s hseq hword
  cases hs : s.seq with
  | running p =>
    obtain ⟨st, hst⟩ := Option.isSome_iff_exists.mp (hseq p hs)
    exact ⟨_, (step_of_running hs).trans (runPosition_of_current hst)⟩
  | idle =>
    rw [step_of_idle hs]
    exact takeRequest_next fun w rest hr => hword w rest hs hr

end Sys2Proof.Machine

/-! ## SEQ and the registers through a step (10_state.md R20, R25, R26, R31; 20_memory.md R50)

A step at a position is a primitive and a move of SEQ; idle, the block takes a request. Each invariant below is one fact
about the steps of an operation, carried over these cases. -/

namespace Sys2Proof.Machine

/-! ### A whole instruction from a word -/

/-- However a frame-level instruction ends, SEQ is idle and no register is written (R26, R80 to R96). -/
theorem issueFrame_ends {parts : FrameParts} {s t : State} (h : issueFrame parts s = .next t) :
    t.seq = .idle ∧ t.registers = s.registers := by
  rcases issueFrame_cases parts s with ⟨e, _, hx⟩ | ⟨_, ⟨_, hx⟩ | ⟨e, u, hfail, hx⟩⟩ <;> rw [hx] at h <;> cases h
  · exact ⟨rfl, rfl⟩
  · exact ⟨rfl, rfl⟩
  · exact ⟨rfl, (abort_registers u e).trans (registers_of_emitsFail hfail)⟩

/-- With SEQ idle a step writes no register and leaves SEQ idle or before the first step of an operation (R50). -/
theorem step_from_idle {s t : State} (hs : s.seq = .idle) (h : step s = .next t) :
    t.registers = s.registers ∧ (t.seq = .idle ∨ ∃ o, t.seq = .running (startOf o)) := by
  rcases step_idle hs h with rfl | ⟨w, rest, i, _, _, hx⟩ | ⟨o, r, rest, _, rfl⟩
  · exact ⟨rfl, .inl hs⟩
  · rw [exec_eq_issueFrame] at hx
    exact ⟨(issueFrame_ends hx).2, .inl (issueFrame_ends hx).1⟩
  · exact ⟨rfl, .inr ⟨o, rfl⟩⟩

/-! ### The places of an operation -/

/-- A place with a step in the program is a step of its operation. -/
theorem current_of_split {params : Params} {p : Position} {earlier later : List (Place × SeqStep)} {st : SeqStep}
    (h : program params p.op = earlier ++ (p.place, st) :: later) : p.current params = some st := by
  rw [Position.current, rest_of_split h]
  rfl

/-- The step at a place stands first in what is left, and what is left ends the program. -/
theorem rest_of_current {params : Params} {p : Position} {st : SeqStep} (h : p.current params = some st) :
    ∃ later, p.rest params = (p.place, st) :: later ∧ p.rest params <:+ program params p.op := by
  have hsuffix : p.rest params <:+ program params p.op := List.dropWhile_suffix _
  unfold Position.current at h
  cases hr : p.rest params with
  | nil => rw [hr] at h; cases h
  | cons x later =>
    rw [hr] at h hsuffix
    obtain rfl : x.2 = st := Option.some.inj h
    exact ⟨later, by rw [← head_rest hr], hsuffix⟩

/-- The step at a position is a step of its operation. -/
theorem mem_steps_of_current {params : Params} {p : Position} {st : SeqStep} (h : p.current params = some st) :
    st ∈ inPlace (blocks params p.op) := by
  obtain ⟨later, hr, hsuffix⟩ := rest_of_current h
  rw [← program_steps]
  exact List.mem_map.mpr ⟨(p.place, st), hsuffix.mem (hr ▸ List.mem_cons_self), rfl⟩

/-- The test every operation begins with: that the block is open, and in OPEN that it is closed (R81, R101, R178). -/
def Op.firstTest : Op → SeqStep
  | .openBlock .. => .closedTest
  | _ => .testOpen

/-- Every operation begins with that test, at its line 1 (R26). -/
theorem program_first (params : Params) (o : Op) : ∃ later, program params o = (⟨1, 0, 0⟩, o.firstTest) :: later := by
  cases o <;> exact ⟨_, rfl⟩

/-- Line 4 of CLOSE, where a caught exception goes on, is the close of the Transport (R116). -/
theorem current_close_line4 {params : Params} {p : Position} (hop : p.op = .close) (hpl : p.place = ⟨4, 0, 0⟩) :
    p.current params = some .closeTransport := by
  refine current_of_split (earlier := (program params .close).take 9) (later := (program params .close).drop 10) ?_
  rw [hop, hpl]
  rfl

/-- Wherever a primitive leaves SEQ, the block is idle or SEQ is at a step of its operation (R26, R117). -/
theorem seqInList_conclude (eff : Effect) : SeqInList eff.conclude := by
  intro q hq
  rcases conclude_cases eff with ⟨c, h⟩ | ⟨skip, place, st, later, _, hl, h⟩ | ⟨line, place, st, later, _, hl, h⟩ |
    ⟨e, _, hop, _, h⟩ <;> rw [h] at hq ⊢ <;> cases hq
  · have hr := rest_of_drop (p := eff.pos) (q := { eff.pos with place := place }) rfl hl
    simp [Position.current, hr]
  · have hs := List.takeWhile_append_dropWhile (p := fun x : Place × SeqStep => decide (x.1.line ≠ line))
      (l := program eff.state.params eff.pos.op)
    rw [hl] at hs
    rw [current_of_split (p := { eff.pos with place := place }) hs.symm]
    rfl
  · rw [current_close_line4 (p := { eff.pos with err := some e, place := ⟨4, 0, 0⟩ }) hop rfl]
    rfl

/-- Settles O52: a primitive leaves SEQ in the list from anywhere (`seqInList_conclude`), and a request sets it to the
first step of an operation. -/
theorem stepKeepsSeqInList : Obligations.StepKeepsSeqInList := by
  intro s t _ h
  cases hs : s.seq with
  | running p =>
    obtain ⟨st, _, rfl⟩ := step_running hs h
    exact seqInList_conclude _
  | idle =>
    intro q hq
    rcases (step_from_idle hs h).2 with hi | ⟨o, ho⟩
    · rw [hi] at hq; cases hq
    · rw [ho] at hq; cases hq
      obtain ⟨later, hp⟩ := program_first t.params o
      rw [current_of_split (p := startOf o) (earlier := []) hp]
      rfl

end Sys2Proof.Machine

/-! ## The write matrix (10_state.md R31) -/

namespace Sys2Proof.Machine

/-- Whether the write matrix lets an operation hold this step: one that writes a register stands only in the operations
that may write it (R31). -/
def SeqStep.allowedIn (o : Op) : SeqStep → Bool
  | .clearActive => o.writesActive
  | .flipActive _ => o.writesActive
  | .writeFw _ => o.writesFw
  | .writeCoef _ => o.writesCoef
  | .unsetGain _ => o.writesGainc
  | .writeGain _ _ => o.writesGainc
  | .writeOpen _ => o.writesOpen
  | _ => true

/-- A call in place writes no register (R80, R81). -/
@[simp] theorem allowed_testSteps (o : Op) (cs : List (Option Exc)) : (testSteps cs).all (·.allowedIn o) = true := by
  simp [testSteps, SeqStep.allowedIn]

@[simp] theorem allowed_sendSteps (o : Op) (src : Source) : (sendSteps src).all (·.allowedIn o) = true := rfl

@[simp] theorem inPlace_nil : inPlace [] = [] := rfl

@[simp] theorem inPlace_cons (b : Block) (bs : List Block) : inPlace (b :: bs) = b.steps ++ inPlace bs := rfl

@[simp] theorem inPlace_append (bs cs : List Block) : inPlace (bs ++ cs) = inPlace bs ++ inPlace cs :=
  List.flatMap_append

/-- What an operation may hold, its configuration rounds may (R110). -/
theorem allowed_roundBlocks {o : Op} {p : Params} (h : ∀ cfg, (inPlace (applychBlocks p cfg)).all (·.allowedIn o) = true)
    (j : Nat) (cfgs : List ChannelConfig) : (inPlace (roundBlocks p j cfgs)).all (·.allowedIn o) = true := by
  induction cfgs generalizing j with
  | nil => rfl
  | cons cfg cfgs ih => simp only [roundBlocks, inPlace_cons, List.all_append, h, ih, Bool.and_self]

/-- Every step of an operation is one the write matrix lets it hold (R31). -/
theorem allowed_blocks (p : Params) (o : Op) : (inPlace (blocks p o)).all (·.allowedIn o) = true := by
  cases o
  case frame i => simp [blocks, frameBlocks]
  case bringUp cfgs five =>
    have hround := allowed_roundBlocks (o := .bringUp cfgs five) (p := p) (fun _ => rfl) 1 cfgs
    rw [blocks, bringUpBlocks, inPlace_append, inPlace_append, inPlace_cons, List.all_append, List.all_append,
      List.all_append, allowed_testSteps, hround]
    rfl
  case setbytemode w =>
    by_cases hw : w = 5 <;> simp only [blocks, setbytemodeBlocks, modeChange, hw, if_true, if_false] <;> rfl
  all_goals rfl

/-- The step at a position of an operation is one the write matrix lets it hold (R31). -/
theorem allowed_current {params : Params} {p : Position} {st : SeqStep} (h : p.current params = some st) :
    st.allowedIn p.op = true :=
  List.all_eq_true.mp (allowed_blocks params p.op) st (mem_steps_of_current h)

/-- A step that changes a register is one an operation may hold only if it may write that register (R31). -/
theorem writtenBy_allowed {o : Op} {st : SeqStep} (s : State) (h : st.allowedIn o = true) :
    ((writtenBy st s).active ≠ s.active → o.writesActive = true) ∧
    ((writtenBy st s).fw ≠ s.fw → o.writesFw = true) ∧
    ((writtenBy st s).coef ≠ s.coef → o.writesCoef = true) ∧
    ((writtenBy st s).gainc ≠ s.gainc → o.writesGainc = true) ∧
    ((writtenBy st s).isOpen ≠ s.isOpen → o.writesOpen = true) := by
  cases st
  case clearActive | flipActive | writeFw | writeCoef | unsetGain | writeGain | writeOpen =>
    simp_all [writtenBy, State.registers, SeqStep.allowedIn]
  all_goals simp [writtenBy, State.registers]

/-- Settles O58: idle, no register is written; at a position, only those of the step standing there, which the write
matrix lets the operation hold. -/
theorem registersWrittenOnlyByTheirOperations : Obligations.RegistersWrittenOnlyByTheirOperations := by
  intro s t h
  cases hs : s.seq with
  | idle =>
    obtain ⟨hactive, hfw, hcoef, hgainc, hopen⟩ := Registers.mk.inj (step_from_idle hs h).1
    exact ⟨absurd hactive, absurd hfw, absurd hcoef, absurd hgainc, absurd hopen⟩
  | running p =>
    obtain ⟨st, hc, hregs⟩ := registers_step hs h
    have hop : s.currentOp = some p.op := by rw [State.currentOp, hs]
    obtain ⟨hactive, hfw, hcoef, hgainc, hopen⟩ := writtenBy_allowed s (allowed_current hc)
    rw [← hregs] at hactive hfw hcoef hgainc hopen
    exact ⟨fun hne => ⟨p.op, hop, hactive hne⟩, fun hne => ⟨p.op, hop, hfw hne⟩, fun hne => ⟨p.op, hop, hcoef hne⟩,
      fun hne => ⟨p.op, hop, hgainc hne⟩, fun hne => ⟨p.op, hop, hopen hne⟩⟩

end Sys2Proof.Machine

/-! ## OPEN agrees with where SEQ is (10_state.md R25; 41_sequencer.md R101, R116) -/

namespace Sys2Proof.Machine

/-! ### What a step does to OPEN along an operation -/

/-- OPEN where SEQ stands at a place of an operation, its first step passed (R25, R101, R116). -/
def Op.openAt : Op → Place → Bool
  | .openBlock .., _ => false
  | .close, place => decide (place.line ≤ 5)
  | _, _ => true

/-- OPEN after a step that does not raise (R31). -/
def SeqStep.openAfter : SeqStep → Bool → Bool
  | .writeOpen b, _ => b
  | _, b => b

theorem writtenBy_isOpen (st : SeqStep) (s : State) : (writtenBy st s).isOpen = st.openAfter s.isOpen := by
  cases st <;> rfl

theorem openAgreesWithSeq_iff {s : State} : OpenAgreesWithSeq s ↔
    ∀ p, s.seq = .running p → p.place ≠ ⟨1, 0, 0⟩ → s.isOpen = p.op.openAt p.place := by
  refine forall_congr' fun p => imp_congr_right fun _ => imp_congr_right fun _ => ?_
  cases p.op <;> exact Iff.rfl

/-- Only these five steps can set SEQ past the next step, or back (R26). -/
def SeqStep.branches : SeqStep → Bool
  | .flagGiven _ => true
  | .flagDiffers _ _ => true
  | .modeTest _ _ => true
  | .fiveTest _ _ => true
  | .goto _ => true
  | _ => false

/-- A move of SEQ to the next step or out of the operation. -/
def Goes.straight : Goes → Bool
  | .on skip => skip == 0
  | .toLine _ => false
  | _ => true

theorem straight_effect {α : Type} (r : Ends α) (p : Position) (keep : α → Position) :
    (r.effect p keep).goes.straight = true := by
  cases r <;> rfl

theorem straight_returnIf (c : Bool) (v : Value) (p : Position) (s : State) :
    (returnIf c v p s).goes.straight = true := by
  cases c <;> rfl

/-- Every other primitive goes to the next step or out of the operation (R26, R117). -/
theorem straight_primitive {st : SeqStep} (h : st.branches = false) (p : Position) (s : State) :
    (primitive st p s).goes.straight = true := by
  cases st
  case flagGiven | flagDiffers | modeTest | fiveTest | goto => cases h
  case sampleTest | pairTest | ackTest | passTest => exact straight_returnIf ..
  case decode => rw [primitive, decodeEffect]; split <;> rfl
  case closeTransport => rw [primitive, closeEffect]; split <;> rfl
  case clearActive | writeFw | unsetGain | writeCoef | writeOpen | flipActive | writeGain | returnSample | returnPair |
    clearPolls | countPoll | decodeSlot | returnReport | returnFail | returnText | clearErr => rfl
  all_goals exact straight_effect ..

/-- OPEN and CLOSE run straight through (R101, R116). -/
theorem unbranched_current {params : Params} {p : Position} {st : SeqStep} (hop : p.op.writesOpen = true)
    (h : p.current params = some st) : st.branches = false := by
  have hall : (inPlace (blocks params p.op)).all (!·.branches) = true := by
    cases ho : p.op
    case openBlock | close => rfl
    all_goals rw [ho] at hop; cases hop
  simpa using List.all_eq_true.mp hall st (mem_steps_of_current h)

/-- The step `x` of an operation leaves OPEN as it is to be at `y`. -/
def Op.KeepsOpen (o : Op) (x y : Place × SeqStep) : Prop := o.openAt y.1 = x.2.openAfter (o.openAt x.1)

/-- Of the steps that have another one after them only line 5 of CLOSE writes OPEN, and at its line 6 the block is
closed (R101, R116). -/
theorem keepsOpen_chain (params : Params) {o : Op} (h : o.writesOpen = true) :
    (program params o).IsChain o.KeepsOpen := by
  cases o
  case openBlock =>
    simp [program, blocks, openBlocks, placed, Op.KeepsOpen, Op.openAt, SeqStep.openAfter]
  case close =>
    simp [program, blocks, closeBlocks, stopBlocks, callSteps, frameBlocks, testSteps, sendSteps, partsStop, placed,
      Op.KeepsOpen, Op.openAt, SeqStep.openAfter]
  all_goals cases h

/-- An operation that may not write OPEN needs the block open at every place (R25). -/
theorem openAt_of_not_writesOpen {o : Op} (h : o.writesOpen = false) (place : Place) : o.openAt place = true := by
  cases o
  case openBlock | close => cases h
  all_goals rfl

/-- Such an operation holds no step that changes OPEN (R31). -/
theorem openAfter_of_allowed {o : Op} {st : SeqStep} (h : o.writesOpen = false) (ha : st.allowedIn o = true)
    (b : Bool) : st.openAfter b = b := by
  cases st
  case writeOpen => rw [SeqStep.allowedIn, h] at ha; cases ha
  all_goals rfl

/-- A step that raises leaves OPEN. -/
theorem openAfter_of_raises {st : SeqStep} {p : Position} {s : State} {e : Exc}
    (h : (primitive st p s).goes = .raises e) (b : Bool) : st.openAfter b = b := by
  cases st
  case writeOpen => cases h
  all_goals rfl

/-- A primitive leaves SEQ inside its own operation or idle (R26). -/
theorem op_conclude {st : SeqStep} {p q : Position} {s : State} (hq : (primitive st p s).conclude.seq = .running q) :
    q.op = p.op := by
  rcases conclude_cases (primitive st p s) with ⟨c, h⟩ | ⟨_, _, _, _, _, _, h⟩ | ⟨_, _, _, _, _, _, h⟩ |
    ⟨_, _, _, _, h⟩ <;> rw [h] at hq <;> cases hq <;> exact (primitive_leaves st p s).op

/-- The next step of OPEN or CLOSE finds OPEN as its place needs it (R101, R116). -/
theorem openAt_next {params : Params} {p : Position} {st st' : SeqStep} {place : Place}
    {later : List (Place × SeqStep)} (hw : p.op.writesOpen = true) (hc : p.current params = some st)
    (hl : (p.rest params).drop 1 = (place, st') :: later) : p.op.openAt place = st.openAfter (p.op.openAt p.place) := by
  obtain ⟨rest, hr, hsuffix⟩ := rest_of_current hc
  rw [hr] at hl hsuffix
  obtain rfl : rest = (place, st') :: later := hl
  exact (List.isChain_cons_cons.mp ((keepsOpen_chain params hw).suffix hsuffix)).1

/-- Where a primitive leaves SEQ inside an operation, OPEN is to be what its step makes of it (R25, R101, R116). -/
theorem openAt_conclude {st : SeqStep} {p q : Position} {s : State} (hc : p.current s.params = some st)
    (hq : (primitive st p s).conclude.seq = .running q) :
    q.op.openAt q.place = st.openAfter (p.op.openAt p.place) := by
  have hleaves := primitive_leaves st p s
  have hop := op_conclude hq
  rw [hop]
  cases hw : p.op.writesOpen with
  | false => rw [openAt_of_not_writesOpen hw, openAt_of_not_writesOpen hw, openAfter_of_allowed hw (allowed_current hc)]
  | true =>
    have hstraight := straight_primitive (unbranched_current hw hc) p s
    rcases conclude_cases (primitive st p s) with ⟨c, h⟩ | ⟨skip, place, st', later, hg, hl, h⟩ |
      ⟨line, place, st', later, hg, _, h⟩ | ⟨e, hg, hclose, hline, h⟩ <;> rw [h] at hq <;> cases hq
    · rw [hg] at hstraight
      obtain rfl : skip = 0 := eq_of_beq hstraight
      rw [hleaves.params, rest_congr hleaves.op hleaves.place] at hl
      exact openAt_next hw hc hl
    · rw [hg] at hstraight
      cases hstraight
    · rw [hleaves.op] at hclose
      rw [hleaves.place] at hline
      rw [openAfter_of_raises hg, hclose]
      simp [Op.openAt, hline]

/-! ### The first step -/

theorem testOpen_raises {s : State} (p : Position) (h : s.isOpen = false) :
    (primitive .testOpen p s).goes = .raises .notOpen := by
  rw [primitive, chkOpen_closed h]
  rfl

theorem closedTest_raises {s : State} (p : Position) (h : s.isOpen = true) :
    (primitive .closedTest p s).goes = .raises .alreadyOpen := by
  rw [primitive, if_pos h]
  rfl

/-- The first test of an operation passes only in a block as the operation needs it (R81, R101, R178). -/
theorem isOpen_of_firstTest {o : Op} {p : Position} {s : State}
    (h : ∀ e, (primitive o.firstTest p s).goes ≠ .raises e) : s.isOpen = o.openAt ⟨1, 0, 0⟩ := by
  cases o
  case openBlock => exact Bool.eq_false_of_not_eq_true fun ho => h _ (closedTest_raises p ho)
  all_goals exact Bool.eq_true_of_not_eq_false fun ho => h _ (testOpen_raises p ho)

/-- At the first place of an operation stands its first test. -/
theorem current_first {params : Params} {p : Position} (h : p.place = ⟨1, 0, 0⟩) :
    p.current params = some p.op.firstTest := by
  obtain ⟨later, hp⟩ := program_first params p.op
  exact current_of_split (earlier := []) (h ▸ hp)

/-- An exception leaves SEQ inside an operation only from line 3 of CLOSE (R116, R182). -/
theorem line_of_caught {eff : Effect} {e : Exc} {q : Position} (hg : eff.goes = .raises e)
    (hq : eff.conclude.seq = .running q) : eff.pos.place.line = 3 := by
  have h : eff.conclude = eff.state.raiseExc eff.pos e := by rw [Effect.conclude, hg]
  rcases raiseExc_cases eff.state eff.pos e with ha | ⟨_, hline, _, _⟩
  · rw [h, ha] at hq; cases hq
  · exact hline

/-- Where a primitive leaves SEQ inside an operation, the block was open or closed as its place needs it: the first
test has passed, or the agreement held. -/
theorem isOpen_before {st : SeqStep} {p q : Position} {s : State} (hinv : OpenAgreesWithSeq s)
    (hs : s.seq = .running p) (hc : p.current s.params = some st)
    (hq : (primitive st p s).conclude.seq = .running q) : s.isOpen = p.op.openAt p.place := by
  by_cases hp : p.place = ⟨1, 0, 0⟩
  · obtain rfl : st = p.op.firstTest := Option.some.inj (hc.symm.trans (current_first hp))
    rw [hp]
    refine isOpen_of_firstTest (p := p) fun e hg => ?_
    have hline := line_of_caught hg hq
    rw [(primitive_leaves _ p s).place, hp] at hline
    cases hline
  · exact openAgreesWithSeq_iff.mp hinv p hs hp

/-- Settles O55: OPEN was what the place of the step needs (`isOpen_before`), and the step makes of it what the next
place needs (`openAt_conclude`). -/
theorem stepKeepsOpenAgreement : Obligations.StepKeepsOpenAgreement := by
  intro s t hinv h
  rw [openAgreesWithSeq_iff]
  intro q hq hfirst
  cases hs : s.seq with
  | idle =>
    rcases (step_from_idle hs h).2 with hi | ⟨o, ho⟩
    · rw [hi] at hq; cases hq
    · rw [ho] at hq; cases hq
      exact absurd rfl hfirst
  | running p =>
    obtain ⟨st, hc, rfl⟩ := step_running hs h
    calc (primitive st p s).conclude.isOpen
        = (primitive st p s).state.isOpen := congrArg Registers.isOpen (conclude_keeps _).1
      _ = (writtenBy st s).isOpen := congrArg Registers.isOpen (primitive_leaves st p s).registers
      _ = st.openAfter s.isOpen := writtenBy_isOpen st s
      _ = st.openAfter (p.op.openAt p.place) := by rw [isOpen_before hinv hs hc hq]
      _ = q.op.openAt q.place := (openAt_conclude hc hq).symm

end Sys2Proof.Machine

/-! ## Reset, the moves of SEQ and the frame-level instructions (10_state.md R20, R26; 40_command_frames.md R80, R100) -/

namespace Sys2Proof.Machine

/-- Settles O22: the fields of `State.reset` and `Params.default` are these values. -/
theorem resetIsClosedAndIdle : Obligations.ResetIsClosedAndIdle :=
  ⟨rfl, rfl, rfl, rfl, rfl, rfl, rfl, rfl, rfl, rfl, rfl, rfl, rfl, rfl⟩

/-- Settles O57: with SEQ idle and no event every invariant holds. -/
theorem resetMeetsTheInvariants : Obligations.ResetMeetsTheInvariants := by
  have hidle : ∀ p, State.reset.seq ≠ .running p := fun _ h => by cases h
  refine ⟨fun p h => absurd h (hidle p), rfl, fun f count h => ?_, fun p h => absurd h (hidle p),
    fun p h => absurd h (hidle p), fun p _ h => absurd h (hidle p)⟩
  cases h

/-- A jump goes to the first step of its line (R26, R115 step 7). -/
theorem jump_of_split {s : State} {p : Position} {earlier later : List (Place × SeqStep)} {place : Place} {st : SeqStep}
    (h : program s.params p.op = earlier ++ (place, st) :: later) (hline : ∀ x ∈ earlier, x.1.line ≠ place.line) :
    s.jump p place.line = { s with seq := .running { p with place := place } } := by
  rw [State.jump, h, List.dropWhile_append_of_pos (by simpa using hline), List.dropWhile_cons_of_neg (by simp),
    resume_cons]

/-- Settles O20: what is left at a place is its step and the ones after it (`rest_of_split`), and `advance` drops from
that. -/
theorem seqAdvancesOrEnds : Obligations.SeqAdvancesOrEnds := by
  intro s p earlier after st h
  have hadvance (k : Nat) : s.advance p k = s.resume p (after.drop k) := by
    rw [State.advance, rest_of_split h, List.drop_succ_cons]
  refine ⟨current_of_split h, fun k place st' later hd => ?_, fun k hk => ?_,
    fun before' place st' later hp hline => jump_of_split hp hline⟩
  · rw [hadvance, hd, resume_cons]
  · rw [hadvance, List.drop_of_length_le hk, resume_nil]
    rfl

/-! ### A SEND that fails

The count test reads a local of the position, so the failing calls are followed from one position to the next. -/

/-- A primitive that goes on, with another step behind it, brings SEQ to that step (R26). -/
theorem leads_next {s u : State} {p q : Position} {st st' : SeqStep} {left : List SeqStep}
    (hr : (p.rest s.params).map (·.2) = st :: st' :: left) (hprim : primitive st p (s.at p) = ⟨u.at p, q, .on 0⟩)
    (hparams : u.params = s.params) (hop : q.op = p.op) (hpl : q.place = p.place) :
    ∃ place, (({ q with place := place } : Position).rest u.params).map (·.2) = st' :: left ∧
      Leads (s.at p) (u.at { q with place := place }) := by
  match hl : p.rest s.params, hr with
  | (_, _) :: (place, st') :: l, hr =>
    simp only [List.map_cons, List.cons.injEq] at hr
    obtain ⟨rfl, rfl, rfl⟩ := hr
    have hdrop : (q.rest u.params).drop 1 = (place, st') :: l := by rw [hparams, rest_congr hop hpl, hl]; rfl
    refine ⟨place, ?_, .single ?_⟩
    · rw [rest_of_drop (p := q) (q := { q with place := place }) rfl hdrop]
      rfl
    · rw [step_at (by rw [hl]; rfl), hprim]
      show Host.Outcome.next (State.resume q ((q.rest u.params).drop 1) (u.at p)) = _
      rw [hdrop]
      rfl

/-- A primitive that raises outside CLOSE ends the operation (R182). -/
theorem leads_abort {s u : State} {p : Position} {st : SeqStep} {left : List SeqStep} {e : Exc}
    (hr : (p.rest s.params).map (·.2) = st :: left) (hc : p.op ≠ .close)
    (hprim : primitive st p (s.at p) = ⟨u.at p, p, .raises e⟩) : Leads (s.at p) (u.abort e) := by
  refine .single ?_
  rw [step_at hr, hprim]
  exact congrArg Host.Outcome.next (raiseExc_not_close e hc)

theorem primitive_write_ok {src : Source} {s : State} {n : Nat} (p : Position) (h : s.answer.ok = true)
    (hn : s.answer.count = n) : primitive (.write src) p (s.at p) =
      ⟨(s.draw.log (.tx (sentBy src s) (some n))).at p, keepCount n p, .on 0⟩ := by
  subst hn
  have hok : (s.at p).answer.ok = true := h
  rw [primitive, memWrite, if_pos hok]
  rfl

theorem primitive_write_fails {src : Source} {s : State} (p : Position) (h : s.answer.ok = false) :
    primitive (.write src) p (s.at p) =
      ⟨(s.draw.log (.tx (sentBy src s) none)).at p, p, .raises (.transportError .write)⟩ := by
  have hok : (s.at p).answer.ok = false := h
  rw [primitive, memWrite, hok]
  rfl

theorem primitive_countTest_whole {s : State} {p : Position} (h : p.count = 3) :
    primitive .countTest p s = ⟨s, p, .on 0⟩ := by
  rw [primitive, h]
  rfl

theorem primitive_countTest_short {s : State} {p : Position} (h : p.count ≠ 3) :
    primitive .countTest p s = ⟨s, p, .raises (.transportError .shortWrite)⟩ := by
  rw [primitive, chkCount, if_neg h]
  rfl

theorem primitive_flushIn_fails {s : State} (p : Position) (h : s.answer.ok = false) :
    primitive .flushIn p (s.at p) = ⟨(s.draw.log (.flushIn false)).at p, p, .raises (.transportError .flush)⟩ := by
  have hok : (s.at p).answer.ok = false := h
  rw [primitive, flushIn, hok]
  rfl

/-- A SEND one of whose calls fails ends the operation in the state that call leaves (R80, R182). -/
theorem aborts_sendSteps {src : Source} {s u : State} {e : Exc} (h : EmitsFail [.frame (sentBy src s)] s e u) :
    Aborts (sendSteps src) s u e := by
  intro p L hc hr
  cases h with
  | write _ _ _ hok => exact leads_abort hr hc (primitive_write_fails p hok)
  | short _ _ _ hok hcount =>
    obtain ⟨_, hrest, hwrite⟩ := leads_next hr (primitive_write_ok p hok rfl) rfl rfl rfl
    exact hwrite.trans (leads_abort hrest hc (primitive_countTest_short hcount))
  | flushIn _ _ _ hok hcount hflush =>
    obtain ⟨_, hrest, hwrite⟩ := leads_next hr (primitive_write_ok p hok hcount) rfl rfl rfl
    obtain ⟨_, hrest', hcount'⟩ := leads_next hrest (primitive_countTest_whole rfl) rfl rfl rfl
    exact hwrite.trans (hcount'.trans (leads_abort hrest' hc (primitive_flushIn_fails _ hflush)))
  | later _ _ _ _ _ _ h => cases h

/-! ### A frame-level instruction primitive by primitive -/

theorem callSteps_eq (parts : FrameParts) :
    callSteps parts = testSteps parts.checks ++ sendSteps (.frame parts.frame) := by
  simp [callSteps, frameBlocks]

/-- The first failing test of a call ends it, with nothing done (R81, R181). -/
theorem aborts_callSteps_of_check {parts : FrameParts} {s : State} {e : Exc}
    (h : firstFailing (chkOpen s :: parts.checks) = some e) : Aborts (callSteps parts) s s e := by
  rw [callSteps_eq]
  refine Aborts.before ?_
  cases ho : s.isOpen with
  | false =>
    rw [chkOpen_closed ho] at h
    cases h
    exact (aborts_testOpen ho).before
  | true =>
    rw [chkOpen_open ho] at h
    exact aborts_testSteps ho h

/-- The tests of a call that all pass were made in an open block. -/
theorem isOpen_of_checks {cs : List (Option Exc)} {s : State} (h : firstFailing (chkOpen s :: cs) = none) :
    s.isOpen = true ∧ firstFailing cs = none := by
  cases ho : s.isOpen with
  | false => rw [chkOpen_closed ho] at h; cases h
  | true => rw [chkOpen_open ho] at h; exact ⟨rfl, h⟩

/-- The primitives of an instruction alone in its operation come to the state the whole instruction gives (R80, R100). -/
theorem leads_issueFrame {parts : FrameParts} {s t : State} {p : Position} (hc : p.op ≠ .close)
    (hr : (p.rest s.params).map (·.2) = callSteps parts) (h : issueFrame parts s = .next t) : Leads (s.at p) t := by
  have hr' : (p.rest s.params).map (·.2) = callSteps parts ++ [] := by rw [hr, List.append_nil]
  rcases issueFrame_cases parts s with ⟨e, hcheck, hx⟩ | ⟨hcheck, ⟨ha, hx⟩ | ⟨e, u, hfail, hx⟩⟩ <;>
    rw [hx] at h <;> cases h
  · exact aborts_callSteps_of_check hcheck p [] hc hr'
  · obtain ⟨ho, hcs⟩ := isOpen_of_checks hcheck
    have hl := (passes_callSteps ho hcs ha).leads p [] hr'
    rwa [← hr, List.length_map, List.drop_length, resume_nil] at hl
  · obtain ⟨ho, hcs⟩ := isOpen_of_checks hcheck
    rw [callSteps_eq] at hr'
    have hsend : Aborts (sendSteps (.frame parts.frame)) s u e := aborts_sendSteps hfail
    exact (passes_testSteps ho hcs).then_aborts (by simp [sendSteps]) hsend p [] hc hr'

/-- An instruction issued with its operands comes, step by step, to the state `exec` gives it (R50, R100). -/
theorem leads_exec {s t : State} {i : Instr} {rest : List Request} (hi : s.seq = .idle)
    (hr : s.requests = .instr i :: rest) (h : exec i { s with requests := rest } = .next t) : Leads s t := by
  have htake : step s = .next (({ s with requests := rest } : State).at (startOf (.frame i))) := by
    rw [step_of_idle hi, takeRequest, hr]
    rfl
  rw [exec_eq_issueFrame] at h
  refine .head htake (leads_issueFrame (fun hop => by cases hop) ?_ h)
  rw [rest_startOf, program_steps]
  rfl

/-- A well-formed instruction called in an open block passes to what is left after it, its frame sent (R80, R100). -/
theorem passes_call {s : State} {i : Instr} (ho : s.isOpen = true) (hwf : i.wellFormed = true)
    (ha : accepts [.frame (encode s.params.speedBase i)] s) :
    Passes (callSteps (instrParts s.params.speedBase i)) s (s.sent (encode s.params.speedBase i)) (keepCount 3) := by
  rw [← partsFrame_eq_encode _ i hwf] at ha ⊢
  exact passes_callSteps ho ((checks_eq_none_iff _ i).mpr hwf) ha

theorem at_of_running {s : State} {p : Position} (hs : s.seq = .running p) : s.at p = s := by
  rw [State.at, ← hs]

/-- Settles O21: a word and a primitive are one step each; an instruction's primitives end as `issueFrame` does
(`leads_exec`), and called in an operation they pass (`passes_call`). -/
theorem stepRunsTheInstruction : Obligations.StepRunsTheInstruction := by
  refine ⟨fun s w rest i hi hr hw => ?_, fun s w rest hi hr hw => ?_, fun s p st hs hc => ?_,
    fun s i rest hi hr => ?_, fun s p i later hs hr ho hwf ha => ?_⟩
  · have hw' : wordInstr s.params.speedBase w = .ok i := hw
    rw [step_of_idle hi, takeRequest, hr]
    simp only [hw']
  · rw [step_of_idle hi, takeRequest, hr]
    cases hw' : wordInstr s.params.speedBase w with
    | ok i => exact absurd hw' (hw i)
    | error _ => simp only [hw']
  · rw [step_of_running hs, runPosition_of_current hc]
  · obtain ⟨t, ht, _⟩ := exec_extends i { s with requests := rest }
    obtain ⟨n, hn⟩ := leads_exec hi hr ht
    exact ⟨n, t, ht, hn⟩
  · have hl := (passes_call ho hwf ha).leads p later hr
    rwa [at_of_running hs] at hl

end Sys2Proof.Machine

/-! ## Memory: what a read returns, and the pacing of SEND (20_memory.md R42, R50, R51, R57; 40_command_frames.md R80)

The pacing is kept for two reasons. Along the steps of an operation (`sendsWhole_blocks`) the four primitives of a SEND
stand one behind the other and no move of SEQ enters or leaves them in between; and each primitive brings the trace to
the phase of the SEND line that stands next (`phaseOf_primitive`). -/

namespace Sys2Proof.Machine

/-! ### Reads -/

theorem readBytes_takes_first (n count : Nat) (rx : List Byte) : readBytes n count rx <+: rx := List.take_prefix _ _

theorem length_readBytes_le (n count : Nat) (rx : List Byte) : (readBytes n count rx).length ≤ n :=
  (List.length_take_le _ _).trans (Nat.min_le_left n count)

/-- Settles O17: the bytes returned are the first of the buffer, and `afterRead` drops just as many (`memRead_cases`). -/
theorem readTakesFromTheHead : Obligations.ReadTakesFromTheHead := by
  intro n s
  rcases memRead_cases n s with ⟨hok, h⟩ | ⟨hok, h⟩
  · have hsplit := List.prefix_iff_eq_append.mp (readBytes_takes_first n s.answer.count s.draw.rx)
    exact ⟨fun _ => ⟨_, _, h, length_readBytes_le .., hsplit, rfl, rfl⟩,
      fun hfail => absurd (hfail.symm.trans hok) Bool.false_ne_true⟩
  · exact ⟨fun hgood => absurd (hok.symm.trans hgood) Bool.false_ne_true, fun _ => ⟨_, h, rfl, rfl⟩⟩

/-- A SEND that succeeds leaves `sent` (R80). -/
theorem eq_sent_of_sendFrame_ok {f : Frame} {s t : State} (h : sendFrame f s = .ok () t) : t = s.sent f := by
  rcases sendFrame_cases f s with ⟨_, hx⟩ | ⟨e, u, _, hx⟩ <;> rw [hx] at h <;> cases h
  rfl

/-- The bytes of a successful read are the first of what the buffer holds when the call takes effect (R42). -/
theorem memRead_ok_takes_first {n : Nat} {s u : State} {bs : List Byte} (h : memRead n s = .ok bs u) :
    bs <+: s.draw.rx := by
  rcases memRead_cases n s with ⟨_, hx⟩ | ⟨_, hx⟩ <;> rw [hx] at h <;> cases h
  exact readBytes_takes_first ..

/-- Settles O18: the flush leaves the buffer empty, so the draw of the read finds in it only what has arrived since. -/
theorem readAfterSendSeesOnlyLaterBytes : Obligations.ReadAfterSendSeesOnlyLaterBytes := by
  intro f s t n bs u hsend hread
  have hfirst := memRead_ok_takes_first hread
  rw [eq_sent_of_sendFrame_ok hsend] at hfirst ⊢
  simpa using hfirst

/-! ### The lines of SEND -/

/-- The line of SEND a step stands at (R80); 1, the write, is also the line of a step outside any SEND, where none is
under way. -/
def SeqStep.sendLine : SeqStep → Nat
  | .countTest => 2
  | .flushIn => 3
  | .settle => 4
  | _ => 1

/-- The line of SEND that is to stand next where a step goes on (R80). -/
def SeqStep.nextSendLine : SeqStep → Nat
  | .write _ => 2
  | .countTest => 3
  | .flushIn => 4
  | _ => 1

/-- The phase of the trace before a line of SEND, for a count `n` of the last write. -/
def sendLinePhase (n : Nat) : Nat → Phase
  | 2 => if n = 3 then .sent else .free
  | 3 => .sent
  | 4 => .flushed
  | _ => .free

theorem phase_eq_sendLinePhase (n : Nat) (st : SeqStep) : st.phase n = sendLinePhase n st.sendLine := by
  cases st <;> rfl

/-- The line of SEND at the first of the steps left; at the end of an operation no SEND is under way. -/
def sendLineAt : List SeqStep → Nat
  | [] => 1
  | st :: _ => st.sendLine

/-! ### Every SEND of an operation is whole -/

/-- The moves of a step that keeps SEQ inside its operation (R26). -/
def SeqStep.moves : SeqStep → List Goes
  | .flagGiven _ => [.on 0, .on 2]
  | .flagDiffers _ _ => [.on 0, .on 1]
  | .modeTest _ rest => [.on 0, .on rest]
  | .fiveTest _ rest => [.on 0, .on rest]
  | .goto line => [.toLine line]
  | _ => [.on 0]

theorem moves_of_unbranched {st : SeqStep} (h : st.branches = false) : st.moves = [.on 0] := by
  cases st
  case flagGiven | flagDiffers | modeTest | fiveTest | goto => cases h
  all_goals rfl

/-- A primitive makes one of the moves of its step, or ends or raises. -/
theorem goes_primitive (st : SeqStep) (p : Position) (s : State) :
    (primitive st p s).goes ∈ st.moves ∨ (∃ v, (primitive st p s).goes = .ends v) ∨
      ∃ e, (primitive st p s).goes = .raises e := by
  cases hb : st.branches with
  | false =>
    have hstraight := straight_primitive hb p s
    rw [moves_of_unbranched hb]
    cases hg : (primitive st p s).goes with
    | on skip =>
      rw [hg] at hstraight
      obtain rfl : skip = 0 := eq_of_beq hstraight
      exact .inl List.mem_cons_self
    | toLine line => rw [hg] at hstraight; cases hstraight
    | ends v => exact .inr (.inl ⟨v, rfl⟩)
    | raises e => exact .inr (.inr ⟨e, rfl⟩)
  | true =>
    left
    cases st
    case flagGiven flag => cases flag <;> simp [primitive, SeqStep.moves]
    case flagDiffers c flag => cases h : flagAgrees s.active c flag <;> simp [primitive, SeqStep.moves, h]
    case modeTest w rest => by_cases h : w = s.fw <;> simp [primitive, SeqStep.moves, h]
    case fiveTest five rest => cases five <;> simp [primitive, SeqStep.moves]
    case goto line => exact List.mem_cons_self
    all_goals cases hb

/-- A move of a step, with the steps `left` after it and `line n` those from line n on, stays in the operation and comes
to the line of SEND that is to stand next. -/
def SeqStep.lands (line : Nat → List SeqStep) (left : List SeqStep) (st : SeqStep) : Goes → Bool
  | .on skip => decide (skip ≤ left.length) && (sendLineAt (left.drop skip) == st.nextSendLine)
  | .toLine n => sendLineAt (line n) == st.nextSendLine
  | _ => true

/-- Every move from a step of these comes to the line of SEND that is to stand next: no SEND is entered but at its
write, or left before its settle (R80). -/
def sendsWhole (line : Nat → List SeqStep) : List SeqStep → Bool
  | [] => true
  | st :: left => st.moves.all (st.lands line left) && sendsWhole line left

theorem sendLineAt_append (l : List SeqStep) {m : List SeqStep} (h : sendLineAt m = 1) :
    sendLineAt (l ++ m) = sendLineAt l := by
  cases l
  · exact h
  · rfl

/-- Where a move of a step lands does not change when steps that begin outside any SEND are added at the end. -/
theorem lands_append {line : Nat → List SeqStep} {left m : List SeqStep} {st : SeqStep} {g : Goes}
    (hm : sendLineAt m = 1) (h : st.lands line left g = true) : st.lands line (left ++ m) g = true := by
  cases g with
  | on skip =>
    simp only [SeqStep.lands, Bool.and_eq_true, decide_eq_true_eq] at h ⊢
    obtain ⟨hskip, hline⟩ := h
    rw [List.drop_append_of_le_length hskip, sendLineAt_append _ hm, List.length_append]
    exact ⟨Nat.le_add_right_of_le hskip, hline⟩
  | toLine | ends | raises => exact h

theorem sendsWhole_append {line : Nat → List SeqStep} {l m : List SeqStep} (hl : sendsWhole line l = true)
    (hm : sendsWhole line m = true) (hline : sendLineAt m = 1) : sendsWhole line (l ++ m) = true := by
  induction l with
  | nil => exact hm
  | cons st left ih =>
    rw [sendsWhole, Bool.and_eq_true] at hl
    obtain ⟨hmoves, hleft⟩ := hl
    rw [List.cons_append, sendsWhole, Bool.and_eq_true, List.all_eq_true]
    exact ⟨fun g hg => lands_append hline (List.all_eq_true.mp hmoves g hg), ih hleft⟩

theorem sendsWhole_suffix {line : Nat → List SeqStep} {l m : List SeqStep} (h : l <:+ m)
    (hm : sendsWhole line m = true) : sendsWhole line l = true := by
  obtain ⟨earlier, rfl⟩ := h
  induction earlier with
  | nil => exact hm
  | cons st earlier ih => exact ih (Bool.and_eq_true_iff.mp hm).2

/-- Tests stand outside any SEND (R81). -/
theorem sendsWhole_testSteps (line : Nat → List SeqStep) (cs : List (Option Exc)) :
    sendsWhole line (testSteps cs) = true := by
  have htests : sendsWhole line (cs.map .test) = true ∧ sendLineAt (cs.map .test) = 1 := by
    induction cs with
    | nil => exact ⟨rfl, rfl⟩
    | cons c cs ih => exact ⟨sendsWhole_append (l := [.test c]) rfl ih.1 ih.2, rfl⟩
  exact sendsWhole_append (l := [.testOpen]) rfl htests.1 htests.2

theorem sendsWhole_frameBlocks (line : Nat → List SeqStep) (parts : FrameParts) :
    sendsWhole line (inPlace (frameBlocks parts)) = true :=
  sendsWhole_append (sendsWhole_testSteps line parts.checks) (m := sendSteps (.frame parts.frame) ++ []) rfl rfl

/-- The configuration rounds of INITIALIZE, each an APPLYCH in place (R110). -/
theorem sendsWhole_roundBlocks (line : Nat → List SeqStep) (p : Params) (j : Nat) (cfgs : List ChannelConfig) :
    sendsWhole line (inPlace (roundBlocks p j cfgs)) = true ∧ sendLineAt (inPlace (roundBlocks p j cfgs)) = 1 := by
  induction cfgs generalizing j with
  | nil => exact ⟨rfl, rfl⟩
  | cons cfg cfgs ih =>
    obtain ⟨hwhole, hline⟩ := ih (j + 1)
    exact ⟨sendsWhole_append (l := inPlace (applychBlocks p cfg)) rfl hwhole hline, rfl⟩

/-- The steps of an operation from the first of a line on. -/
def stepsFrom (p : Params) (o : Op) (n : Nat) : List SeqStep :=
  ((program p o).dropWhile (fun x => x.1.line ≠ n)).map (·.2)

/-- Every SEND of every operation is whole (R80, R100). -/
theorem sendsWhole_blocks (p : Params) (o : Op) : sendsWhole (stepsFrom p o) (inPlace (blocks p o)) = true := by
  cases o
  case frame i => exact sendsWhole_frameBlocks _ _
  case speed i => exact sendsWhole_frameBlocks _ _
  case bringUp cfgs five =>
    obtain ⟨hrounds, hline⟩ := sendsWhole_roundBlocks (stepsFrom p (.bringUp cfgs five)) p 1 cfgs
    rw [blocks, bringUpBlocks, inPlace_append, inPlace_append, inPlace_cons]
    exact sendsWhole_append
      (sendsWhole_append (sendsWhole_append (sendsWhole_testSteps _ _) rfl rfl) hrounds hline) rfl rfl
  case setbytemode w =>
    by_cases hw : w = 5 <;> simp only [blocks, setbytemodeBlocks, modeChange, hw, if_true, if_false] <;> rfl
  all_goals rfl

/-- The move a primitive makes at a position comes to the line of SEND that is to stand next. -/
theorem lands_primitive {st : SeqStep} {p : Position} {s : State} {later : List (Place × SeqStep)}
    (hr : p.rest s.params = (p.place, st) :: later) (hsuffix : p.rest s.params <:+ program s.params p.op) :
    st.lands (stepsFrom s.params p.op) (later.map (·.2)) (primitive st p s).goes = true := by
  have hsteps : st :: later.map (·.2) <:+ inPlace (blocks s.params p.op) := by
    rw [hr] at hsuffix
    rw [← program_steps]
    exact hsuffix.map Prod.snd
  obtain ⟨hmoves, _⟩ := Bool.and_eq_true_iff.mp (sendsWhole_suffix hsteps (sendsWhole_blocks s.params p.op))
  rcases goes_primitive st p s with hg | ⟨v, hg⟩ | ⟨e, hg⟩
  · exact List.all_eq_true.mp hmoves _ hg
  · rw [hg]; rfl
  · rw [hg]; rfl

/-! ### The phase a primitive leaves -/

theorem phaseOf_concat (tr : List Event) (e : Event) : phaseOf (tr ++ [e]) = (phaseOf tr).bind (·.next e) := by
  rw [phaseOf_append]
  rfl

/-- One more event, from a known phase. -/
theorem phaseOf_next {tr : List Event} {e : Event} {ph ph' : Phase} (h : phaseOf tr = some ph)
    (he : ph.next e = some ph') : phaseOf (tr ++ [e]) = some ph' := by
  rw [phaseOf_concat, h]
  exact he

/-- A write brings the pacing to the count test: a frame is under way where all three bytes were taken (R80). -/
theorem next_tx (f : Frame) (n : Nat) : Phase.free.next (.tx f (some n)) = some (sendLinePhase n 2) := by
  by_cases h : n = 3
  · subst h; rfl
  · simp [Phase.next, sendLinePhase, h]

/-- The phase the trace is to end in after a primitive: that of the next line of SEND where it goes on; else no SEND is
under way. -/
def Effect.phaseAfter (st : SeqStep) (eff : Effect) : Phase :=
  match eff.goes with
  | .on _ => sendLinePhase eff.pos.count st.nextSendLine
  | .toLine _ => sendLinePhase eff.pos.count st.nextSendLine
  | _ => .free

/-- Outside a SEND that phase is free, however the primitive leaves SEQ. -/
theorem phaseAfter_outside {st : SeqStep} (h : st.nextSendLine = 1) (eff : Effect) : eff.phaseAfter st = .free := by
  rw [Effect.phaseAfter, h]
  split <;> rfl

theorem phaseOf_testing {c : Option Exc} {p : Position} {s : State} (h : phaseOf s.trace = some .free) :
    phaseOf ((testing c s).effect p fun _ => p).state.trace = some .free := by
  rcases testing_cases c s with ⟨_, hx⟩ | ⟨e, _, hx⟩ <;> rw [hx] <;> exact h

theorem phaseOf_read {n : Nat} {p : Position} {s : State} (h : phaseOf s.trace = some .free) :
    phaseOf ((memRead n s).effect p fun bs => { p with bs := bs }).state.trace = some .free := by
  rcases memRead_cases n s with ⟨_, hx⟩ | ⟨_, hx⟩ <;> rw [hx] <;> exact phaseOf_next h rfl

/-- A primitive outside SEND leaves no write, flush or settle in the trace. -/
theorem phaseOf_outside {st : SeqStep} {s : State} (hline : st.sendLine = 1) (hnext : st.nextSendLine = 1)
    (p : Position) (h : phaseOf s.trace = some .free) : phaseOf (primitive st p s).state.trace = some .free := by
  cases st
  case write => cases hnext
  case countTest | flushIn | settle => cases hline
  case testOpen | test | testActive | closedTest | boundTest | lengthTest | markerTest | reportCaught =>
    exact phaseOf_testing h
  case read | readFrame => exact phaseOf_read h
  case flushOut =>
    rw [primitive]
    rcases flushOut_cases s with ⟨_, hx⟩ | ⟨_, hx⟩ <;> rw [hx] <;> exact phaseOf_next h rfl
  case openTransport port baud timeout =>
    rw [primitive]
    rcases transportOpen_cases port baud timeout s with ⟨_, hx⟩ | ⟨_, hx⟩ <;> rw [hx] <;> exact phaseOf_next h rfl
  case closeTransport =>
    rw [primitive, closeEffect]
    rcases transportClose_cases s with ⟨_, hx⟩ | ⟨_, hx⟩ <;> rw [hx] <;> exact phaseOf_next h rfl
  case stamp => exact phaseOf_next h rfl
  case decode => rw [primitive, decodeEffect]; split <;> exact h
  all_goals exact h

/-- A primitive brings the trace from the phase of its step to the phase of what is to stand next (R51, R80). -/
theorem phaseOf_primitive {st : SeqStep} {p : Position} {s : State} (h : phaseOf s.trace = some (st.phase p.count)) :
    phaseOf (primitive st p s).state.trace = some ((primitive st p s).phaseAfter st) := by
  cases st
  case write src =>
    rw [primitive]
    rcases memWrite_cases (sourceFrame s.params.speedBase s.active src) s with ⟨_, hx⟩ | ⟨_, hx⟩ <;> rw [hx]
    · exact phaseOf_next h (next_tx _ _)
    · exact phaseOf_next h rfl
  case countTest =>
    by_cases hn : p.count = 3
    · rw [primitive_countTest_whole hn]
      rwa [SeqStep.phase, if_pos hn] at h
    · rw [primitive_countTest_short hn]
      rwa [SeqStep.phase, if_neg hn] at h
  case flushIn =>
    rw [primitive]
    rcases flushIn_cases s with ⟨_, hx⟩ | ⟨_, hx⟩ <;> rw [hx] <;> exact phaseOf_next h rfl
  case settle => exact phaseOf_next h rfl
  all_goals
    rw [phaseAfter_outside rfl]
    exact phaseOf_outside rfl rfl p h

/-! ### Where SEQ goes, the pacing agrees -/

/-- An idle block is paced where no SEND is under way. -/
theorem paced_of_idle {s : State} (hs : s.seq = .idle) (h : phaseOf s.trace = some .free) : PacedWithSeq s := by
  rw [PacedWithSeq, State.seqPhase, hs]
  exact h

/-- At a step of its operation the block is paced where the trace ends in the phase of that step. -/
theorem pacedWithSeq_at {s : State} {p : Position} {st : SeqStep} (hc : p.current s.params = some st) :
    PacedWithSeq (s.at p) ↔ phaseOf s.trace = some (st.phase p.count) := by
  simp only [PacedWithSeq, State.seqPhase, State.at, hc, Option.map_some, Option.getD_some]

/-- SEQ resumes in the phase of the line of SEND the steps left begin with. -/
theorem paced_resume {s : State} {p : Position} {left : List (Place × SeqStep)} (hleft : left <:+ program s.params p.op)
    (h : phaseOf s.trace = some (sendLinePhase p.count (sendLineAt (left.map (·.2))))) :
    PacedWithSeq (s.resume p left) := by
  cases left with
  | nil => exact paced_of_idle rfl h
  | cons x later =>
    obtain ⟨earlier, hsplit⟩ := hleft
    have hc : ({ p with place := x.1 } : Position).current s.params = some x.2 := current_of_split hsplit.symm
    refine (pacedWithSeq_at hc).mpr ?_
    rw [phase_eq_sendLinePhase]
    exact h

/-- A raise leaves the block idle or before the close of the Transport: no SEND is under way (R116, R182). -/
theorem paced_raiseExc {s : State} {p : Position} (e : Exc) (h : phaseOf s.trace = some .free) :
    PacedWithSeq (s.raiseExc p e) := by
  rcases raiseExc_cases s p e with hx | ⟨hop, _, _, hx⟩ <;> rw [hx]
  · exact paced_of_idle rfl h
  · have hc := current_close_line4 (params := s.params) (p := { p with err := some e, place := ⟨4, 0, 0⟩ }) hop rfl
    exact (pacedWithSeq_at hc).mpr h

/-- From a paced state at a step, the primitive and its move of SEQ come to a paced state. -/
theorem paced_conclude {st : SeqStep} {p : Position} {s : State} (hc : p.current s.params = some st)
    (h : phaseOf s.trace = some (st.phase p.count)) : PacedWithSeq (primitive st p s).conclude := by
  obtain ⟨later, hr, hsuffix⟩ := rest_of_current hc
  have hlands := lands_primitive hr hsuffix
  have hphase := phaseOf_primitive h
  obtain ⟨_, hparams, _, _, hop, hplace, _⟩ := primitive_leaves st p s
  rw [Effect.conclude]
  rw [Effect.phaseAfter] at hphase
  cases hg : (primitive st p s).goes with
  | on skip =>
    rw [hg] at hlands hphase
    have hrest : (primitive st p s).pos.rest (primitive st p s).state.params = p.rest s.params := by
      rw [hparams, rest_congr hop hplace]
    refine paced_resume ?_ ?_
    · rw [hrest, hparams, hop]
      exact (List.drop_suffix _ _).trans hsuffix
    · rw [hrest, hr, List.drop_succ_cons, List.map_drop, eq_of_beq (Bool.and_eq_true_iff.mp hlands).2]
      exact hphase
  | toLine n =>
    rw [hg] at hlands hphase
    refine paced_resume (List.dropWhile_suffix _) ?_
    rw [hparams, hop]
    exact hphase.trans (congrArg (fun l => some (sendLinePhase _ l)) (eq_of_beq hlands).symm)
  | ends v => exact paced_of_idle rfl (by rw [hg] at hphase; exact hphase)
  | raises e => exact paced_raiseExc e (by rw [hg] at hphase; exact hphase)

/-! ### Idle -/

/-- Accepted or failing, emissions leave no SEND under way (R80, R102). -/
theorem phaseOf_emitsFail {es : List Emit} {s u : State} {e : Exc} (hfail : EmitsFail es s e u)
    (h : phaseOf s.trace = some .free) : phaseOf u.trace = some .free := by
  induction hfail with
  | write => exact phaseOf_next h rfl
  | short f es s _ hcount =>
    have hnext := next_tx f s.answer.count
    rw [sendLinePhase, if_neg hcount] at hnext
    exact phaseOf_next h hnext
  | flushIn => exact phaseOf_next (phaseOf_next h rfl) rfl
  | flushOut => exact phaseOf_next h rfl
  | later e0 _ _ _ _ _ _ ih =>
    cases e0 with
    | frame f => exact ih (phaseOf_sent f h)
    | flushOut => exact ih (phaseOf_next h rfl)

/-- A frame-level instruction run whole leaves no SEND under way (R80). -/
theorem phaseOf_issueFrame {parts : FrameParts} {s t : State} (h : phaseOf s.trace = some .free)
    (hx : issueFrame parts s = .next t) : phaseOf t.trace = some .free := by
  rcases issueFrame_cases parts s with ⟨e, _, hi⟩ | ⟨_, ⟨_, hi⟩ | ⟨e, u, hfail, hi⟩⟩ <;> rw [hi] at hx <;> cases hx
  · exact h
  · exact phaseOf_sent _ h
  · exact (phaseOf_emitsFail hfail h : phaseOf u.trace = _)

theorem phase_firstTest (o : Op) (n : Nat) : o.firstTest.phase n = .free := by
  cases o <;> rfl

/-- Settles O53: at a position by `paced_conclude`; idle, a whole instruction ends with no SEND under way and an operation
begins before any. -/
theorem stepKeepsPacing : Obligations.StepKeepsPacing := by
  intro s t hpaced h
  cases hs : s.seq with
  | running p =>
    obtain ⟨st, hc, rfl⟩ := step_running hs h
    rw [← at_of_running hs, pacedWithSeq_at hc] at hpaced
    exact paced_conclude hc hpaced
  | idle =>
    have hfree : phaseOf s.trace = some .free := by rwa [PacedWithSeq, State.seqPhase, hs] at hpaced
    rcases step_idle hs h with rfl | ⟨w, rest, i, _, _, hx⟩ | ⟨o, r, rest, _, rfl⟩
    · exact hpaced
    · rw [exec_eq_issueFrame] at hx
      exact paced_of_idle (issueFrame_ends hx).1 (phaseOf_issueFrame (s := { s with requests := rest }) hfree hx)
    · have hc := current_first (params := s.params) (p := startOf o) rfl
      refine (pacedWithSeq_at (s := { s with requests := rest }) hc).mpr ?_
      rw [phase_firstTest]
      exact hfree

end Sys2Proof.Machine

/-! ## The opcode map both ways (30_encoding.md R61 to R76, R97 (c)) -/

namespace Sys2Proof.Machine

/-! ### Bytes, channel-bits and operand fields -/

theorem toNat_byteOf {n : Nat} (h : n < 256) : (byteOf n).toNat = n :=
  Nat.mod_eq_of_lt h

theorem byteOf_toNat (b : Byte) : byteOf b.toNat = b := by
  simp [byteOf]

/-- A channel-bit fits the low nibble of byte3 (R63). -/
theorem chbit_cases {ch : Int} (h : 1 ≤ ch ∧ ch ≤ 4) : chbit ch = 1 ∨ chbit ch = 2 ∨ chbit ch = 4 ∨ chbit ch = 8 := by
  obtain rfl | rfl | rfl | rfl : ch = 1 ∨ ch = 2 ∨ ch = 3 ∨ ch = 4 := by omega
  all_goals decide

/-- The decoder reads exactly the channel-bits back (R63). -/
theorem channelOfBit_eq_some_iff {low : Nat} {ch : Int} :
    channelOfBit low = some ch ↔ (1 ≤ ch ∧ ch ≤ 4) ∧ low = chbit ch := by
  constructor
  · intro h
    unfold channelOfBit at h
    split at h <;> cases h <;> decide
  · rintro ⟨hch, rfl⟩
    obtain rfl | rfl | rfl | rfl : ch = 1 ∨ ch = 2 ∨ ch = 3 ∨ ch = 4 := by omega
    all_goals rfl

theorem decodeBare_eq_ok_iff {p q : Nat} {i j : Instr} : decodeBare p q i = .ok j ↔ (p = 0 ∧ q = 0) ∧ i = j := by
  unfold decodeBare
  split <;> simp [*]

theorem decodeFields_eq_ok_iff {p q pmax qmax : Nat} {i j : Instr} :
    decodeFields p q pmax qmax i = .ok j ↔ (p ≤ pmax ∧ q ≤ qmax) ∧ i = j := by
  unfold decodeFields
  split <;> simp [*]

theorem decodeChannel_eq_ok_iff {low p q pmax qmax : Nat} {mk : Int → Instr} {j : Instr} :
    decodeChannel low p q pmax qmax mk = .ok j ↔
      ∃ ch, ((1 ≤ ch ∧ ch ≤ 4) ∧ low = chbit ch) ∧ (p ≤ pmax ∧ q ≤ qmax) ∧ mk ch = j := by
  unfold decodeChannel
  simp only [← channelOfBit_eq_some_iff]
  cases channelOfBit low <;> simp [decodeFields_eq_ok_iff]

/-! ### The speed rows (R69) -/

theorem speedOfIndex_eq_some {k : Nat} {i : Instr} (h : speedOfIndex k = some i) :
    k ≤ 5 ∧ i.wellFormed = true ∧ i.canonical = i ∧ ∀ base, encode base i = speedFrame base k := by
  unfold speedOfIndex at h
  split at h <;> cases h <;> exact ⟨by decide, rfl, rfl, fun _ => rfl⟩

/-- Only a frame with both guards and an opcode of the base is a speed frame (R62, R69). -/
theorem decodeSpeed_eq_some {base : SpeedBase} {p q op : Nat} {i : Instr} (h : decodeSpeed base p q op = some i) :
    p = 0x5A ∧ q = 0x5A ∧ ∃ k, op = base.val + k ∧ speedOfIndex k = some i := by
  unfold decodeSpeed at h
  split at h
  · next hguard =>
    obtain ⟨hp, hq, hbase⟩ := hguard
    exact ⟨hp, hq, op - base.val, by omega, h⟩
  · cases h

theorem decodeFrame_speedFrame {base : SpeedBase} {k : Nat} {i : Instr} (h : speedOfIndex k = some i) :
    decodeFrame base (speedFrame base k) = .ok i := by
  have hk := (speedOfIndex_eq_some h).1
  have hop : (byteOf (base.val + k)).toNat = base.val + k := toNat_byteOf (by omega)
  have hs : decodeSpeed base 0x5A 0x5A (base.val + k) = some i := by
    rw [decodeSpeed, if_pos ⟨rfl, rfl, Nat.le_add_right ..⟩, Nat.add_sub_cancel_left, h]
  unfold decodeFrame speedFrame
  rw [hop]
  exact hs ▸ rfl

/-! ### The other rows (R62) -/

/-- Without the guard in byte1 a frame is read by its row (R62). -/
theorem decodeFrame_of_row {base : SpeedBase} {p q op : Nat} {i : Instr} (hp : p ≤ 15) (hq : q ≤ 15) (hop : op ≤ 255)
    (h : decodeRow base p q op = .ok i) : decodeFrame base ⟨byteOf p, byteOf q, byteOf op⟩ = .ok i := by
  have hs : decodeSpeed base p q op = none := if_neg fun hguard => by
    have hguard1 : p = 0x5A := hguard.1
    omega
  have hbytes : (byteOf p).toNat = p ∧ (byteOf q).toNat = q ∧ (byteOf op).toNat = op :=
    ⟨toNat_byteOf (by omega), toNat_byteOf (by omega), toNat_byteOf (by omega)⟩
  simp only [decodeFrame, hbytes, hs, h]

/-- A row without operand bytes (formats F0 and FM of R61). -/
theorem decodeFrame_bare {base : SpeedBase} {op : Nat} {i : Instr} (hop : op ≤ 255)
    (hrow : decodeRow base 0 0 op = decodeBare 0 0 i) : decodeFrame base ⟨0, 0, byteOf op⟩ = .ok i :=
  decodeFrame_of_row (p := 0) (q := 0) (by decide) (by decide) hop hrow

/-- A row with operand fields (formats FC and FN of R61). -/
theorem decodeFrame_fields {base : SpeedBase} {p q pmax qmax op : Nat} {i j : Instr}
    (hrow : decodeRow base p q op = decodeFields p q pmax qmax i) (hop : op ≤ 255) (hp : p ≤ pmax) (hq : q ≤ qmax)
    (hfields : pmax ≤ 15 ∧ qmax ≤ 15) (hi : i = j) : decodeFrame base ⟨byteOf p, byteOf q, byteOf op⟩ = .ok j :=
  decodeFrame_of_row (hp.trans hfields.1) (hq.trans hfields.2) hop
    (hrow.trans (decodeFields_eq_ok_iff.mpr ⟨⟨hp, hq⟩, hi⟩))

/-- The rows of the mask frames (R62, format FM). -/
theorem decodeRow_mask {base : SpeedBase} {p q low : Nat} (h : low ≤ 15) :
    decodeRow base p q (0x80 + low) = decodeBare p q (.act low) ∧
    decodeRow base p q (0xD0 + low) = decodeBare p q (.reinit low) := by
  have hact : (0x80 + low) / 16 = 8 ∧ (0x80 + low) % 16 = low := by omega
  have hreinit : (0xD0 + low) / 16 = 13 ∧ (0xD0 + low) % 16 = low := by omega
  simp only [decodeRow, hact, hreinit, and_self]

/-- The rows of the channel frames (R62, format FC). -/
theorem decodeRow_channel {base : SpeedBase} {p q : Nat} {ch : Int} (h : 1 ≤ ch ∧ ch ≤ 4) :
    decodeRow base p q (0x90 + chbit ch) = decodeFields p q 0 3 (.intype ch (q : Int)) ∧
    decodeRow base p q (0xA0 + chbit ch) = decodeFields p q 15 15 (.freqhi ch ((p * 4096 + q * 256 : Nat) : Int)) ∧
    decodeRow base p q (0xB0 + chbit ch) = decodeFields p q 15 15 (.freqlo ch ((p * 16 + q : Nat) : Int)) ∧
    decodeRow base p q (0xC0 + chbit ch) = decodeFields p q 7 7 (.gaincal ch (p : Int) (q : Int)) := by
  obtain rfl | rfl | rfl | rfl : ch = 1 ∨ ch = 2 ∨ ch = 3 ∨ ch = 4 := by omega
  all_goals exact ⟨rfl, rfl, rfl, rfl⟩

/-! ### Decoding an encoded frame -/

theorem bitField_le (v : Int) (lo : Nat) : bitField v lo 4 ≤ 15 := by
  simp only [bitField]
  omega

/-- The two nibbles of the low byte of a number (R46, R85). -/
theorem lowByte_of_bitFields {c : Int} (h : 0 ≤ c) :
    ((bitField c 4 4 * 16 + bitField c 0 4 : Nat) : Int) = c % 256 := by
  simp only [bitField]
  omega

/-- The two nibbles of the high byte of a 16-bit number (R46, R86). -/
theorem highByte_of_bitFields {c : Int} (h : 0 ≤ c ∧ c ≤ 65535) :
    ((bitField c 12 4 * 4096 + bitField c 8 4 * 256 : Nat) : Int) = c / 256 * 256 := by
  simp only [bitField]
  omega

theorem byte_of_bitFields {v : Int} (h : 0 ≤ v ∧ v ≤ 255) :
    ((bitField v 4 4 * 16 + bitField v 0 4 : Nat) : Int) = v := by
  rw [lowByte_of_bitFields h.1]
  omega

/-- Settles O1: each row of the map reads back the operands its frame was made of. -/
theorem decodeGivesBackEncodedInstruction : Obligations.DecodeGivesBackEncodedInstruction := by
  intro base i hwf
  change decodeFrame base (encode base i) = .ok i.canonical
  cases i <;> simp only [Instr.wellFormed, Bool.and_eq_true, within_iff] at hwf
  case act m =>
    have hrow := decodeFrame_bare (by omega) (decodeRow_mask (base := base) (low := m.toNat) (by omega)).1
    rwa [Int.toNat_of_nonneg hwf.1] at hrow
  case reinit m =>
    have hrow := decodeFrame_bare (by omega) (decodeRow_mask (base := base) (low := m.toNat) (by omega)).2
    rwa [Int.toNat_of_nonneg hwf.1] at hrow
  case intype ch t =>
    obtain ⟨hch, ht⟩ := hwf
    obtain ⟨hrow, _⟩ := decodeRow_channel (base := base) (p := 0) (q := t.toNat) hch
    have hbit := chbit_cases hch
    exact decodeFrame_fields hrow (by omega) le_rfl (by omega) (by decide)
      (congrArg (Instr.intype ch) (Int.toNat_of_nonneg ht.1))
  case freqhi ch c =>
    obtain ⟨hch, hc⟩ := hwf
    obtain ⟨_, hrow, _⟩ := decodeRow_channel (base := base) (p := bitField c 12 4) (q := bitField c 8 4) hch
    have hbit := chbit_cases hch
    exact decodeFrame_fields hrow (by omega) (bitField_le ..) (bitField_le ..) (by decide)
      (congrArg (Instr.freqhi ch) (highByte_of_bitFields hc))
  case freqlo ch c =>
    obtain ⟨hch, hc⟩ := hwf
    obtain ⟨_, _, hrow, _⟩ := decodeRow_channel (base := base) (p := bitField c 4 4) (q := bitField c 0 4) hch
    have hbit := chbit_cases hch
    exact decodeFrame_fields hrow (by omega) (bitField_le ..) (bitField_le ..) (by decide)
      (congrArg (Instr.freqlo ch) (lowByte_of_bitFields hc.1))
  case gaincal ch k g =>
    obtain ⟨⟨hch, hk⟩, hg⟩ := hwf
    obtain ⟨_, _, _, hrow⟩ := decodeRow_channel (base := base) (p := k.toNat) (q := g.toNat) hch
    have hbit := chbit_cases hch
    exact decodeFrame_fields hrow (by omega) (by omega) (by omega) (by decide)
      (congrArg₂ (Instr.gaincal ch) (Int.toNat_of_nonneg hk.1) (Int.toNat_of_nonneg hg.1))
  case eeaddr a =>
    exact decodeFrame_fields (op := 0xF2) rfl (by decide) (bitField_le ..) (bitField_le ..) (by decide)
      (congrArg Instr.eeaddr (byte_of_bitFields hwf))
  case eewr v =>
    exact decodeFrame_fields (op := 0xF3) rfl (by decide) (bitField_le ..) (bitField_le ..) (by decide)
      (congrArg Instr.eewr (byte_of_bitFields hwf))
  case tmrrst => exact decodeFrame_bare (op := 0xF0) (by decide) rfl
  case eerd => exact decodeFrame_bare (op := 0xF1) (by decide) rfl
  case query => exact decodeFrame_bare (op := 0xF5) (by decide) rfl
  case mode5 => exact decodeFrame_bare (op := 0xF6) (by decide) rfl
  case mode4 => exact decodeFrame_bare (op := 0xF7) (by decide) rfl
  case stop => exact decodeFrame_bare (op := 0xFF) (by decide) rfl
  case speed0 | speed1 | speed2 | speed3 | speed4 | speed5 => exact decodeFrame_speedFrame rfl

/-! ### Encoding a decoded instruction -/

/-- The frame of these three numbers is the frame of the instruction, which is well-formed and canonical. -/
structure IsFrameOf (base : SpeedBase) (p q op : Nat) (i : Instr) : Prop where
  wellFormed : i.wellFormed = true
  canonical : i.canonical = i
  frame : encode base i = ⟨byteOf p, byteOf q, byteOf op⟩

/-- A channel frame the decoder accepts carries the fields and the channel-bit of its instruction (R61, R63). -/
theorem isFrameOf_channel {base : SpeedBase} {p q pmax qmax op : Nat} {i : Instr} {mk : Int → Instr}
    (h : decodeChannel (op % 16) p q pmax qmax mk = .ok i)
    (hmk : ∀ ch, 1 ≤ ch ∧ ch ≤ 4 → p ≤ pmax → q ≤ qmax → IsFrameOf base p q (op / 16 * 16 + chbit ch) (mk ch)) :
    IsFrameOf base p q op i := by
  obtain ⟨ch, ⟨hch, hlow⟩, ⟨hp, hq⟩, rfl⟩ := decodeChannel_eq_ok_iff.mp h
  have hframe := hmk ch hch hp hq
  rwa [← hlow, Nat.div_add_mod'] at hframe

theorem isFrameOf_decodeFixed {base : SpeedBase} {p q low : Nat} {i : Instr} (h : decodeFixed p q low = .ok i) :
    IsFrameOf base p q (0xF0 + low) i := by
  unfold decodeFixed at h
  split at h
  case h_1 | h_2 | h_5 | h_6 | h_7 | h_8 =>
    obtain ⟨⟨rfl, rfl⟩, rfl⟩ := decodeBare_eq_ok_iff.mp h
    exact ⟨rfl, rfl, rfl⟩
  case h_3 | h_4 =>
    obtain ⟨⟨hp, hq⟩, rfl⟩ := decodeFields_eq_ok_iff.mp h
    have hhigh : bitField ((p * 16 + q : Nat) : Int) 4 4 = p := by simp only [bitField]; omega
    have hlow : bitField ((p * 16 + q : Nat) : Int) 0 4 = q := by simp only [bitField]; omega
    refine ⟨within_iff.mpr (by omega), rfl, ?_⟩
    simp only [encode, hhigh, hlow]
    rfl
  case h_9 => cases h

theorem isFrameOf_decodeRow {base : SpeedBase} {p q op : Nat} {i : Instr} (h : decodeRow base p q op = .ok i) :
    IsFrameOf base p q op i := by
  simp only [decodeRow] at h
  split at h
  case h_1 hhi => -- ACT
    obtain ⟨⟨rfl, rfl⟩, rfl⟩ := decodeBare_eq_ok_iff.mp h
    have hop : 0x80 + op % 16 = op := by omega
    refine ⟨within_iff.mpr (by omega), rfl, ?_⟩
    rw [encode, Int.toNat_natCast, hop]
    rfl
  case h_6 hhi => -- REINIT
    obtain ⟨⟨rfl, rfl⟩, rfl⟩ := decodeBare_eq_ok_iff.mp h
    have hop : 0xD0 + op % 16 = op := by omega
    refine ⟨within_iff.mpr (by omega), rfl, ?_⟩
    rw [encode, Int.toNat_natCast, hop]
    rfl
  case h_2 hhi => -- INTYPE
    refine isFrameOf_channel h fun ch hch hp hq => ?_
    obtain rfl : p = 0 := by omega
    rw [hhi]
    refine ⟨?_, rfl, ?_⟩
    · simp only [Instr.wellFormed, Bool.and_eq_true, within_iff]
      omega
    · rw [encode, Int.toNat_natCast]
      rfl
  case h_3 hhi => -- FREQHI
    refine isFrameOf_channel h fun ch hch hp hq => ?_
    have hp' : bitField ((p * 4096 + q * 256 : Nat) : Int) 12 4 = p := by simp only [bitField]; omega
    have hq' : bitField ((p * 4096 + q * 256 : Nat) : Int) 8 4 = q := by simp only [bitField]; omega
    rw [hhi]
    refine ⟨?_, congrArg (Instr.freqhi ch) (by omega), ?_⟩
    · simp only [Instr.wellFormed, Bool.and_eq_true, within_iff]
      omega
    · rw [encode, hp', hq']
  case h_4 hhi => -- FREQLO
    refine isFrameOf_channel h fun ch hch hp hq => ?_
    have hp' : bitField ((p * 16 + q : Nat) : Int) 4 4 = p := by simp only [bitField]; omega
    have hq' : bitField ((p * 16 + q : Nat) : Int) 0 4 = q := by simp only [bitField]; omega
    rw [hhi]
    refine ⟨?_, congrArg (Instr.freqlo ch) (by omega), ?_⟩
    · simp only [Instr.wellFormed, Bool.and_eq_true, within_iff]
      omega
    · rw [encode, hp', hq']
  case h_5 hhi => -- GAINCAL
    refine isFrameOf_channel h fun ch hch hp hq => ?_
    rw [hhi]
    refine ⟨?_, rfl, ?_⟩
    · simp only [Instr.wellFormed, Bool.and_eq_true, within_iff]
      omega
    · rw [encode, Int.toNat_natCast, Int.toNat_natCast]
  case h_7 hhi => -- the fixed rows
    have hframe := isFrameOf_decodeFixed (base := base) h
    rwa [show 0xF0 + op % 16 = op by omega] at hframe
  case h_8 => cases h

/-- What the decoder accepts is a speed frame of the base or a row of the map (R62). -/
theorem decodeFrame_cases {base : SpeedBase} {f : Frame} {i : Instr} (h : decodeFrame base f = .ok i) :
    decodeSpeed base f.byte1.toNat f.byte2.toNat f.byte3.toNat = some i ∨
      decodeRow base f.byte1.toNat f.byte2.toNat f.byte3.toNat = .ok i := by
  unfold decodeFrame at h
  split at h
  · next hs => cases h; exact .inl hs
  · exact .inr h

theorem isFrameOf_decodeSpeed {base : SpeedBase} {p q op : Nat} {i : Instr} (h : decodeSpeed base p q op = some i) :
    IsFrameOf base p q op i := by
  obtain ⟨rfl, rfl, k, rfl, hk⟩ := decodeSpeed_eq_some h
  obtain ⟨_, hwf, hcanonical, hframe⟩ := speedOfIndex_eq_some hk
  exact ⟨hwf, hcanonical, hframe base⟩

theorem isFrameOf_decodeFrame {base : SpeedBase} {f : Frame} {i : Instr} (h : decodeFrame base f = .ok i) :
    IsFrameOf base f.byte1.toNat f.byte2.toNat f.byte3.toNat i :=
  (decodeFrame_cases h).elim isFrameOf_decodeSpeed isFrameOf_decodeRow

/-- A byte string the decoder accepts is one frame (R60). -/
theorem frame_of_decode {base : SpeedBase} {bs : List Byte} {i : Instr} (h : decode base bs = .ok i) :
    ∃ f : Frame, f.bytes = bs ∧ decodeFrame base f = .ok i := by
  unfold decode at h
  split at h
  · next b1 b2 b3 => exact ⟨⟨b1, b2, b3⟩, rfl, h⟩
  · cases h

/-- Settles O2: what the decoder accepts encodes back to the same bytes, and a second instruction with that frame would
be decoded from it too (O1). -/
theorem decoderAcceptsOnlyFramesOfTheMap : Obligations.DecoderAcceptsOnlyFramesOfTheMap := by
  intro base bs i h
  obtain ⟨f, hbytes, hf⟩ := frame_of_decode h
  obtain ⟨hwf, hcanonical, hframe⟩ := isFrameOf_decodeFrame hf
  simp only [byteOf_toNat] at hframe
  refine ⟨hwf, hcanonical, (congrArg Frame.bytes hframe).trans hbytes, fun j hjwf hjcanonical hj => ?_⟩
  have hdecode := decodeGivesBackEncodedInstruction base j hjwf
  rw [hj, h, hjcanonical] at hdecode
  exact (Except.ok.inj hdecode).symm

/-! ### Frames outside the map -/

/-- What R74 asks of every frame of the map but a speed frame: an assigned opcode, operands in the low nibbles, in a
channel frame a one-hot channel-bit, and the operands of INTYPE and GAINCAL inside their codes. -/
structure RowShape (p q op : Nat) : Prop where
  assigned : (0x80 ≤ op ∧ op ≤ 0xDF) ∨ (0xF0 ≤ op ∧ op ≤ 0xF7 ∧ op ≠ 0xF4) ∨ op = 0xFF
  nibbles : p ≤ 15 ∧ q ≤ 15
  oneHot : 0x90 ≤ op → op ≤ 0xCF → op % 16 = 1 ∨ op % 16 = 2 ∨ op % 16 = 4 ∨ op % 16 = 8
  intype : 0x90 ≤ op → op ≤ 0x9F → q ≤ 3
  gaincal : 0xC0 ≤ op → op ≤ 0xCF → p ≤ 7 ∧ q ≤ 7

theorem low_of_decodeFixed {p q low : Nat} {i : Instr} (h : decodeFixed p q low = .ok i) :
    ((low ≤ 7 ∧ low ≠ 4) ∨ low = 15) ∧ p ≤ 15 ∧ q ≤ 15 := by
  unfold decodeFixed at h
  split at h
  case h_1 | h_2 | h_5 | h_6 | h_7 | h_8 =>
    have hbare := (decodeBare_eq_ok_iff.mp h).1
    omega
  case h_3 | h_4 =>
    have hfields := (decodeFields_eq_ok_iff.mp h).1
    omega
  case h_9 => cases h

theorem rowShape_of_decodeRow {base : SpeedBase} {p q op : Nat} {i : Instr} (h : decodeRow base p q op = .ok i) :
    RowShape p q op := by
  simp only [decodeRow] at h
  split at h
  case h_1 | h_6 =>
    have hbare := (decodeBare_eq_ok_iff.mp h).1
    constructor <;> omega
  case h_2 | h_3 | h_4 | h_5 =>
    obtain ⟨ch, ⟨hch, hlow⟩, hfields, _⟩ := decodeChannel_eq_ok_iff.mp h
    have hbit := chbit_cases hch
    constructor <;> omega
  case h_7 =>
    have hfixed := low_of_decodeFixed h
    constructor <;> omega
  case h_8 => cases h

/-- Settles O3: an accepted frame is a speed frame, with both guards and an opcode of the base, or has the shape of a
row. -/
theorem framesOutsideTheMapAreRefused : Obligations.FramesOutsideTheMapAreRefused := by
  refine ⟨fun b1 b2 b3 hout i h => ?_, fun base b1 b2 b3 hout hspeed i h => ?_⟩
  · rcases decodeFrame_cases h with hs | hr
    · obtain ⟨hguard1, hguard2, k, hop, hk⟩ := decodeSpeed_eq_some hs
      have hbase : Config.speedBaseDefault.val = 14 := rfl
      have hindex := (speedOfIndex_eq_some hk).1
      simp only at hguard1 hguard2 hop
      omega
    · obtain ⟨hassigned, hnibbles, honeHot, hintype, hgaincal⟩ := rowShape_of_decodeRow hr
      simp only at hassigned hnibbles honeHot hintype hgaincal
      omega
  · rcases decodeFrame_cases h with hs | hr
    · obtain ⟨hguard1, hguard2, k, hop, hk⟩ := decodeSpeed_eq_some hs
      have hindex := (speedOfIndex_eq_some hk).1
      simp only at hguard1 hguard2 hop
      omega
    · have hassigned := (rowShape_of_decodeRow hr).assigned
      simp only at hassigned
      omega

/-- Settles O4: each of the nine frames is read by its row. -/
theorem writtenOutFramesDecode : Obligations.WrittenOutFramesDecode :=
  ⟨rfl, rfl, rfl, rfl, rfl, rfl, rfl, rfl, rfl⟩

end Sys2Proof.Machine

/-! ## Completion of a frame-level instruction (40_command_frames.md R80) -/

namespace Sys2Proof.Machine

/-- Emissions the Transport accepts do not fail (R80). -/
theorem not_emitsFail_of_accepts {es : List Emit} {s u : State} {e : Exc} (ha : accepts es s) : ¬EmitsFail es s e u := by
  intro hfail
  induction hfail with
  | write _ _ _ hok => exact Bool.false_ne_true (hok.symm.trans ha.1)
  | short _ _ _ _ hcount => exact hcount ha.2.1
  | flushIn _ _ _ _ _ hflush => exact Bool.false_ne_true (hflush.symm.trans ha.2.2.1)
  | flushOut _ _ hok => exact Bool.false_ne_true (hok.symm.trans ha.1)
  | later _ _ _ _ _ _ _ ih => exact ih (accepts_cons.mp ha).2

/-- In an open block with passing checks an accepted frame is sent and the instruction is done (R80, R81). -/
theorem issueFrame_of_accepts {parts : FrameParts} {s : State} (ho : s.isOpen = true)
    (hc : firstFailing parts.checks = none) (ha : accepts [.frame parts.frame] s) :
    issueFrame parts s = .next ((s.sent parts.frame).deliver (.done .empty)) := by
  have hchecks : firstFailing (chkOpen s :: parts.checks) = none := by rwa [chkOpen_open ho, firstFailing_none]
  rcases issueFrame_cases parts s with ⟨e, hfail, _⟩ | ⟨_, ⟨_, h⟩ | ⟨e, u, hfail, _⟩⟩
  · rw [hchecks] at hfail; cases hfail
  · exact h
  · exact absurd hfail (not_emitsFail_of_accepts ha)

/-- Settles O14: a well-formed instruction passes its checks (`checks_eq_none_iff`) and its frame is its encoding
(`partsFrame_eq_encode`). -/
theorem everyInstructionSendsItsEncoding : Obligations.EveryInstructionSendsItsEncoding := by
  intro i s ho hwf ha
  have hframe := partsFrame_eq_encode s.params.speedBase i hwf
  rw [← hframe] at ha ⊢
  rw [exec_eq_issueFrame]
  exact issueFrame_of_accepts ho ((checks_eq_none_iff _ i).mpr hwf) ha

end Sys2Proof.Machine

/-! ## Divisor and gain code (30_encoding.md R65, R66) -/

namespace Sys2Proof.Machine

/-- The constant 128 of the formula divides out (R65). -/
theorem divisor_intCast (hz : Int) : divisor (hz : Rat) = 19200 / hz := by
  rw [divisor, Rat.num_intCast]
  exact Int.mul_ediv_mul_of_pos (a := 128) 19200 hz (by decide)

/-- Settles O44: the bounds are 19200 div 1000 and 19200 div 5. -/
theorem divisorOfLegalFrequency : Obligations.DivisorOfLegalFrequency := by
  intro hz hlow hhigh
  rw [divisor_intCast]
  exact ⟨rfl, (Int.le_ediv_iff_mul_le (by omega)).mpr (by omega), Int.ediv_le_of_le_mul (by omega) (by omega)⟩

theorem gaincode_two_pow : ∀ g : BitVec 3, gaincode (2 ^ g.toNat) = some g := by decide

theorem eq_two_pow_of_gaincode {gain : Rat} {g : BitVec 3} (h : gaincode gain = some g) : gain = 2 ^ g.toNat := by
  unfold gaincode at h
  repeat' split at h
  all_goals cases h
  all_goals subst gain
  all_goals rfl

/-- Settles O46: the eight entries of the table are the powers of two, and it has no other entry. -/
theorem gainCodeIsLogTwo : Obligations.GainCodeIsLogTwo :=
  ⟨fun g => ⟨gaincode_two_pow g, Nat.one_shiftLeft _⟩, fun _ _ => eq_two_pow_of_gaincode⟩

end Sys2Proof.Machine

/-! ## Frames sent are frames of the map (30_encoding.md R74; 40_command_frames.md R80, R81)

Every write of an operation stands behind the operand checks of its own instruction, so the checks that have passed
before SEQ make its frame one of the map. -/

namespace Sys2Proof.Machine

/-! ### The frames an operation may write -/

/-- Whatever ACTIVE holds, the write sends the frame of a well-formed instruction (R74). -/
def Source.InMap (base : SpeedBase) (src : Source) : Prop :=
  ∀ active, ∃ i : Instr, i.wellFormed = true ∧ encode base i = sourceFrame base active src

/-- Every write in these steps sends a frame of the map where the operand checks before it pass (R74, R81). -/
def WritesInMap (base : SpeedBase) : List SeqStep → Prop
  | [] => True
  | .test c :: left => c = none → WritesInMap base left
  | .write src :: left => src.InMap base ∧ WritesInMap base left
  | _ :: left => WritesInMap base left

/-- A step that is no write. -/
def SeqStep.sendsNothing : SeqStep → Bool
  | .write _ => false
  | _ => true

theorem WritesInMap.after {base : SpeedBase} {st : SeqStep} {left : List SeqStep} (hst : st.sendsNothing = true)
    (h : WritesInMap base left) : WritesInMap base (st :: left) := by
  cases st
  case write => cases hst
  case test => exact fun _ => h
  all_goals exact h

theorem WritesInMap.quiet {base : SpeedBase} {l : List SeqStep} (h : l.all (·.sendsNothing) = true) :
    WritesInMap base l := by
  induction l with
  | nil => trivial
  | cons st left ih =>
    rw [List.all_cons, Bool.and_eq_true] at h
    exact .after h.1 (ih h.2)

theorem WritesInMap.append {base : SpeedBase} {l m : List SeqStep} (hl : WritesInMap base l)
    (hm : WritesInMap base m) : WritesInMap base (l ++ m) := by
  induction l with
  | nil => exact hm
  | cons st left ih =>
    cases st
    case test => exact fun hc => ih (hl hc)
    case write => exact ⟨hl.1, ih hl.2⟩
    all_goals exact ih hl

/-- A write behind checks that have all passed sends a frame of the map. -/
theorem WritesInMap.source {base : SpeedBase} {earlier later : List SeqStep} {src : Source}
    (h : WritesInMap base (earlier ++ .write src :: later)) (hc : ∀ c, .test c ∈ earlier → c = none) :
    src.InMap base := by
  induction earlier with
  | nil => exact h.1
  | cons st left ih =>
    have hleft : ∀ c, .test c ∈ left → c = none := fun c hmem => hc c (List.mem_cons_of_mem _ hmem)
    cases st
    case test c => exact ih (h (hc c List.mem_cons_self)) hleft
    case write => exact ih h.2 hleft
    all_goals exact ih h hleft

/-! ### The calls -/

theorem writesInMap_tests {base : SpeedBase} (cs : List (Option Exc)) {left : List SeqStep}
    (h : firstFailing cs = none → WritesInMap base left) : WritesInMap base (cs.map .test ++ left) := by
  induction cs with
  | nil => exact h rfl
  | cons c cs ih =>
    intro hc
    subst hc
    exact ih h

/-- A call sends a frame of the map if that is its frame where its checks pass. -/
theorem writesInMap_call {base : SpeedBase} {parts : FrameParts}
    (h : firstFailing parts.checks = none → ∃ i : Instr, i.wellFormed = true ∧ encode base i = parts.frame) :
    WritesInMap base (callSteps parts) := by
  rw [callSteps_eq]
  exact writesInMap_tests parts.checks fun hc => ⟨fun _ => h hc, trivial⟩

/-- A frame-level instruction is well-formed where its checks pass (R81). -/
theorem writesInMap_instr (base : SpeedBase) (i : Instr) : WritesInMap base (callSteps (instrParts base i)) :=
  writesInMap_call fun hc =>
    have hwf := (checks_eq_none_iff base i).mp hc
    ⟨i, hwf, (partsFrame_eq_encode base i hwf).symm⟩

theorem writesInMap_speed (base : SpeedBase) (i : Int) : WritesInMap base (callSteps (speedParts base i)) :=
  writesInMap_call fun hc => by
    have hindex := within_iff.mp (chk_eq_none.mp (firstFailing_eq_none.mp hc _ List.mem_cons_self))
    obtain rfl | rfl | rfl | rfl | rfl | rfl : i = 0 ∨ i = 1 ∨ i = 2 ∨ i = 3 ∨ i = 4 ∨ i = 5 := by omega
    · exact ⟨.speed0, rfl, rfl⟩
    · exact ⟨.speed1, rfl, rfl⟩
    · exact ⟨.speed2, rfl, rfl⟩
    · exact ⟨.speed3, rfl, rfl⟩
    · exact ⟨.speed4, rfl, rfl⟩
    · exact ⟨.speed5, rfl, rfl⟩

/-- Four bits are a mask in 0..15. -/
theorem within_active (active : BitVec 4) : within 0 15 (active.toNat : Int) = true :=
  within_iff.mpr (by omega)

theorem writesInMap_actActive (base : SpeedBase) : WritesInMap base callActActive :=
  ⟨fun active => ⟨.act active.toNat, within_active active, rfl⟩, trivial⟩

theorem writesInMap_reinitActive (base : SpeedBase) : WritesInMap base callReinitActive :=
  ⟨fun active => ⟨.reinit active.toNat, within_active active, rfl⟩, trivial⟩

/-! ### The operations -/

theorem WritesInMap.done {base : SpeedBase} : WritesInMap base (inPlace []) := trivial

/-- An operation may be looked at line by line. -/
theorem WritesInMap.line {base : SpeedBase} {b : Block} {bs : List Block} (h : WritesInMap base b.steps)
    (hbs : WritesInMap base (inPlace bs)) : WritesInMap base (inPlace (b :: bs)) :=
  h.append hbs

theorem writesInMap_stop (base : SpeedBase) : WritesInMap base (inPlace stopBlocks) :=
  .line (.quiet rfl) (.line (writesInMap_instr base .stop) (.line (.quiet rfl) .done))

theorem writesInMap_setactive (base : SpeedBase) (f1 f2 f3 f4 : Option Bool) :
    WritesInMap base (inPlace (setactiveBlocks f1 f2 f3 f4)) :=
  .line (.quiet rfl) (.line (writesInMap_stop base) (.line (.quiet rfl) (.line (writesInMap_actActive base) .done)))

theorem writesInMap_reinitialize (base : SpeedBase) : WritesInMap base (inPlace reinitializeBlocks) :=
  .line (.quiet rfl) (.line (writesInMap_reinitActive base) (.line (writesInMap_actActive base) .done))

theorem writesInMap_setfreq (base : SpeedBase) (ch : Int) (f : Rat) :
    WritesInMap base (inPlace (setfreqBlocks ch f)) :=
  .line (.quiet rfl) (.line (.quiet rfl) (.line (writesInMap_instr base (.freqlo ch (divisor f)))
    (.line (writesInMap_instr base (.freqhi ch (divisor f))) .done)))

theorem writesInMap_setgaincal (base : SpeedBase) (ch k : Int) (gain : Rat) :
    WritesInMap base (inPlace (setgaincalBlocks ch k gain)) :=
  .line (.quiet rfl) (.line (writesInMap_instr base (.gaincal ch k (gainCodeOf gain).toNat)) (.line (.quiet rfl) .done))

theorem writesInMap_setinput (base : SpeedBase) (p : Params) (ch : Int) (src : InputSource) :
    WritesInMap base (inPlace (setinputBlocks p ch src)) :=
  .line (.quiet rfl) (.line (.quiet rfl) (.line (writesInMap_instr base (.intype ch ((inputCode p src).getD 0))) .done))

theorem writesInMap_applych (base : SpeedBase) (p : Params) (cfg : ChannelConfig) :
    WritesInMap base (inPlace (applychBlocks p cfg)) :=
  .line (.quiet rfl) (.line (writesInMap_setfreq base _ _) (.line (writesInMap_setgaincal base _ _ _)
    (.line (writesInMap_setinput base p _ _) .done)))

theorem writesInMap_setbytemode (base : SpeedBase) (w : Int) : WritesInMap base (inPlace (setbytemodeBlocks w)) := by
  have hmode : WritesInMap base (callSteps (if w = 5 then partsMode5 else partsMode4)) := by
    split
    · exact writesInMap_instr base .mode5
    · exact writesInMap_instr base .mode4
  exact .line (.quiet rfl) (.line (.quiet rfl) (.line (.quiet rfl) (.line hmode (.line (.quiet rfl) .done))))

theorem writesInMap_rounds (base : SpeedBase) (p : Params) (j : Nat) (cfgs : List ChannelConfig) :
    WritesInMap base (inPlace (roundBlocks p j cfgs)) := by
  induction cfgs generalizing j with
  | nil => exact .done
  | cons cfg cfgs ih => exact .line (writesInMap_applych base p cfg) (ih (j + 1))

theorem quiet_testSteps (cs : List (Option Exc)) : (testSteps cs).all (·.sendsNothing) = true := by
  simp [testSteps, SeqStep.sendsNothing]

theorem writesInMap_bringUp (base : SpeedBase) (p : Params) (cfgs : List ChannelConfig) (five : Option Bool) :
    WritesInMap base (inPlace (bringUpBlocks p cfgs five)) := by
  rw [bringUpBlocks, inPlace_append, inPlace_append]
  refine .append (.append ?_ (writesInMap_rounds base p 1 cfgs)) ?_
  · exact .line (.quiet (quiet_testSteps _)) (.line (writesInMap_stop base)
      (.line (writesInMap_setactive base _ _ _ _) (.line (writesInMap_stop base) .done)))
  · exact .line (.after rfl (writesInMap_setbytemode base 5)) (.line (writesInMap_reinitialize base) .done)

theorem writesInMap_record (base : SpeedBase) : WritesInMap base (inPlace recordBlocks) :=
  .line (.quiet rfl) (.line (writesInMap_stop base) (.line (writesInMap_instr base .query)
    (.line (.quiet rfl) (.line (.quiet rfl) (.line (.quiet rfl) .done)))))

/-- Every operation writes only frames of the map, its own checks passed (R74, R81, R100). -/
theorem writesInMap_blocks (p : Params) (o : Op) : WritesInMap p.speedBase (inPlace (blocks p o)) := by
  cases o
  case frame i => exact writesInMap_instr _ i
  case speed i => exact writesInMap_speed _ i
  case stopop => exact writesInMap_stop _
  case setactive f1 f2 f3 f4 => exact writesInMap_setactive _ f1 f2 f3 f4
  case setfreq ch f => exact writesInMap_setfreq _ ch f
  case setgaincal ch k gain => exact writesInMap_setgaincal _ ch k gain
  case setinput ch src => exact writesInMap_setinput _ p ch src
  case applych cfg => exact writesInMap_applych _ p cfg
  case setbytemode w => exact writesInMap_setbytemode _ w
  case reinitialize => exact writesInMap_reinitialize _
  case bringUp cfgs five => exact writesInMap_bringUp _ p cfgs five
  case resettimer => exact .line (writesInMap_instr _ .tmrrst) .done
  case setspeed => exact .line (.quiet rfl) (.line (.quiet rfl) (.line (writesInMap_speed _ _) .done))
  case eeselect a => exact .line (writesInMap_instr _ (.eeaddr a)) .done
  case eeread => exact .line (writesInMap_instr _ .eerd) (.quiet rfl)
  case eewrite v => exact .line (writesInMap_instr _ (.eewr v)) (.quiet rfl)
  case close => exact .line (.quiet rfl) (.line (.quiet rfl) (.line (writesInMap_stop _) (.quiet rfl)))
  case readparams =>
    rw [blocks, inPlace_append]
    exact (writesInMap_record _).append (.quiet rfl)
  case selftest => exact .line (writesInMap_record _) (.quiet rfl)
  case openBlock | readsample | formatsample => exact .quiet rfl

/-! ### The trace -/

/-- The write SEQ stands at sends a frame of the map where the operand checks before it have passed (R74, R81). -/
theorem source_inMap {s : State} {p : Position} {src : Source} (hchecked : OperandsChecked s) (hs : s.seq = .running p)
    (hc : p.current s.params = some (.write src)) : src.InMap s.params.speedBase := by
  obtain ⟨later, hr, _⟩ := rest_of_current hc
  have hsplit : p.before s.params ++ p.rest s.params = program s.params p.op := List.takeWhile_append_dropWhile
  have hmap := writesInMap_blocks s.params p.op
  rw [← program_steps, ← hsplit, hr, List.map_append, List.map_cons] at hmap
  refine hmap.source fun c hmem => ?_
  obtain ⟨x, hx, hxc⟩ := List.mem_map.mp hmem
  exact hchecked p hs x hx c hxc

/-- A SEND that fails leaves no other frame in the trace than its own (R80). -/
theorem frame_of_emitsFail {f f' : Frame} {s u : State} {e : Exc} {count : Option Nat}
    (h : EmitsFail [.frame f] s e u) (hf : Event.tx f' count ∈ u.trace) : Event.tx f' count ∈ s.trace ∨ f' = f := by
  cases h with
  | write | short | flushIn =>
    simp only [log_trace, draw_trace, List.mem_append, List.mem_singleton, Event.tx.injEq, reduceCtorEq, or_false] at hf
    exact hf.imp_right And.left
  | later _ _ _ _ _ _ h => cases h

/-- A frame-level instruction run whole leaves no other frame in the trace than its own, its checks passed (R80, R81). -/
theorem frame_of_issueFrame {parts : FrameParts} {s t : State} (h : issueFrame parts s = .next t) {f : Frame}
    {count : Option Nat} (hf : Event.tx f count ∈ t.trace) :
    Event.tx f count ∈ s.trace ∨ (firstFailing parts.checks = none ∧ f = parts.frame) := by
  rcases issueFrame_cases parts s with ⟨e, _, hx⟩ | ⟨hchecks, ⟨_, hx⟩ | ⟨e, u, hfail, hx⟩⟩ <;> rw [hx] at h <;> cases h
  · exact .inl hf
  · simp only [deliver_trace, sent_trace, List.mem_append, List.mem_cons, List.not_mem_nil, Event.tx.injEq, reduceCtorEq,
      or_false] at hf
    exact hf.imp_right fun hown => ⟨(isOpen_of_checks hchecks).2, hown.1⟩
  · exact (frame_of_emitsFail hfail hf).imp_right fun hown => ⟨(isOpen_of_checks hchecks).2, hown⟩

/-- Settles O54: at a position a write stands behind its own checks (`source_inMap`), and a whole instruction is sent
only where it is well-formed. -/
theorem stepKeepsFramesInMap : Obligations.StepKeepsFramesInMap := by
  intro s t hchecked hmap h f count hf
  rw [(step_extends h).params]
  cases hs : s.seq with
  | running p =>
    obtain ⟨st, hc, rfl⟩ := step_running hs h
    rw [(conclude_keeps _).2.1] at hf
    rcases primitive_frames st p s hf with hold | ⟨src, rfl, rfl⟩
    · exact hmap f count hold
    · exact source_inMap hchecked hs hc s.active
  | idle =>
    rcases step_idle hs h with rfl | ⟨w, rest, i, _, _, hx⟩ | ⟨o, r, rest, _, rfl⟩
    · exact hmap f count hf
    · rw [exec_eq_issueFrame] at hx
      rcases frame_of_issueFrame hx hf with hold | ⟨hc, rfl⟩
      · exact hmap f count hold
      · have hwf := (checks_eq_none_iff _ i).mp hc
        exact ⟨i, hwf, (partsFrame_eq_encode _ i hwf).symm⟩
    · exact hmap f count hf

end Sys2Proof.Machine

/-! ## The frame-level instructions and SEND (40_command_frames.md R80 to R97)

`exec` runs the checks and the frame of the instruction's rule whole (`exec_eq_issueFrame`), so the statement of an
instruction is two facts: which check fails first, and which three bytes its encoding holds (`frameEnds_of_encode`). -/

namespace Sys2Proof.Machine

/-! ### The ends of SEND -/

theorem sendFrame_of_accepts {f : Frame} {s : State} (h : accepts [.frame f] s) :
    sendFrame f s = .ok () (s.sent f) := by
  rcases sendFrame_cases f s with ⟨_, hx⟩ | ⟨e, u, hfail, _⟩
  · exact hx
  · exact absurd hfail (not_emitsFail_of_accepts h)

theorem sendFrame_of_emitsFail {f : Frame} {s u : State} {e : Exc} (h : EmitsFail [.frame f] s e u) :
    sendFrame f s = .raised e u := by
  cases h with
  | write _ _ _ hok => simp [sendFrame, memWrite, hok, Ends.andThen]
  | short _ _ _ hok hcount => simp [sendFrame, memWrite, hok, Ends.andThen, chkCount, testing, hcount]
  | flushIn _ _ _ hok hcount hflush =>
    simp [sendFrame, memWrite, hok, Ends.andThen, chkCount, testing, hcount, flushIn, hflush]
  | later _ _ _ _ _ _ h => cases h

/-- Settles O16: an accepted frame leaves `sent`, and each failing call is one way for the emission to fail. -/
theorem sendWritesFlushesSettles : Obligations.SendWritesFlushesSettles := by
  intro f s
  refine ⟨fun hok hcount hflush => ?_, fun hok => ?_, fun hok hcount => ?_, fun hok hcount hflush => ?_⟩
  · exact ⟨_, sendFrame_of_accepts ⟨hok, hcount, hflush, trivial⟩, rfl, rfl, rfl⟩
  · exact ⟨_, sendFrame_of_emitsFail (.write f [] s hok), rfl, rfl⟩
  · exact ⟨_, sendFrame_of_emitsFail (.short f [] s hok hcount), rfl, rfl⟩
  · exact ⟨_, sendFrame_of_emitsFail (.flushIn f [] s hok hcount hflush), by simp, rfl⟩

/-- Failing emissions change neither the parameters nor the requests nor the outcomes (R182). -/
theorem emitsFail_keeps {es : List Emit} {s u : State} {e : Exc} (h : EmitsFail es s e u) :
    u.params = s.params ∧ u.requests = s.requests ∧ u.results = s.results := by
  induction h with
  | later e0 _ _ _ _ _ _ ih => cases e0 <;> exact ih
  | _ => exact ⟨rfl, rfl, rfl⟩

/-- What a failing SEND leaves in the trace: the write, and the flush behind it where that is what failed (R80). -/
theorem trace_of_emitsFail {f : Frame} {s u : State} {e : Exc} (h : EmitsFail [.frame f] s e u) :
    (∃ count, u.trace = s.trace ++ [.tx f count]) ∨ u.trace = s.trace ++ [.tx f (some 3), .flushIn false] := by
  cases h with
  | write => exact .inl ⟨_, rfl⟩
  | short => exact .inl ⟨_, rfl⟩
  | flushIn => exact .inr (by simp)
  | later _ _ _ _ _ _ h => cases h

/-! ### The ends of a frame-level instruction -/

theorem issueFrame_of_check {parts : FrameParts} {s : State} {e : Exc}
    (h : firstFailing (chkOpen s :: parts.checks) = some e) : issueFrame parts s = .next (s.abort e) := by
  simp only [issueFrame, h]

theorem issueFrame_of_emitsFail {parts : FrameParts} {s u : State} {e : Exc} (ho : s.isOpen = true)
    (hc : firstFailing parts.checks = none) (h : EmitsFail [.frame parts.frame] s e u) :
    issueFrame parts s = .next (u.abort e) := by
  simp only [issueFrame, chkOpen_open ho, firstFailing_none, hc, sendFrame_of_emitsFail h]

/-- Settles O15: an instruction raises a check with nothing written, or is well-formed (`checks_eq_none_iff`) and ends
its SEND with what `sent` or the failing call leaves. -/
theorem instructionChangesOnlyTheStreams : Obligations.InstructionChangesOnlyTheStreams := by
  intro i s
  rw [exec_eq_issueFrame]
  rcases issueFrame_cases (instrParts s.params.speedBase i) s with ⟨e, _, hx⟩ | ⟨hchecks, hsend⟩
  · exact ⟨_, hx, rfl, rfl, rfl, rfl, ⟨_, rfl⟩, .inl ⟨rfl, rfl, rfl, rfl⟩⟩
  · obtain ⟨ho, hcs⟩ := isOpen_of_checks hchecks
    have hwf := (checks_eq_none_iff _ i).mp hcs
    rw [partsFrame_eq_encode _ i hwf] at hsend
    rcases hsend with ⟨_, hx⟩ | ⟨e, u, hfail, hx⟩
    · exact ⟨_, hx, rfl, rfl, rfl, rfl, ⟨_, rfl⟩, .inr ⟨ho, hwf, .inr (.inr ⟨rfl, rfl⟩)⟩⟩
    · obtain ⟨hparams, hrequests, hresults⟩ := emitsFail_keeps hfail
      exact ⟨_, hx, (abort_registers u e).trans (registers_of_emitsFail hfail), hparams, hrequests, rfl,
        ⟨.raised e, by rw [abort_results, hresults]⟩, .inr ⟨ho, hwf, (trace_of_emitsFail hfail).imp_right .inl⟩⟩

/-- The whole rule of an instruction from its first failing check and from the bytes of its encoding (R80, R81). -/
theorem frameEnds_of_encode {i : Instr} {bad : Option Exc} {f : Frame} {s : State}
    (hc : firstFailing (instrParts s.params.speedBase i).checks = bad)
    (hf : i.wellFormed = true → encode s.params.speedBase i = f) : FrameEnds i bad f s := by
  unfold FrameEnds
  rw [exec_eq_issueFrame]
  refine ⟨fun ho => ?_, fun ho e hbad => ?_, fun ho hbad => ?_, fun t ht => (issueFrame_ends ht).2⟩
  · exact issueFrame_of_check (by rw [chkOpen_closed ho, firstFailing_some])
  · exact issueFrame_of_check (by rw [chkOpen_open ho, firstFailing_none, hc, hbad])
  · rw [hbad] at hc
    have hwf := (checks_eq_none_iff _ i).mp hc
    rw [← hf hwf, ← partsFrame_eq_encode _ i hwf]
    exact ⟨issueFrame_of_accepts ho hc, fun e u => issueFrame_of_emitsFail ho hc⟩

theorem frameLaw_of_encode {i : Instr} {bad : Option Exc} {f : Frame}
    (hc : ∀ base, firstFailing (instrParts base i).checks = bad)
    (hf : ∀ base, i.wellFormed = true → encode base i = f) : FrameLaw i bad f :=
  fun _ => frameEnds_of_encode (hc _) (hf _)

/-! ### Checks and bytes as integers -/

theorem firstFailing_within (field : Field) (lo hi n : Int) (cs : List (Option Exc)) :
    firstFailing (chk field (within lo hi n) :: cs) =
      if lo ≤ n ∧ n ≤ hi then firstFailing cs else some (.invalidParameter field) := by
  by_cases h : lo ≤ n ∧ n ≤ hi
  · rw [if_pos h, chk_eq_none.mpr (within_iff.mpr h), firstFailing_none]
  · rw [if_neg h, chk, if_neg (mt within_iff.mp h), firstFailing_some]

theorem frame_eq_frameOfInts {n1 n2 n3 : Nat} {b1 b2 b3 : Int} (h1 : (n1 : Int) = b1) (h2 : (n2 : Int) = b2)
    (h3 : (n3 : Int) = b3) : (⟨byteOf n1, byteOf n2, byteOf n3⟩ : Frame) = frameOfInts b1 b2 b3 := by
  subst h1 h2 h3
  simp only [frameOfInts, BitVec.ofInt_natCast, byteOf]

theorem natCast_bitField {v : Int} (h : 0 ≤ v) (lo width : Nat) :
    (bitField v lo width : Int) = v / 2 ^ lo % 2 ^ width := by
  simp [bitField, h]

/-- The shift of R63 gives the channel-bits its table lists. -/
theorem chbit_eq_channelBitTable {ch : Int} (h : 1 ≤ ch ∧ ch ≤ 4) : (chbit ch : Int) = channelBitTable ch := by
  obtain rfl | rfl | rfl | rfl : ch = 1 ∨ ch = 2 ∨ ch = 3 ∨ ch = 4 := by omega
  all_goals decide

/-- The frame of a channel instruction: two operand bytes, and the channel-bit in byte3 (R61, R63). -/
theorem channelFrame_eq_frameOfInts {ch : Int} (hch : 1 ≤ ch ∧ ch ≤ 4) {op n1 n2 : Nat} {b1 b2 : Int}
    (h1 : (n1 : Int) = b1) (h2 : (n2 : Int) = b2) :
    (⟨byteOf n1, byteOf n2, byteOf (op + chbit ch)⟩ : Frame) = frameOfInts b1 b2 (op + channelBitTable ch) :=
  frame_eq_frameOfInts h1 h2 (by rw [Nat.cast_add, chbit_eq_channelBitTable hch])

/-! ### The instructions -/

/-- Settles O5: one check, and byte3 is 0x80 plus the mask. -/
theorem actSendsItsMask : Obligations.ActSendsItsMask := by
  refine fun m => frameLaw_of_encode (fun _ => firstFailing_within ..) fun _ hwf => ?_
  obtain ⟨hlow, _⟩ := within_iff.mp hwf
  exact frame_eq_frameOfInts rfl rfl (by omega)

/-- Settles O6: one check, and byte3 is 0xD0 plus the mask. -/
theorem reinitSendsItsMask : Obligations.ReinitSendsItsMask := by
  refine fun m => frameLaw_of_encode (fun _ => firstFailing_within ..) fun _ hwf => ?_
  obtain ⟨hlow, _⟩ := within_iff.mp hwf
  exact frame_eq_frameOfInts rfl rfl (by omega)

/-- Settles O7: the channel is checked first, and byte3 holds its bit. -/
theorem intypeSendsItsCode : Obligations.IntypeSendsItsCode := by
  refine fun ch t => frameLaw_of_encode (fun _ => ?_) fun _ hwf => ?_
  · simp only [instrParts, partsIntype, chkCh, chkItype, firstFailing_within, firstFailing_nil, ite_not]
  · simp only [Instr.wellFormed, Bool.and_eq_true, within_iff] at hwf
    obtain ⟨hch, ht⟩ := hwf
    exact channelFrame_eq_frameOfInts hch rfl (by omega)

/-- Settles O8: the two low fields of the divisor are the nibbles of its low byte. -/
theorem freqloSendsLowByte : Obligations.FreqloSendsLowByte := by
  refine fun ch c => frameLaw_of_encode (fun _ => ?_) fun _ hwf => ?_
  · simp only [instrParts, partsFreqlo, chkCh, chkDiv, firstFailing_within, firstFailing_nil, ite_not]
  · simp only [Instr.wellFormed, Bool.and_eq_true, within_iff] at hwf
    obtain ⟨hch, hnonneg, _⟩ := hwf
    have hfield := natCast_bitField hnonneg
    exact channelFrame_eq_frameOfInts hch (by rw [hfield]; omega) (by rw [hfield]; omega)

/-- Settles O9: below 65536 the two high fields of the divisor are the nibbles of its high byte. -/
theorem freqhiSendsHighByte : Obligations.FreqhiSendsHighByte := by
  refine fun ch c => frameLaw_of_encode (fun _ => ?_) fun _ hwf => ?_
  · simp only [instrParts, partsFreqhi, chkCh, chkDiv, firstFailing_within, firstFailing_nil, ite_not]
  · simp only [Instr.wellFormed, Bool.and_eq_true, within_iff] at hwf
    obtain ⟨hch, hnonneg, hmax⟩ := hwf
    have hfield := natCast_bitField hnonneg
    exact channelFrame_eq_frameOfInts hch (by rw [hfield]; omega) (by rw [hfield]; omega)

/-- Settles O10: the channel, then the calibration, then the gain code is checked, and each code is a byte. -/
theorem gaincalSendsItsCodes : Obligations.GaincalSendsItsCodes := by
  refine fun ch k g => frameLaw_of_encode (fun _ => ?_) fun _ hwf => ?_
  · simp only [instrParts, partsGaincal, chkCh, chkCal, chkGcode, firstFailing_within, firstFailing_nil, ite_not]
  · simp only [Instr.wellFormed, Bool.and_eq_true, within_iff] at hwf
    obtain ⟨⟨hch, hk⟩, hg⟩ := hwf
    exact channelFrame_eq_frameOfInts hch (by omega) (by omega)

/-- Settles O11: none of the six has an operand check, and their frames are constants. -/
theorem fixedFramesAreSent : Obligations.FixedFramesAreSent := by
  refine ⟨?_, ?_, ?_, ?_, ?_, ?_⟩
  all_goals exact frameLaw_of_encode (fun _ => rfl) fun _ _ => rfl

/-- Settles O12: both check the byte, and its two fields are its nibbles. -/
theorem eepromFramesSendNibbles : Obligations.EepromFramesSendNibbles := by
  refine fun v => ⟨frameLaw_of_encode (fun _ => firstFailing_within ..) fun _ hwf => ?_,
    frameLaw_of_encode (fun _ => firstFailing_within ..) fun _ hwf => ?_⟩
  all_goals
    obtain ⟨hnonneg, hmax⟩ := within_iff.mp hwf
    have hfield := natCast_bitField hnonneg
    exact frame_eq_frameOfInts (by rw [hfield]; omega) (by rw [hfield]; omega) rfl

/-! ### An operation that is one frame-level instruction -/

/-- How emissions fail does not depend on the requests still to issue. -/
theorem EmitsFail.withRequests {es : List Emit} {s u : State} {e : Exc} (h : EmitsFail es s e u)
    (rest : List Request) : EmitsFail es { s with requests := rest } e { u with requests := rest } := by
  induction h with
  | write f es s hok => exact .write f es _ hok
  | short f es s hok hcount => exact .short f es _ hok hcount
  | flushIn f es s hok hcount hflush => exact .flushIn f es _ hok hcount hflush
  | flushOut es s hok => exact .flushOut es _ hok
  | later e0 es s exc u hacc _ ih =>
    have hiff : accepts [e0] s ↔ accepts [e0] { s with requests := rest } := accepts_congr rfl rfl
    refine .later e0 es _ exc _ (hiff.mp hacc) ?_
    cases e0 <;> exact ih

/-- An operation whose primitives are those of one frame-level instruction ends as the whole instruction does. -/
theorem finishes_of_issueFrame {o : Op} {parts : FrameParts} {s t : State} {c : Completion} (hclose : o ≠ .close)
    (hsteps : inPlace (blocks s.params o) = callSteps parts) (hresults : t.results = s.results)
    (h : ∀ rest, issueFrame parts { s with requests := rest } =
      .next (({ t with requests := rest } : State).deliver c)) : Finishes o s t c := by
  intro rest hi hr
  have hrest : ((startOf o).rest s.params).map (·.2) = callSteps parts := by rw [rest_startOf, program_steps, hsteps]
  obtain ⟨n, hn⟩ := Leads.head (step_take hi hr) (leads_issueFrame hclose hrest (h rest))
  exact ⟨n, by rw [hn, ← hresults]; rfl⟩

section OneFrame

variable {o : Op} {parts : FrameParts} {s : State} (hclose : o ≠ .close)
  (hsteps : inPlace (blocks s.params o) = callSteps parts) (ho : s.isOpen = true)

include hclose hsteps ho

theorem finishes_frame_of_check {e : Exc} (hc : firstFailing parts.checks = some e) : Finishes o s s (.raised e) :=
  finishes_of_issueFrame hclose hsteps rfl fun _ =>
    issueFrame_of_check ((congrArg (fun x => firstFailing (x :: parts.checks)) (chkOpen_open ho)).trans hc)

theorem finishes_frame_of_accepts (hc : firstFailing parts.checks = none) (ha : accepts [.frame parts.frame] s) :
    Finishes o s (s.sent parts.frame) (.done .empty) :=
  finishes_of_issueFrame hclose hsteps rfl fun _ => issueFrame_of_accepts ho hc ((accepts_congr rfl rfl).mp ha)

theorem finishes_frame_of_emitsFail (hc : firstFailing parts.checks = none) {e : Exc} {u : State}
    (h : EmitsFail [.frame parts.frame] s e u) : Finishes o s u (.raised e) :=
  have ⟨_, _, hresults⟩ := emitsFail_keeps h
  finishes_of_issueFrame hclose hsteps hresults fun rest => issueFrame_of_emitsFail ho hc (h.withRequests rest)

end OneFrame

/-! ### The speed instructions -/

theorem speedFrame_eq_frameOfInts (base : SpeedBase) {k : Nat} {i : Int} (h : (k : Int) = i) :
    speedFrame base k = frameOfInts 0x5A 0x5A (base.val + i) :=
  frame_eq_frameOfInts rfl rfl (by omega)

/-- Settles O13: the six instructions pass their index check and send the guards and the base plus their index; the
request with any index is one such instruction with its index checked. -/
theorem speedSendsGuardedIndex : Obligations.SpeedSendsGuardedIndex := by
  refine ⟨rfl, rfl, fun s => ⟨?_, ?_, ?_, ?_, ?_, ?_, fun ho i => ?_⟩⟩
  iterate 6 exact frameEnds_of_encode rfl fun _ => speedFrame_eq_frameOfInts _ rfl
  have hcheck : firstFailing (speedParts s.params.speedBase i).checks =
      if 0 ≤ i ∧ i ≤ 5 then none else some (.invalidParameter .speed) := firstFailing_within ..
  have hsteps : inPlace (blocks s.params (.speed i)) = callSteps (speedParts s.params.speedBase i) := rfl
  refine ⟨fun hbad => ?_, fun hlow hhigh => ?_⟩
  · exact finishes_frame_of_check (by simp) hsteps ho (hcheck.trans (if_neg hbad))
  · have hpass := hcheck.trans (if_pos ⟨hlow, hhigh⟩)
    rw [← speedFrame_eq_frameOfInts s.params.speedBase (Int.toNat_of_nonneg hlow)]
    exact ⟨finishes_frame_of_accepts (by simp) hsteps ho hpass,
      fun e u => finishes_frame_of_emitsFail (by simp) hsteps ho hpass⟩

end Sys2Proof.Machine

/-! ## Operand checks stand first (40_command_frames.md R81; 41_sequencer.md R100, R116; 60_exceptions.md R171)

Two facts about the steps of every operation carry the invariant of the operand checks: no move of SEQ leaves a failing
check behind (`skipsPassed_blocks`), and once a step that is no test stands behind SEQ every check still to come passes
(`checksLead_blocks`). -/

namespace Sys2Proof.Machine

/-- An operand check that passes, or any other step. -/
def SeqStep.passed : SeqStep → Bool
  | .test c => c.isNone
  | _ => true

theorem passed_iff {st : SeqStep} : st.passed = true ↔ ∀ c, st = .test c → c = none := by
  cases st <;> simp [SeqStep.passed]

theorem operandsChecked_iff {s : State} :
    OperandsChecked s ↔ ∀ p, s.seq = .running p → ∀ x ∈ p.before s.params, x.2.passed = true := by
  simp only [OperandsChecked, passed_iff]

/-! ### No move leaves a failing check behind -/

/-- A move of SEQ, with the steps `left` after it, leaves no failing check behind: those it goes past pass, and a jump
goes back from where no failing check is left. -/
def Goes.leavesPassed (left : List SeqStep) : Goes → Bool
  | .on skip => (left.take skip).all (·.passed)
  | .toLine _ => left.all (·.passed)
  | _ => true

/-- Every move of these steps leaves no failing check behind. -/
def skipsPassed : List SeqStep → Bool
  | [] => true
  | st :: left => st.moves.all (·.leavesPassed left) && skipsPassed left

/-- Steps that go to the next one leave nothing behind (R26). -/
theorem skipsPassed_append {l m : List SeqStep} (hl : l.all (!·.branches) = true) (hm : skipsPassed m = true) :
    skipsPassed (l ++ m) = true := by
  induction l with
  | nil => exact hm
  | cons st left ih =>
    rw [List.all_cons, Bool.and_eq_true, Bool.not_eq_true'] at hl
    obtain ⟨hst, hleft⟩ := hl
    rw [List.cons_append, skipsPassed, moves_of_unbranched hst, ih hleft]
    rfl

theorem skipsPassed_suffix {l m : List SeqStep} (h : l <:+ m) (hm : skipsPassed m = true) : skipsPassed l = true := by
  obtain ⟨earlier, rfl⟩ := h
  induction earlier with
  | nil => exact hm
  | cons st earlier ih => exact ih (Bool.and_eq_true_iff.mp hm).2

theorem unbranched_testSteps (cs : List (Option Exc)) : (testSteps cs).all (!·.branches) = true := by
  simp [testSteps, SeqStep.branches]

theorem unbranched_roundBlocks (p : Params) (j : Nat) (cfgs : List ChannelConfig) :
    (inPlace (roundBlocks p j cfgs)).all (!·.branches) = true := by
  induction cfgs generalizing j with
  | nil => rfl
  | cons cfg cfgs ih =>
    rw [roundBlocks, inPlace_cons, List.all_append, ih]
    rfl

/-- SETACTIVE step 3: the rounds of the four channels (R103). -/
def flagRounds (f1 f2 f3 f4 : Option Bool) : List SeqStep :=
  flagSteps .ch1 f1 ++ flagSteps .ch2 f2 ++ flagSteps .ch3 f3 ++ flagSteps .ch4 f4

/-- INITIALIZE step 3 up to the writes of ACTIVE, with the stop of step 2 before it (R110). -/
def leadingStops : List SeqStep := inPlace stopBlocks ++ .testOpen :: inPlace stopBlocks

/-- INITIALIZE from the activation frame of step 3 to the stop of step 4 (R110). -/
def activateAndStop : List SeqStep := callActActive ++ inPlace stopBlocks

/-- INITIALIZE step 6 (R110). -/
def fiveSteps (five : Bool) : List SeqStep :=
  .fiveTest five (inPlace (setbytemodeBlocks 5)).length :: inPlace (setbytemodeBlocks 5)

/-- The steps of INITIALIZE in order (R110). -/
theorem steps_bringUp (p : Params) (cfgs : List ChannelConfig) (five : Option Bool) :
    inPlace (bringUpBlocks p cfgs five) =
      testSteps (cfgs.flatMap (chkConfig p) ++ [chkDistinct cfgs]) ++ (leadingStops ++
        (flagRounds (inSet cfgs .ch1) (inSet cfgs .ch2) (inSet cfgs .ch3) (inSet cfgs .ch4) ++ (activateAndStop ++
          (inPlace (roundBlocks p 1 cfgs) ++ (fiveSteps (five.getD false) ++ inPlace reinitializeBlocks))))) := by
  rw [bringUpBlocks, inPlace_append, inPlace_append, inPlace_cons, List.append_assoc, List.append_assoc]
  rfl

/-- The moves of every operation leave no failing check behind: SETACTIVE goes past no check, SETBYTEMODE and INITIALIZE
past none that fails, and EEWRITE has none left where it jumps (R103, R108, R110, R115). -/
theorem skipsPassed_blocks (p : Params) (o : Op) : skipsPassed (inPlace (blocks p o)) = true := by
  cases o
  case frame i => exact skipsPassed_append (unbranched_testSteps _) rfl
  case bringUp cfgs five =>
    have htail : skipsPassed (activateAndStop ++ (inPlace (roundBlocks p 1 cfgs) ++
        (fiveSteps (five.getD false) ++ inPlace reinitializeBlocks))) = true :=
      skipsPassed_append rfl (skipsPassed_append (unbranched_roundBlocks p 1 cfgs) rfl)
    rw [blocks, steps_bringUp]
    exact skipsPassed_append (unbranched_testSteps _) (skipsPassed_append rfl htail)
  case setbytemode w =>
    by_cases hw : w = 5 <;> simp only [blocks, setbytemodeBlocks, modeChange, hw, if_true, if_false] <;> rfl
  all_goals rfl

/-! ### Once a step is done, every check passes -/

/-- Every operand check in these steps passes. -/
abbrev ChecksPass (l : List SeqStep) : Prop := l.all (·.passed) = true

/-- Where the checks that stand first pass, so does every check behind a step that is no test (R81, R100). -/
def ChecksLead : List SeqStep → Prop
  | [] => True
  | .testOpen :: left => ChecksLead left
  | .test c :: left => c = none → ChecksLead left
  | _ :: left => ChecksPass left

theorem ChecksPass.append {l m : List SeqStep} (hl : ChecksPass l) (hm : ChecksPass m) : ChecksPass (l ++ m) := by
  rw [ChecksPass, List.all_append, Bool.and_eq_true]
  exact ⟨hl, hm⟩

theorem ChecksPass.tail {st : SeqStep} {l : List SeqStep} (h : ChecksPass (st :: l)) : ChecksPass l :=
  (Bool.and_eq_true_iff.mp h).2

/-- Steps whose checks all pass. -/
theorem ChecksPass.lead {l : List SeqStep} (h : ChecksPass l) : ChecksLead l := by
  induction l with
  | nil => trivial
  | cons st left ih =>
    cases st
    case testOpen => exact ih h.tail
    case test => exact fun _ => ih h.tail
    all_goals exact h.tail

/-- Steps behind checks: the checks fail, or what follows leads. -/
theorem checksLead_tests {cs : List (Option Exc)} {l : List SeqStep} (h : firstFailing cs = none → ChecksLead l) :
    ChecksLead (testSteps cs ++ l) := by
  change ChecksLead (cs.map .test ++ l)
  induction cs with
  | nil => exact h rfl
  | cons c cs ih =>
    intro hc
    subst hc
    exact ih h

theorem checksPass_testSteps {cs : List (Option Exc)} (h : firstFailing cs = none) : ChecksPass (testSteps cs) := by
  have hall := firstFailing_eq_none.mp h
  simpa [ChecksPass, testSteps, SeqStep.passed, List.all_eq_true] using hall

/-- A call whose checks pass. -/
theorem checksPass_call {parts : FrameParts} (h : firstFailing parts.checks = none) : ChecksPass (callSteps parts) := by
  rw [callSteps_eq]
  exact (checksPass_testSteps h).append rfl

/-- A call with nothing but passing checks behind it. -/
theorem checksLead_call {parts : FrameParts} {l : List SeqStep} (h : firstFailing parts.checks = none → ChecksPass l) :
    ChecksLead (callSteps parts ++ l) := by
  rw [callSteps_eq, List.append_assoc]
  exact checksLead_tests fun hc => h hc

/-- A failing check behind checks that have passed has only tests before it. -/
theorem ChecksLead.isTest {earlier later : List SeqStep} {c : Option Exc} (h : ChecksLead (earlier ++ .test c :: later))
    (hpass : ChecksPass earlier) (hc : c ≠ none) : earlier.all (·.isTest) = true := by
  induction earlier with
  | nil => rfl
  | cons st left ih =>
    have hbehind : ∀ l, ¬ChecksPass (l ++ .test c :: later) := fun l hl => by
      have hcpass := List.all_eq_true.mp hl (.test c) (by simp)
      exact hc (passed_iff.mp hcpass c rfl)
    cases st
    case testOpen => exact ih h hpass.tail
    case test c' =>
      have hc' : c' = none := passed_iff.mp (Bool.and_eq_true_iff.mp hpass).1 c' rfl
      exact ih (h hc') hpass.tail
    all_goals exact absurd h (hbehind left)

theorem ChecksPass.done : ChecksPass (inPlace []) := rfl

/-- Checks may be looked at line by line. -/
theorem ChecksPass.line {b : Block} {bs : List Block} (h : ChecksPass b.steps) (hbs : ChecksPass (inPlace bs)) :
    ChecksPass (inPlace (b :: bs)) :=
  h.append hbs

theorem checksPass_test {c : Option Exc} (h : c = none) : ChecksPass [.test c] := by
  rw [h]
  rfl

theorem ChecksLead.tests {n k : Nat} {cs : List (Option Exc)} {bs : List Block}
    (h : firstFailing cs = none → ChecksLead (inPlace bs)) : ChecksLead (inPlace (⟨n, k, testSteps cs⟩ :: bs)) :=
  checksLead_tests h

theorem ChecksLead.test {n k : Nat} {c : Option Exc} {bs : List Block} (h : c = none → ChecksLead (inPlace bs)) :
    ChecksLead (inPlace (⟨n, k, [.test c]⟩ :: bs)) :=
  h

theorem ChecksLead.call {n k : Nat} {parts : FrameParts} {bs : List Block}
    (h : firstFailing parts.checks = none → ChecksPass (inPlace bs)) :
    ChecksLead (inPlace (⟨n, k, callSteps parts⟩ :: bs)) :=
  checksLead_call h

/-! ### What passing checks give -/

theorem divisor_eq (f : Rat) : divisor f = 19200 / f.num :=
  divisor_intCast f.num

/-- The divisor of a checked frequency is a 16-bit number (R65). -/
theorem chkDiv_divisor {f : Rat} (h : chkFreq f = none) : chkDiv (divisor f) = none := by
  obtain ⟨_, hlow, hhigh⟩ : f.den = 1 ∧ 5 ≤ f.num ∧ f.num ≤ 1000 := by
    simpa [chkFreq, chk_eq_none, within_iff, Config.freqMin, Config.freqMax] using h
  obtain ⟨_, hmin, hmax⟩ := divisorOfLegalFrequency f.num hlow hhigh
  rw [divisor_eq]
  exact chk_eq_none.mpr (within_iff.mpr (by omega))

/-- A gain code has three bits (R66). -/
theorem chkGcode_gainCode (g : BitVec 3) : chkGcode (g.toNat : Int) = none :=
  chk_eq_none.mpr (within_iff.mpr (by omega))

/-- The code of a checked source is an input type (R106). -/
theorem chkItype_inputCode {p : Params} {src : InputSource} (h : chkSrc p src = none) :
    chkItype ((inputCode p src).getD 0) = none := by
  unfold chkSrc at h
  split at h
  · next t ht => rw [ht]; exact h
  · cases h

/-- Under checks that pass, those of the setters a configuration calls pass too (R107). -/
theorem checksPass_callsOfConfig {p : Params} {cfg : ChannelConfig} (h : firstFailing (chkConfig p cfg) = none) :
    ChecksPass (inPlace (applychBlocks p cfg).tail) := by
  obtain ⟨hch, hf, hcal, hgain, hsrc, _⟩ : chkCh cfg.ch = none ∧ chkFreq cfg.f = none ∧ chkCal cfg.cal = none ∧
      chkGain cfg.gain = none ∧ chkSrc p cfg.src = none ∧ True := by
    simpa [firstFailing_eq_none, chkConfig] using h
  have hdiv := chkDiv_divisor hf
  have hcode := chkGcode_gainCode (gainCodeOf cfg.gain)
  have hitype := chkItype_inputCode hsrc
  have hfreq : ChecksPass (inPlace (setfreqBlocks cfg.ch cfg.f)) :=
    .line (checksPass_testSteps (by simp [hch])) (.line (checksPass_test hf)
      (.line (checksPass_call (by simp [partsFreqlo, hch, hdiv]))
        (.line (checksPass_call (by simp [partsFreqhi, hch, hdiv])) .done)))
  have hgaincal : ChecksPass (inPlace (setgaincalBlocks cfg.ch cfg.cal cfg.gain)) :=
    .line (checksPass_testSteps (by simp [hch, hcal, hgain]))
      (.line (checksPass_call (by simp [partsGaincal, hch, hcal, hcode])) (.line rfl .done))
  have hinput : ChecksPass (inPlace (setinputBlocks p cfg.ch cfg.src)) :=
    .line (checksPass_testSteps (by simp [hch])) (.line (checksPass_test hsrc)
      (.line (checksPass_call (by simp [partsIntype, hch, hitype])) .done))
  exact .line hfreq (.line hgaincal (.line hinput .done))

theorem checksPass_rounds {p : Params} {cfgs : List ChannelConfig}
    (h : ∀ cfg ∈ cfgs, firstFailing (chkConfig p cfg) = none) (j : Nat) :
    ChecksPass (inPlace (roundBlocks p j cfgs)) := by
  induction cfgs generalizing j with
  | nil => exact .done
  | cons cfg cfgs ih =>
    rw [List.forall_mem_cons] at h
    exact .line (.line (checksPass_testSteps h.1) (checksPass_callsOfConfig h.1)) (ih h.2 (j + 1))

/-- In every operation the checks stand first: those behind its first write or call of the Transport pass where the
ones before it do (R81, R100, R171). -/
theorem checksLead_blocks (p : Params) (o : Op) : ChecksLead (inPlace (blocks p o)) := by
  cases o
  case frame i => exact .tests fun _ => ChecksPass.lead (by rfl)
  case setfreq ch f => exact .tests fun _ => .test fun _ => .call fun hc => .line (checksPass_call hc) .done
  case setgaincal => exact .tests fun _ => .call fun _ => by rfl
  case setinput => exact .tests fun _ => .test fun _ => .call fun _ => .done
  case applych cfg => exact .tests fun h => (checksPass_callsOfConfig h).lead
  case bringUp cfgs five =>
    rw [blocks, steps_bringUp]
    refine checksLead_tests fun h => ChecksPass.lead ?_
    have hcfgs : ∀ cfg ∈ cfgs, firstFailing (chkConfig p cfg) = none := by
      intro cfg hcfg
      rw [firstFailing_eq_none] at h ⊢
      exact fun c hc => h c (List.mem_append_left _ (List.mem_flatMap.mpr ⟨cfg, hcfg, hc⟩))
    have hend : ChecksPass (fiveSteps (five.getD false) ++ inPlace reinitializeBlocks) := rfl
    have hflags : ChecksPass (flagRounds (inSet cfgs .ch1) (inSet cfgs .ch2) (inSet cfgs .ch3) (inSet cfgs .ch4)) := rfl
    have hstops : ChecksPass leadingStops ∧ ChecksPass activateAndStop := ⟨rfl, rfl⟩
    exact hstops.1.append (hflags.append (hstops.2.append ((checksPass_rounds hcfgs 1).append hend)))
  case setbytemode w =>
    by_cases hw : w = 5 <;> simp only [blocks, setbytemodeBlocks, modeChange, hw, if_true, if_false] <;>
      exact .tests (cs := []) fun _ => .test fun _ => ChecksPass.lead (by rfl)
  case setspeed => exact .tests (cs := []) fun _ => .test fun _ => .call fun _ => .done
  case speed i => exact .tests fun _ => ChecksPass.lead (by rfl)
  case resettimer | eeselect | eeread | eewrite => exact .call fun _ => by rfl
  all_goals exact ChecksPass.lead rfl

/-! ### What a step leaves behind -/

theorem passed_program_of_steps {p : Params} {o : Op} (h : (inPlace (blocks p o)).all (·.passed) = true) :
    ∀ x ∈ program p o, x.2.passed = true := fun x hx =>
  List.all_eq_true.mp h x.2 (program_steps p o ▸ List.mem_map_of_mem hx)

/-- The steps before a place and those from it on are the operation (R26). -/
theorem before_append_rest (params : Params) (p : Position) :
    p.before params ++ p.rest params = program params p.op :=
  List.takeWhile_append_dropWhile

/-- Only steps of the operation stand before a place. -/
theorem mem_program_of_before {params : Params} {p : Position} {x : Place × SeqStep} (h : x ∈ p.before params) :
    x ∈ program params p.op :=
  before_append_rest params p ▸ List.mem_append_left _ h

/-- The steps before a later place are those before this one and the steps between. -/
theorem before_of_drop {params : Params} {p q : Position} {n : Nat} {st : SeqStep} {later : List (Place × SeqStep)}
    (hop : q.op = p.op) (h : (p.rest params).drop n = (q.place, st) :: later) :
    q.before params = p.before params ++ (p.rest params).take n := by
  have hq := before_append_rest params q
  rw [rest_of_drop hop h, hop, ← before_append_rest params p, ← List.take_append_drop n (p.rest params), h,
    ← List.append_assoc] at hq
  exact List.append_cancel_right hq

/-- A primitive whose operand check fails does not go on. -/
theorem passed_of_goes_on {st : SeqStep} {p : Position} {s : State} (h : ∀ e, (primitive st p s).goes ≠ .raises e) :
    st.passed = true := by
  cases st
  case test c =>
    cases c with
    | none => rfl
    | some e => exact absurd rfl (h e)
  all_goals rfl

/-- No failing check of CLOSE: it has none (R116). -/
theorem passed_close (params : Params) : ∀ x ∈ program params .close, x.2.passed = true :=
  passed_program_of_steps rfl

/-- The move a primitive makes at a position leaves no failing check behind. -/
theorem leavesPassed_primitive {st : SeqStep} {p : Position} {s : State} {later : List (Place × SeqStep)}
    (hr : p.rest s.params = (p.place, st) :: later) (hsuffix : p.rest s.params <:+ program s.params p.op) :
    (primitive st p s).goes.leavesPassed (later.map (·.2)) = true := by
  have hsteps : st :: later.map (·.2) <:+ inPlace (blocks s.params p.op) := by
    rw [hr] at hsuffix
    rw [← program_steps]
    exact hsuffix.map Prod.snd
  obtain ⟨hmoves, _⟩ := Bool.and_eq_true_iff.mp (skipsPassed_suffix hsteps (skipsPassed_blocks s.params p.op))
  rcases goes_primitive st p s with hg | ⟨v, hg⟩ | ⟨e, hg⟩
  · exact List.all_eq_true.mp hmoves _ hg
  · rw [hg]; rfl
  · rw [hg]; rfl

/-- Where the checks before a step have passed and its primitive leaves SEQ inside the operation, the checks before the
new place have passed. -/
theorem passed_before_conclude {st : SeqStep} {p q : Position} {s : State} (hc : p.current s.params = some st)
    (hbefore : ∀ x ∈ p.before s.params, x.2.passed = true) (hq : (primitive st p s).conclude.seq = .running q) :
    ∀ x ∈ q.before s.params, x.2.passed = true := by
  have hleaves := primitive_leaves st p s
  obtain ⟨later, hr, hsuffix⟩ := rest_of_current hc
  have hpassed := leavesPassed_primitive hr hsuffix
  have hop := op_conclude hq
  intro x hx
  rcases conclude_cases (primitive st p s) with ⟨c, h⟩ | ⟨skip, place, st', later', hg, hl, h⟩ |
    ⟨line, place, st', later', hg, _, h⟩ | ⟨e, _, hclose, _, h⟩
  · rw [h] at hq; cases hq
  · have hst : st.passed = true := passed_of_goes_on (p := p) (s := s) (by simp [hg])
    rw [hg, Goes.leavesPassed, ← List.map_take, List.all_map, List.all_eq_true] at hpassed
    rw [hleaves.params, rest_congr hleaves.op hleaves.place] at hl
    obtain rfl : { (primitive st p s).pos with place := place } = q := by rw [h] at hq; exact Seq.running.inj hq
    rw [before_of_drop hop hl, hr, List.take_succ_cons, List.mem_append, List.mem_cons] at hx
    rcases hx with hx | rfl | hx
    · exact hbefore x hx
    · exact hst
    · exact hpassed x hx
  · have hst : st.passed = true := passed_of_goes_on (p := p) (s := s) (by simp [hg])
    rw [hg, Goes.leavesPassed, List.all_map, List.all_eq_true] at hpassed
    have hmem := mem_program_of_before hx
    rw [hop, ← before_append_rest, hr, List.mem_append, List.mem_cons] at hmem
    rcases hmem with hx | rfl | hx
    · exact hbefore x hx
    · exact hst
    · exact hpassed x hx
  · have hmem := mem_program_of_before hx
    rw [hop, ← hleaves.op, hclose] at hmem
    exact passed_close s.params x hmem

/-! ### The exception CLOSE keeps -/

theorem err_effect {α : Type} (r : Ends α) (p : Position) {keep : α → Position} (h : ∀ a, (keep a).err = p.err) :
    (r.effect p keep).pos.err = p.err := by
  cases r
  · exact h _
  · rfl

/-- A primitive keeps the exception kept, clears it, or is the close of the Transport, which keeps its own failure
(R116). -/
theorem err_primitive (st : SeqStep) (p : Position) (s : State) :
    (primitive st p s).pos.err = p.err ∨ (primitive st p s).pos.err = none ∨
      (primitive st p s).pos.err = some (.transportError .close) := by
  cases st
  case clearErr => exact .inr (.inl rfl)
  case closeTransport =>
    rw [primitive, closeEffect]
    rcases transportClose_cases s with ⟨_, hx⟩ | ⟨_, hx⟩ <;> rw [hx]
    · exact .inl rfl
    · cases he : p.err with
      | none => exact .inr (.inr (by simp [keepFirst]))
      | some e => exact .inl (by simp [keepFirst])
  case decode => rw [primitive, decodeEffect]; split <;> exact .inl rfl
  case testOpen | test | testActive | write | countTest | flushIn | settle | flushOut | closedTest | openTransport | read |
    readFrame | stamp | boundTest | lengthTest | markerTest | reportCaught => exact .inl (err_effect _ _ fun _ => rfl)
  all_goals exact .inl rfl

theorem err_resume {s : State} {p q : Position} {l : List (Place × SeqStep)} (hq : (s.resume p l).seq = .running q) :
    q.err = p.err := by
  rcases resume_cases s p l with ⟨_, h⟩ | ⟨_, _, _, _, h⟩ <;> rw [h] at hq <;> cases hq
  rfl

/-- The exception kept where a primitive leaves SEQ: the one it left, or a TransportError caught (R116, R182). -/
theorem err_conclude {eff : Effect} {q : Position} (hq : eff.conclude.seq = .running q) :
    q.err = eff.pos.err ∨ ∃ e, q.err = some e ∧ e.isTransportError = true := by
  unfold Effect.conclude at hq
  split at hq
  · exact .inl (err_resume hq)
  · exact .inl (err_resume hq)
  · cases hq
  · next e _ =>
    rcases raiseExc_cases eff.state eff.pos e with h | ⟨_, _, he, h⟩ <;> rw [h] at hq <;> cases hq
    exact .inr ⟨e, rfl, he⟩

theorem keptIsTransportError_conclude {st : SeqStep} {p q : Position} {s : State} {e : Exc}
    (hkept : ∀ e, p.err = some e → e.isTransportError = true) (hq : (primitive st p s).conclude.seq = .running q)
    (he : q.err = some e) : e.isTransportError = true := by
  rcases err_conclude hq with h | ⟨e', h, htransport⟩
  · rw [he] at h
    rcases err_primitive st p s with hp | hp | hp <;> rw [← h] at hp
    · exact hkept e hp.symm
    · cases hp
    · cases hp; rfl
  · rw [he] at h
    cases h
    exact htransport

/-! ### Where InvalidParameter comes from -/

/-- An operation that ends by an exception in a step was raised by its primitive. -/
theorem goes_of_raised {eff : Effect} {e : Exc}
    (h : eff.conclude.results = eff.state.results ++ [.raised e]) : eff.goes = .raises e := by
  have hresume : ∀ l, (eff.state.resume eff.pos l).results ≠ eff.state.results ++ [.raised e] := by
    intro l hl
    rcases resume_cases eff.state eff.pos l with ⟨_, h⟩ | ⟨_, _, _, _, h⟩ <;> rw [h] at hl <;> simp at hl
  unfold Effect.conclude at h
  split at h
  · exact absurd h (hresume _)
  · exact absurd h (hresume _)
  · simp at h
  · next e' hg =>
    rcases raiseExc_cases eff.state eff.pos e' with hx | ⟨_, _, _, hx⟩ <;> rw [hx] at h <;> simp at h
    rw [hg, h]

theorem raises_testing {c : Option Exc} {p : Position} {s : State} {e : Exc}
    (h : ((testing c s).effect p fun _ => p).goes = .raises e) : c = some e := by
  rcases testing_cases c s with ⟨_, hx⟩ | ⟨e', hc, hx⟩ <;> rw [hx] at h <;> cases h
  exact hc

/-- Only an operand check raises InvalidParameter, unless it is the exception CLOSE has kept (R81, R171). -/
theorem raises_invalidParameter {st : SeqStep} {p : Position} {s : State} {field : Field}
    (h : (primitive st p s).goes = .raises (.invalidParameter field)) :
    st = .test (some (.invalidParameter field)) ∨ p.err = some (.invalidParameter field) := by
  cases st
  case test c => exact .inl (congrArg SeqStep.test (raises_testing h))
  case reportCaught => exact .inr (raises_testing h)
  all_goals exfalso
  case testActive =>
    have hmask := raises_testing h
    rw [chkMask, chk_eq_none.mpr (within_active s.active)] at hmask
    cases hmask
  case testOpen | countTest | closedTest | lengthTest | markerTest =>
    have hcheck := raises_testing h
    simp [chkOpen, chkCount, chkLength, chkMarker] at hcheck
  case boundTest =>
    have hcheck := raises_testing h
    unfold chkPolls at hcheck
    split at hcheck
    · simp at hcheck
    · cases hcheck
  case write | flushIn | flushOut | openTransport | read | readFrame =>
    simp only [primitive, memWrite, Machine.flushIn, Machine.flushOut, transportOpen, memRead] at h
    split at h <;> cases h
  case decode =>
    simp only [primitive, decodeEffect, decodeSample, decodeParts] at h
    split at h <;> cases h
    next hx => split at hx <;> cases hx
  case closeTransport =>
    rw [primitive, closeEffect] at h
    split at h <;> cases h
  case sampleTest | pairTest | ackTest | passTest =>
    simp only [primitive, returnIf] at h
    split at h <;> cases h
  all_goals cases h

/-- A step that ends its operation with InvalidParameter is an operand check that fails (R81, R171). -/
theorem current_of_invalidParameter {s t : State} {p : Position} {field : Field} (hkept : KeptIsTransportError s)
    (hs : s.seq = .running p) (h : step s = .next t)
    (hresults : t.results = s.results ++ [.raised (.invalidParameter field)]) :
    p.current s.params = some (.test (some (.invalidParameter field))) := by
  obtain ⟨st, hc, rfl⟩ := step_running hs h
  rw [← (primitive_leaves st p s).results] at hresults
  rcases raises_invalidParameter (goes_of_raised hresults) with rfl | herr
  · exact hc
  · exact absurd (hkept p _ hs herr) Bool.false_ne_true

/-- Settles O56: no move of SEQ leaves a failing check behind (`passed_before_conclude`); what CLOSE keeps is what a call
raised (`keptIsTransportError_conclude`); and the check that raises InvalidParameter stands where every operation has its
checks, first (`checksLead_blocks`). -/
theorem stepKeepsOperandsChecked : Obligations.StepKeepsOperandsChecked := by
  refine ⟨fun s t hchecked h => ?_, fun s t hkept h => ?_, fun s t hchecked hkept h p field hs hresults => ?_⟩
  · rw [operandsChecked_iff] at hchecked ⊢
    intro q hq
    rw [(step_extends h).params]
    cases hs : s.seq with
    | idle =>
      rcases (step_from_idle hs h).2 with hi | ⟨o, ho⟩
      · rw [hi] at hq; cases hq
      · rw [ho] at hq; cases hq
        obtain ⟨later, hp⟩ := program_first s.params o
        simp [Position.before, startOf, hp]
    | running p =>
      obtain ⟨st, hc, rfl⟩ := step_running hs h
      exact passed_before_conclude hc (hchecked p hs) hq
  · intro q e hq he
    cases hs : s.seq with
    | idle =>
      rcases (step_from_idle hs h).2 with hi | ⟨o, ho⟩
      · rw [hi] at hq; cases hq
      · rw [ho] at hq; cases hq
        cases he
    | running p =>
      obtain ⟨st, _, rfl⟩ := step_running hs h
      exact keptIsTransportError_conclude (fun e' => hkept p e' hs) hq he
  · have hc := current_of_invalidParameter hkept hs h hresults
    obtain ⟨later, hr, _⟩ := rest_of_current hc
    have hlead := checksLead_blocks s.params p.op
    rw [← program_steps, ← before_append_rest, hr, List.map_append, List.map_cons] at hlead
    have hpass : ChecksPass ((p.before s.params).map (·.2)) := by
      rw [ChecksPass, List.all_map]
      exact List.all_eq_true.mpr (operandsChecked_iff.mp hchecked p hs)
    have htests := hlead.isTest hpass (by simp)
    rw [List.all_map, List.all_eq_true] at htests
    exact htests

end Sys2Proof.Machine

/-! ## Operations stage by stage (41_sequencer.md R100 to R118)

An operation is a list of stages: primitives that emit some frames and output flushes and then, perhaps, write registers.
`Sends` says what a stage does where its emissions are accepted, `FailsIn` where one of them fails; both are composed
along the steps, and `finishes_of_sends` and `finishes_of_fails` turn them into ends of an operation. -/

namespace Sys2Proof.Machine

/-! ### Registers and requests beside the streams -/

/-- `s` with these registers, and with these requests still to issue: emissions depend on neither. -/
def State.carry (s : State) (r : Registers) (rest : List Request) : State :=
  { s with
    active := r.active, fw := r.fw, coef := r.coef, gainc := r.gainc, isOpen := r.isOpen, requests := rest }

theorem accepts_carry {es : List Emit} {s : State} {r : Registers} {rest : List Request} :
    accepts es (s.carry r rest) ↔ accepts es s :=
  accepts_congr rfl rfl

theorem EmitsFail.carry {es : List Emit} {s u : State} {e : Exc} (h : EmitsFail es s e u) (r : Registers)
    (rest : List Request) : EmitsFail es (s.carry r rest) e (u.carry r rest) := by
  induction h with
  | write f es s hok => exact .write f es _ hok
  | short f es s hok hcount => exact .short f es _ hok hcount
  | flushIn f es s hok hcount hflush => exact .flushIn f es _ hok hcount hflush
  | flushOut es s hok => exact .flushOut es _ hok
  | later e0 es s exc u hacc _ ih =>
    refine .later e0 es _ exc _ (accepts_carry.mpr hacc) ?_
    cases e0 <;> exact ih

@[simp] theorem emitAll_params (es : List Emit) (s : State) : (s.emitAll es).params = s.params := by
  induction es generalizing s with
  | nil => rfl
  | cons e es ih => rw [emitAll_cons, ih]; cases e <;> rfl

@[simp] theorem emitAll_results (es : List Emit) (s : State) : (s.emitAll es).results = s.results := by
  induction es generalizing s with
  | nil => rfl
  | cons e es ih => rw [emitAll_cons, ih]; cases e <;> rfl

/-- Emissions are accepted or fail. -/
theorem accepts_or_emitsFail (es : List Emit) (s : State) : accepts es s ∨ ∃ e u, EmitsFail es s e u := by
  induction es generalizing s with
  | nil => exact .inl trivial
  | cons e0 es ih =>
    have hfirst : accepts [e0] s ∨ ∃ e u, EmitsFail [e0] s e u := by
      cases e0 with
      | frame f =>
        rcases sendFrame_cases f s with ⟨ha, _⟩ | ⟨e, u, hfail, _⟩
        · exact .inl ha
        · exact .inr ⟨e, u, hfail⟩
      | flushOut =>
        rcases flushOut_cases s with ⟨hok, _⟩ | ⟨hok, _⟩
        · exact .inl ⟨hok, trivial⟩
        · exact .inr ⟨_, _, .flushOut [] s hok⟩
    rcases hfirst with ha | ⟨e, u, hfail⟩
    · rcases ih (s.emit e0) with hes | ⟨e, u, hfail⟩
      · exact .inl (accepts_cons.mpr ⟨ha, hes⟩)
      · exact .inr ⟨e, u, .later e0 es s e u ha hfail⟩
    · exact .inr ⟨e, u, emitsFail_append.mpr (.inl hfail)⟩

/-! ### Stages -/

theorem PlaceFree.comp {f g : Position → Position} (hg : PlaceFree g) (hf : PlaceFree f) :
    PlaceFree (fun p => g (f p)) := by
  intro p place
  have h := hg (f p) (f { p with place := place }).place
  change _ = g (f p)
  rw [← hf p place] at h ⊢
  exact h

/-- Accepted, the primitives `B` emit `es` and take the registers `r` to `r'`. -/
structure Sends (params : Params) (B : List SeqStep) (es : List Emit) (r r' : Registers) : Prop where
  nonempty : B ≠ []
  passes : ∃ f, PlaceFree f ∧ ∀ s rest, s.params = params → accepts es s →
    Passes B (s.carry r rest) ((s.emitAll es).carry r' rest) f

/-- Where one of the emissions `es` fails, the primitives `B` end the operation there, with the registers `r`. -/
def FailsIn (params : Params) (B : List SeqStep) (es : List Emit) (r : Registers) : Prop :=
  ∀ s rest e u, s.params = params → EmitsFail es s e u → Aborts B (s.carry r rest) (u.carry r rest) e

section Stages

variable {params : Params} {A B : List SeqStep} {es fs : List Emit} {r r' r'' : Registers}

/-- One stage after another. -/
theorem Sends.append (hA : Sends params A es r r') (hB : Sends params B fs r' r'') :
    Sends params (A ++ B) (es ++ fs) r r'' := by
  obtain ⟨hneA, f, hf, hA⟩ := hA
  obtain ⟨hneB, g, hg, hB⟩ := hB
  refine ⟨by simp [hneA], fun p => g (f p), hg.comp hf, fun s rest hp ha => ?_⟩
  obtain ⟨hes, hfs⟩ := accepts_append.mp ha
  rw [emitAll_append]
  exact (hA s rest hp hes).append hneB (hB _ rest (by rw [emitAll_params, hp]) hfs) hg

/-- What ends an operation ends it before anything that follows. -/
theorem FailsIn.before (hA : FailsIn params A es r) : FailsIn params (A ++ B) es r :=
  fun s rest e u hp h => (hA s rest e u hp h).before

/-- Nothing emitted, nothing fails. -/
theorem FailsIn.silent : FailsIn params B [] r := fun _ _ _ _ _ h => nomatch h

/-- A stage that fails with the registers it began with. -/
structure Stage (params : Params) (B : List SeqStep) (es : List Emit) (r r' : Registers) : Prop where
  sends : Sends params B es r r'
  fails : FailsIn params B es r

/-- A stage that is passed leaves the next one to fail. -/
theorem Sends.then_aborts (hA : Sends params A es r r') (hB : Stage params B fs r' r'') {s u : State} {e : Exc}
    (hp : s.params = params) (ha : accepts es s) (hfail : EmitsFail fs (s.emitAll es) e u) (rest : List Request) :
    Aborts (A ++ B) (s.carry r rest) (u.carry r' rest) e := by
  obtain ⟨_, f, _, hA⟩ := hA
  exact (hA s rest hp ha).then_aborts hB.sends.nonempty (hB.fails _ rest e u (by rw [emitAll_params, hp]) hfail)

/-- Emissions without a register write, and then any stage. -/
theorem Stage.append (hA : Stage params A es r r) (hB : Stage params B fs r r') :
    Stage params (A ++ B) (es ++ fs) r r' := by
  refine ⟨hA.sends.append hB.sends, fun s rest e u hp h => ?_⟩
  rcases emitsFail_append.mp h with h | ⟨ha, h⟩
  · exact (hA.fails s rest e u hp h).before
  · exact hA.sends.then_aborts hB hp ha h rest

/-- Any stage, and then register writes. -/
theorem Stage.append_silent (hA : Stage params A es r r') (hB : Sends params B [] r' r'') :
    Stage params (A ++ B) es r r'' :=
  ⟨es.append_nil ▸ hA.sends.append hB, hA.fails.before⟩

theorem Sends.stage (h : Sends params B [] r r') : Stage params B [] r r' := ⟨h, .silent⟩

end Stages

/-! ### Ends of an operation -/

/-- An operation whose stages are accepted is done. -/
theorem finishes_of_sends {o : Op} {s : State} {es : List Emit} (w : Registers → Registers)
    (h : Sends s.params (inPlace (blocks s.params o)) es s.registers (w s.registers)) (ha : accepts es s) :
    Finishes o s ((s.emitAll es).carry (w (s.emitAll es).registers) (s.emitAll es).requests) (.done .empty) := by
  obtain ⟨_, f, _, h⟩ := h
  rw [emitAll_registers]
  exact finishes_of_passes (fun rest => h s rest rfl ha) (emitAll_results es s)

/-- An operation one of whose emissions fails, the stages before it accepted: the registers hold what those wrote. -/
theorem finishes_of_fails {o : Op} {s u : State} {e : Exc} {A B C : List SeqStep} {es fs : List Emit} {r : Registers}
    (w : Registers → Registers) (hclose : o ≠ .close) (hsteps : inPlace (blocks s.params o) = A ++ (B ++ C))
    (hA : Sends s.params A es s.registers (w s.registers)) (hB : Stage s.params B fs (w s.registers) r)
    (ha : accepts es s) (hfail : EmitsFail fs (s.emitAll es) e u) :
    Finishes o s (u.carry (w u.registers) u.requests) (.raised e) := by
  have hregisters : u.registers = s.registers := (registers_of_emitsFail hfail).trans (emitAll_registers es s)
  have hresults : u.results = s.results := (emitsFail_keeps hfail).2.2.trans (emitAll_results es s)
  rw [hregisters]
  refine finishes_of_aborts hclose (fun rest => ?_) hresults
  rw [hsteps, ← List.append_assoc]
  exact (hA.then_aborts hB rfl ha hfail rest).before

/-- An operation whose first emissions fail: no register is written. -/
theorem finishes_of_fails_first {o : Op} {s u : State} {e : Exc} {B C : List SeqStep} {es : List Emit} {r : Registers}
    (hclose : o ≠ .close) (hsteps : inPlace (blocks s.params o) = B ++ C) (hB : Stage s.params B es s.registers r)
    (hfail : EmitsFail es s e u) : Finishes o s u (.raised e) := by
  have hu : u.carry s.registers u.requests = u := by rw [← registers_of_emitsFail hfail]; rfl
  have h : Finishes o s (u.carry s.registers u.requests) (.raised e) := by
    refine finishes_of_aborts hclose (fun rest => ?_) (emitsFail_keeps hfail).2.2
    rw [hsteps]
    exact (hB.fails s rest e u rfl hfail).before
  rwa [hu] at h

/-- An operation the first of whose operand checks fails: nothing is sent and no register written (R81, R171). -/
theorem finishes_of_check {o : Op} {s : State} {e : Exc} {cs : List (Option Exc)} {C : List SeqStep}
    (hclose : o ≠ .close) (hsteps : inPlace (blocks s.params o) = testSteps cs ++ C) (ho : s.isOpen = true)
    (hc : firstFailing cs = some e) : Finishes o s s (.raised e) := by
  refine finishes_of_aborts hclose (fun rest => ?_) rfl
  rw [hsteps]
  have htests : Aborts (testSteps cs) { s with requests := rest } { s with requests := rest } e := aborts_testSteps ho hc
  exact htests.before

/-- An operation whose primitives are one stage. -/
theorem finishes_of_stage {o : Op} {s : State} {es : List Emit} (hclose : o ≠ .close)
    (h : Stage s.params (inPlace (blocks s.params o)) es s.registers s.registers) :
    (accepts es s → Finishes o s (s.emitAll es) (.done .empty)) ∧
    (∀ e u, EmitsFail es s e u → Finishes o s u (.raised e)) :=
  ⟨fun ha => finishes_of_sends id h.sends ha,
    fun _ _ hfail => finishes_of_fails_first (C := []) hclose (List.append_nil _).symm h hfail⟩

/-! ### The stages -/

section Atoms

variable {params : Params} {r r' : Registers}

/-- An open block passes its tests (R81). -/
theorem stage_testSteps {cs : List (Option Exc)} (ho : r.isOpen = true) (hc : firstFailing cs = none) :
    Stage params (testSteps cs) [] r r :=
  Sends.stage ⟨by simp [testSteps], id, placeFree_id, fun _ _ _ _ => passes_testSteps ho hc⟩

theorem stage_testOpen (ho : r.isOpen = true) : Stage params [.testOpen] [] r r :=
  stage_testSteps (cs := []) ho rfl

theorem stage_test {c : Option Exc} (hc : c = none) : Stage params [.test c] [] r r :=
  Sends.stage ⟨by simp, id, placeFree_id, fun _ _ _ _ => hc ▸ passes_test _⟩

/-- ACTIVE is a mask (R82, R83). -/
theorem stage_testActive : Stage params [.testActive] [] r r :=
  Sends.stage ⟨by simp, id, placeFree_id, fun s rest _ _ => passes_of_primitive (mid := []) rfl keepsPlace_id fun p => by
    rw [primitive, chkMask, chk_eq_none.mpr (within_active _)]
    exact advance_at (s.carry r rest) p p 0⟩

/-- SEND (R80). -/
theorem stage_send {src : Source} {f : Frame} (hf : sourceFrame params.speedBase r.active src = f) :
    Stage params (sendSteps src) [.frame f] r r := by
  have hsent : ∀ (s : State) rest, s.params = params → sentBy src (s.carry r rest) = f := by
    rintro s rest rfl
    exact hf
  refine ⟨⟨by simp [sendSteps], keepCount 3, placeFree_count 3, fun s rest hp ha => ?_⟩, fun s rest e u hp hfail => ?_⟩
  · have h := passes_sendSteps (src := src) (s := s.carry r rest) (hsent s rest hp ▸ accepts_carry.mpr ha)
    rwa [hsent s rest hp] at h
  · exact aborts_sendSteps (hsent s rest hp ▸ hfail.carry r rest)

/-- A frame-level instruction called in place (R80, R100). -/
theorem stage_call {parts : FrameParts} {f : Frame} (ho : r.isOpen = true) (hc : firstFailing parts.checks = none)
    (hf : parts.frame = f) : Stage params (callSteps parts) [.frame f] r r := by
  rw [callSteps_eq]
  exact (stage_testSteps ho hc).append (stage_send hf)

/-- `FlushOut` (R43). -/
theorem stage_flushOut : Stage params [.flushOut] [.flushOut] r r := by
  refine ⟨⟨by simp, id, placeFree_id, fun s rest _ ha => ?_⟩, fun s rest e u _ hfail => ?_⟩
  · exact passes_flushOut (s := s.carry r rest) ha.1
  · refine aborts_of_primitive fun p hclose => ?_
    cases hfail with
    | flushOut _ _ hok =>
      have hok' : ((s.carry r rest).at p).answer.ok = false := hok
      rw [primitive, Machine.flushOut, hok']
      exact raiseExc_not_close _ hclose
    | later _ _ _ _ _ _ h => cases h

/-- A primitive that emits nothing, writes registers (R31) and goes past the steps `mid` behind it. -/
theorem sends_primitive {st : SeqStep} {mid : List SeqStep}
    (h : ∀ (s : State) rest p, primitive st p ((s.carry r rest).at p) = ⟨(s.carry r' rest).at p, p, .on mid.length⟩) :
    Sends params (st :: mid) [] r r' :=
  ⟨by simp, id, placeFree_id, fun s rest _ _ => passes_of_primitive rfl keepsPlace_id fun p => by
    rw [h s rest p]
    exact advance_at (s.carry r' rest) p p _⟩

/-- STOPOP (R102), also called in place. -/
theorem stage_stop (ho : r.isOpen = true) : Stage params (inPlace stopBlocks) stopEmits r r :=
  (stage_testOpen ho).append ((stage_call (parts := partsStop) ho rfl rfl).append stage_flushOut)

/-- `ACT ACTIVE` (R103, R109). -/
theorem stage_actActive (ho : r.isOpen = true) :
    Stage params callActActive [.frame (encode params.speedBase (.act (r.active.toNat : Int)))] r r :=
  ((stage_testOpen ho).append stage_testActive).append (stage_send rfl)

/-- `REINIT ACTIVE` (R109). -/
theorem stage_reinitActive (ho : r.isOpen = true) :
    Stage params callReinitActive [.frame (encode params.speedBase (.reinit (r.active.toNat : Int)))] r r :=
  ((stage_testOpen ho).append stage_testActive).append (stage_send rfl)

/-- REINITIALIZE (R109), also called in place. -/
theorem stage_reinitialize (ho : r.isOpen = true) :
    Stage params (inPlace reinitializeBlocks) (commitEmits params r.active) r r :=
  (stage_testOpen ho).append ((stage_reinitActive ho).append (stage_actActive ho))

end Atoms

/-! ### STOPOP and REINITIALIZE (R102, R109) -/

theorem encode_act_eq_frameOfInts (params : Params) (m : BitVec 4) :
    encode params.speedBase (.act (m.toNat : Int)) = frameOfInts 0 0 (0x80 + (m.toNat : Int)) :=
  frame_eq_frameOfInts rfl rfl (by simp)

theorem encode_reinit_eq_frameOfInts (params : Params) (m : BitVec 4) :
    encode params.speedBase (.reinit (m.toNat : Int)) = frameOfInts 0 0 (0xD0 + (m.toNat : Int)) :=
  frame_eq_frameOfInts rfl rfl (by simp)

/-- Settles O25: the one stage of the stop. -/
theorem stopSendsFrameThenFlushesOut : Obligations.StopSendsFrameThenFlushesOut :=
  fun _ ho => finishes_of_stage (by simp) (stage_stop ho)

/-- Settles O29: REINIT and ACT of ACTIVE are one stage. -/
theorem reinitializeSendsReinitThenAct : Obligations.ReinitializeSendsReinitThenAct := by
  rintro s es ho rfl
  rw [← encode_act_eq_frameOfInts s.params, ← encode_reinit_eq_frameOfInts s.params]
  exact finishes_of_stage (by simp) (stage_reinitialize (r := s.registers) ho)

/-! ### Operand checks, legal or refused -/

/-- The check answers nothing where the operand is legal, else InvalidParameter of the field (R81, R171). -/
structure Refuses (c : Option Exc) (field : Field) (legal : Prop) : Prop where
  pass : legal → c = none
  fail : ¬legal → c = some (.invalidParameter field)

theorem refuses_chk {field : Field} {b : Bool} {legal : Prop} (h : b = true ↔ legal) :
    Refuses (chk field b) field legal := by
  refine ⟨fun hl => chk_eq_none.mpr (h.mpr hl), fun hl => ?_⟩
  rw [chk, if_neg (mt h.mp hl)]

theorem refuses_chkCh (ch : Int) : Refuses (chkCh ch) .channel (1 ≤ ch ∧ ch ≤ 4) := refuses_chk within_iff

theorem refuses_chkCal (k : Int) : Refuses (chkCal k) .calibration (0 ≤ k ∧ k ≤ 7) := refuses_chk within_iff

theorem refuses_chkByte (v : Int) : Refuses (chkByte v) .eeByte (0 ≤ v ∧ v ≤ 255) := refuses_chk within_iff

theorem refuses_chkFreq (f : Rat) : Refuses (chkFreq f) .frequency (f.den = 1 ∧ 5 ≤ f.num ∧ f.num ≤ 1000) :=
  refuses_chk (by simp [within_iff, Config.freqMin, Config.freqMax])

theorem refuses_chkWidth (w : Int) : Refuses (chkWidth w) .frameWidth (w = 4 ∨ w = 5) := refuses_chk decide_eq_true_iff

theorem isSome_gaincode_iff {gain : Rat} : (gaincode gain).isSome = true ↔ ∃ g : Nat, g ≤ 7 ∧ gain = 2 ^ g := by
  constructor
  · intro h
    obtain ⟨g, hg⟩ := Option.isSome_iff_exists.mp h
    exact ⟨g.toNat, by omega, eq_two_pow_of_gaincode hg⟩
  · rintro ⟨g, hg, rfl⟩
    have hcode := gaincode_two_pow (BitVec.ofNat 3 g)
    rw [BitVec.toNat_ofNat, Nat.mod_eq_of_lt (by omega)] at hcode
    rw [hcode]
    rfl

theorem refuses_chkGain (gain : Rat) : Refuses (chkGain gain) .gain (∃ g : Nat, g ≤ 7 ∧ gain = 2 ^ g) :=
  refuses_chk isSome_gaincode_iff

theorem refuses_chkSrc (p : Params) (src : InputSource) :
    Refuses (chkSrc p src) .inputType (∃ t : Int, inputCode p src = some t ∧ 0 ≤ t ∧ t ≤ 3) := by
  unfold chkSrc
  cases inputCode p src with
  | none => exact ⟨fun ⟨_, h, _⟩ => (nomatch h), fun _ => rfl⟩
  | some t => exact refuses_chk (within_iff.trans (by simp))

/-- The first failing check of a list whose first one is looked at. -/
theorem Refuses.firstFailing_pass {c : Option Exc} {field : Field} {legal : Prop} (h : Refuses c field legal)
    (hl : legal) (cs : List (Option Exc)) : firstFailing (c :: cs) = firstFailing cs := by
  rw [h.pass hl, firstFailing_none]

theorem Refuses.firstFailing_fail {c : Option Exc} {field : Field} {legal : Prop} (h : Refuses c field legal)
    (hl : ¬legal) (cs : List (Option Exc)) : firstFailing (c :: cs) = some (.invalidParameter field) := by
  rw [h.fail hl, firstFailing_some]

/-! ### The setters (R104 to R106) -/

section Setters

variable {params : Params} {r : Registers}

/-- A well-formed instruction called in place sends its encoding (R76, R100). -/
theorem stage_instr {i : Instr} (ho : r.isOpen = true)
    (hc : firstFailing (instrParts params.speedBase i).checks = none) :
    Stage params (callSteps (instrParts params.speedBase i)) [.frame (encode params.speedBase i)] r r :=
  stage_call ho hc (partsFrame_eq_encode _ i ((checks_eq_none_iff _ i).mp hc))

/-- SETFREQ of checked operands (R104), also called in place. -/
theorem stage_setfreq {ch : Int} {f : Rat} (ho : r.isOpen = true) (hch : chkCh ch = none) (hf : chkFreq f = none) :
    Stage params (inPlace (setfreqBlocks ch f))
      [.frame (encode params.speedBase (.freqlo ch (19200 / f.num))),
       .frame (encode params.speedBase (.freqhi ch (19200 / f.num)))] r r := by
  have hchecks : firstFailing [chkCh ch, chkDiv (divisor f)] = none := by simp [hch, chkDiv_divisor hf]
  rw [← divisor_eq]
  exact (stage_testSteps (cs := [chkCh ch]) ho (by simp [hch])).append ((stage_test hf).append
    ((stage_instr (i := .freqlo ch (divisor f)) ho hchecks).append
      (stage_instr (i := .freqhi ch (divisor f)) ho hchecks)))

/-- SETGAINCAL of checked operands (R105), also called in place: the frame, then the cell. -/
theorem stage_setgaincal {ch k : Int} {gain : Rat} (ho : r.isOpen = true) (hch : chkCh ch = none) (hk : chkCal k = none)
    (hgain : chkGain gain = none) :
    Stage params (inPlace (setgaincalBlocks ch k gain))
      [.frame (encode params.speedBase (.gaincal ch k ((gainCodeOf gain).toNat : Int)))] r
      { r with gainc := setGain r.gainc ch (gainCodeOf gain) } := by
  have hchecks : firstFailing [chkCh ch, chkCal k, chkGcode ((gainCodeOf gain).toNat : Int)] = none := by
    simp [hch, hk, chkGcode_gainCode]
  exact (stage_testSteps (cs := [chkCh ch, chkCal k, chkGain gain]) ho (by simp [hch, hk, hgain])).append
    ((stage_instr (i := .gaincal ch k (gainCodeOf gain).toNat) ho hchecks).append_silent
      (sends_primitive (mid := []) fun _ _ _ => rfl))

/-- SETINPUT of checked operands (R106), also called in place. -/
theorem stage_setinput {ch : Int} {src : InputSource} (ho : r.isOpen = true) (hch : chkCh ch = none)
    (hsrc : chkSrc params src = none) :
    Stage params (inPlace (setinputBlocks params ch src))
      [.frame (encode params.speedBase (.intype ch ((inputCode params src).getD 0)))] r r := by
  have hchecks : firstFailing [chkCh ch, chkItype ((inputCode params src).getD 0)] = none := by
    simp [hch, chkItype_inputCode hsrc]
  exact (stage_testSteps (cs := [chkCh ch]) ho (by simp [hch])).append ((stage_test hsrc).append
    (stage_instr (i := .intype ch ((inputCode params src).getD 0)) ho hchecks))

end Setters

theorem intFrequency_iff {f : Rat} :
    (f.den = 1 ∧ 5 ≤ f ∧ f ≤ 1000) ↔ f.den = 1 ∧ 5 ≤ f.num ∧ f.num ≤ 1000 := by
  refine and_congr_right fun hden => ?_
  rw [← (Rat.den_eq_one_iff f).mp hden, Rat.num_intCast]
  norm_cast

/-- Settles O30: the two frames are one stage, and the checks before them are refused in order. -/
theorem setFreqSendsLowThenHigh : Obligations.SetFreqSendsLowThenHigh := by
  intro s ch f ho
  have refused {e : Exc} (hc : firstFailing [chkCh ch, chkFreq f] = some e) : Finishes (.setfreq ch f) s s (.raised e) :=
    finishes_of_check (cs := [chkCh ch, chkFreq f]) (by simp) rfl ho hc
  refine ⟨fun hch => ?_, fun hch hf => ?_, ?_⟩
  · exact refused ((refuses_chkCh ch).firstFailing_fail hch _)
  · rw [intFrequency_iff] at hf
    exact refused (((refuses_chkCh ch).firstFailing_pass hch _).trans ((refuses_chkFreq f).firstFailing_fail hf _))
  · rintro hch hz rfl hlow hhigh es rfl
    have hf := (refuses_chkFreq hz).pass ⟨rfl, hlow, hhigh⟩
    exact finishes_of_stage (by simp) (stage_setfreq (f := hz) (r := s.registers) ho ((refuses_chkCh ch).pass hch) hf)

/-- A gain table is its four cells (R24). -/
theorem eq_of_get {t t' : GainTable} (h : ∀ c, t.get c = t'.get c) : t = t' := by
  obtain ⟨_, _, _, _⟩ := t
  obtain ⟨_, _, _, _⟩ := t'
  exact GainTable.mk.injEq .. ▸ ⟨h .ch1, h .ch2, h .ch3, h .ch4⟩

/-- GAINC with the code of one channel, every other cell kept (R24). -/
theorem eq_set_of_get {t t' : GainTable} {c : Channel} {g : BitVec 3} (hc : t.get c = some g)
    (hother : ∀ d, d ≠ c → t.get d = t'.get d) : t = t'.set c g := by
  refine eq_of_get fun d => ?_
  by_cases hd : d = c
  · rw [hd, hc, get_set_same]
  · rw [hother d hd, get_set_other t' g (Ne.symm hd)]

theorem channel_number_legal (c : Channel) : 1 ≤ (c.number : Int) ∧ (c.number : Int) ≤ 4 := by
  cases c <;> decide

theorem gainCodeOf_two_pow (g : BitVec 3) : gainCodeOf (2 ^ g.toNat) = g := by
  rw [gainCodeOf, gaincode_two_pow, Option.getD_some]

/-- Settles O31: the frame and the cell are one stage, and the checks before them are refused in order. -/
theorem setGainCalWritesGainAfterFrame : Obligations.SetGainCalWritesGainAfterFrame := by
  refine ⟨fun s c k g t ho hlow hhigh hc hother => ?_, fun s ch k gain ho => ?_⟩
  · have hch := (refuses_chkCh c.number).pass (channel_number_legal c)
    have hgain : chkGain (2 ^ g.toNat) = none := (refuses_chkGain _).pass ⟨g.toNat, by omega, rfl⟩
    have hstage := stage_setgaincal (params := s.params) (r := s.registers) (k := k) ho hch
      ((refuses_chkCal k).pass ⟨hlow, hhigh⟩) hgain
    have hframe : encode s.params.speedBase (.gaincal c.number k (g.toNat : Int)) =
        frameOfInts k g.toNat (0xC0 + channelBitTable c.number) :=
      channelFrame_eq_frameOfInts (channel_number_legal c) (by omega) (by omega)
    have hcell : setGain s.gainc c.number g = t := by
      rw [setGain, channelOf_number, eq_set_of_get hc hother]
    rw [gainCodeOf_two_pow, hframe, show s.registers.gainc = s.gainc from rfl, hcell] at hstage
    exact ⟨fun ha => finishes_of_sends (fun r => { r with gainc := t }) hstage.sends ha,
      fun e u h => finishes_of_fails_first (C := []) (by simp) (List.append_nil _).symm hstage h⟩
  · have refused {e : Exc} (hc : firstFailing [chkCh ch, chkCal k, chkGain gain] = some e) :
        Finishes (.setgaincal ch k gain) s s (.raised e) :=
      finishes_of_check (by simp) rfl ho hc
    have hpassCh := (refuses_chkCh ch).firstFailing_pass
    have hpassCal := (refuses_chkCal k).firstFailing_pass
    refine ⟨fun hch => refused ((refuses_chkCh ch).firstFailing_fail hch _), fun hch hk => refused ?_,
      fun hch hk hgain => refused ?_⟩
    · rw [hpassCh hch, (refuses_chkCal k).firstFailing_fail hk]
    · rw [hpassCh hch, hpassCal hk, (refuses_chkGain gain).firstFailing_fail (by simpa using hgain)]

/-- Settles O32: the frame is one stage, and the checks before it are refused in order. -/
theorem setInputSendsTheCode : Obligations.SetInputSendsTheCode := by
  refine ⟨fun p => ⟨rfl, rfl, rfl, rfl, fun _ => rfl, fun _ => rfl⟩, fun s ch src ho => ?_⟩
  have refused {e : Exc} (hc : firstFailing [chkCh ch, chkSrc s.params src] = some e) :
      Finishes (.setinput ch src) s s (.raised e) :=
    finishes_of_check (cs := [chkCh ch, chkSrc s.params src]) (by simp) rfl ho hc
  refine ⟨fun hch => refused ((refuses_chkCh ch).firstFailing_fail hch _),
    fun hch => ⟨fun t ht hlow hhigh => ?_, fun hbad => refused ?_⟩⟩
  · have hsrc := (refuses_chkSrc s.params src).pass ⟨t, ht, hlow, hhigh⟩
    have hstage := stage_setinput (params := s.params) (r := s.registers) ho ((refuses_chkCh ch).pass hch) hsrc
    have hframe : encode s.params.speedBase (.intype ch t) = frameOfInts 0 t (0x90 + channelBitTable ch) :=
      channelFrame_eq_frameOfInts hch rfl (by omega)
    rw [ht, Option.getD_some, hframe] at hstage
    exact finishes_of_stage (by simp) hstage
  · rw [(refuses_chkCh ch).firstFailing_pass hch,
      (refuses_chkSrc s.params src).firstFailing_fail fun ⟨t, ht, hlegal⟩ => hbad t ht hlegal]

/-! ### APPLYCH (R107) -/

theorem firstFailing_append (cs ds : List (Option Exc)) :
    firstFailing (cs ++ ds) = (firstFailing cs).or (firstFailing ds) := by
  induction cs with
  | nil => rfl
  | cons c cs ih => cases c <;> simp [ih]

/-- A legal configuration passes every check of APPLYCH (R107). -/
theorem chkConfig_of_legal {p : Params} {cfg : ChannelConfig} (h : LegalConfig p cfg) :
    firstFailing (chkConfig p cfg) = none := by
  obtain ⟨hch, hf, hcal, hgain, hsrc⟩ := h
  rw [chkConfig, (refuses_chkCh _).firstFailing_pass hch, (refuses_chkFreq _).firstFailing_pass hf,
    (refuses_chkCal _).firstFailing_pass hcal, (refuses_chkGain _).firstFailing_pass hgain,
    (refuses_chkSrc p _).firstFailing_pass hsrc, firstFailing_nil]

/-- An illegal configuration is refused for the first field outside its set (R107, R181). -/
theorem chkConfig_of_refused {p : Params} {cfg : ChannelConfig} {field : Field} (h : RefusedConfig p cfg field) :
    firstFailing (chkConfig p cfg) = some (.invalidParameter field) := by
  unfold chkConfig
  cases field
  case channel => exact (refuses_chkCh _).firstFailing_fail h _
  case frequency =>
    obtain ⟨hch, hf⟩ := h
    rw [(refuses_chkCh _).firstFailing_pass hch, (refuses_chkFreq _).firstFailing_fail hf]
  case calibration =>
    obtain ⟨hch, hf, hcal⟩ := h
    rw [(refuses_chkCh _).firstFailing_pass hch, (refuses_chkFreq _).firstFailing_pass hf,
      (refuses_chkCal _).firstFailing_fail hcal]
  case gain =>
    obtain ⟨hch, hf, hcal, hgain⟩ := h
    rw [(refuses_chkCh _).firstFailing_pass hch, (refuses_chkFreq _).firstFailing_pass hf,
      (refuses_chkCal _).firstFailing_pass hcal, (refuses_chkGain _).firstFailing_fail hgain]
  case inputType =>
    obtain ⟨hch, hf, hcal, hgain, hsrc⟩ := h
    rw [(refuses_chkCh _).firstFailing_pass hch, (refuses_chkFreq _).firstFailing_pass hf,
      (refuses_chkCal _).firstFailing_pass hcal, (refuses_chkGain _).firstFailing_pass hgain,
      (refuses_chkSrc p _).firstFailing_fail hsrc]
  all_goals exact absurd h not_false

/-- APPLYCH up to the write of the gain (R107). -/
def configHead (p : Params) (cfg : ChannelConfig) : List SeqStep :=
  testSteps (chkConfig p cfg) ++
    (inPlace (setfreqBlocks cfg.ch cfg.f) ++ inPlace (setgaincalBlocks cfg.ch cfg.cal cfg.gain))

theorem steps_applych (p : Params) (cfg : ChannelConfig) :
    inPlace (applychBlocks p cfg) = configHead p cfg ++ inPlace (setinputBlocks p cfg.ch cfg.src) := rfl

/-- The registers with the gain of a configuration set (R105, R107). -/
def Registers.withGain (r : Registers) (cfg : ChannelConfig) : Registers :=
  { r with gainc := setGain r.gainc cfg.ch (gainCodeOf cfg.gain) }

section Config

variable {params : Params} {r : Registers} {cfg : ChannelConfig}

theorem stage_configHead (ho : r.isOpen = true) (h : LegalConfig params cfg) :
    Stage params (configHead params cfg) ((configEmits params cfg).take 3) r (r.withGain cfg) := by
  have hchecks := chkConfig_of_legal h
  obtain ⟨hch, hf, hcal, hgain, _⟩ := h
  exact (stage_testSteps ho hchecks).append
    ((stage_setfreq ho ((refuses_chkCh _).pass hch) ((refuses_chkFreq _).pass hf)).append
      (stage_setgaincal ho ((refuses_chkCh _).pass hch) ((refuses_chkCal _).pass hcal) ((refuses_chkGain _).pass hgain)))

theorem stage_configInput (ho : r.isOpen = true) (h : LegalConfig params cfg) :
    Stage params (inPlace (setinputBlocks params cfg.ch cfg.src)) ((configEmits params cfg).drop 3) r r := by
  obtain ⟨hch, _, _, _, hsrc⟩ := h
  exact stage_setinput ho ((refuses_chkCh _).pass hch) ((refuses_chkSrc params _).pass hsrc)

theorem sends_applych (ho : r.isOpen = true) (h : LegalConfig params cfg) :
    Sends params (inPlace (applychBlocks params cfg)) (configEmits params cfg) r (r.withGain cfg) :=
  (stage_configHead ho h).sends.append (stage_configInput (r := r.withGain cfg) ho h).sends

end Config

/-- Settles O33: the frames up to the gain are one stage, which writes it, and the input type is another. -/
theorem applyChannelSendsFourFrames : Obligations.ApplyChannelSendsFourFrames := by
  refine fun s cfg ho => ⟨fun field h => ?_, fun h => ⟨fun ha => ?_, fun e u hfail => ?_, fun e u ha hfail => ?_⟩⟩
  · exact finishes_of_check (cs := chkConfig s.params cfg) (by simp) rfl ho (chkConfig_of_refused h)
  · exact finishes_of_sends (·.withGain cfg) (sends_applych (r := s.registers) ho h) ha
  · exact finishes_of_fails_first (by simp) (steps_applych s.params cfg)
      (stage_configHead (r := s.registers) ho h) hfail
  · have hinput := stage_configInput (r := s.registers.withGain cfg) ho h
    exact finishes_of_fails (o := .applych cfg) (C := [])
      (fun r => { r with gainc := setGain s.gainc cfg.ch (gainCodeOf cfg.gain) }) (by simp)
      (by rw [List.append_nil]; exact steps_applych s.params cfg)
      (stage_configHead (r := s.registers) ho h).sends hinput ha hfail

/-! ### SETBYTEMODE (R108) -/

section Mode

variable {params : Params} {r : Registers} {w : Int}

/-- The mode already held: nothing is done (R108). -/
theorem stage_mode_held (ho : r.isOpen = true) (hw : chkWidth w = none) (hheld : widthOf w = r.fw) :
    Stage params (inPlace (setbytemodeBlocks w)) [] r r :=
  (stage_testOpen ho).append ((stage_test hw).append (Sends.stage (sends_primitive (mid := inPlace (modeChange w))
    fun _ _ _ => congrArg (fun k => Effect.mk _ _ (.on k)) (if_pos hheld))))

/-- Another mode: its frame, then FW (R108). -/
theorem stage_mode_changed {f : Frame} (ho : r.isOpen = true) (hw : chkWidth w = none) (hother : widthOf w ≠ r.fw)
    (hf : (if w = 5 then partsMode5 else partsMode4).frame = f) :
    Stage params (inPlace (setbytemodeBlocks w)) [.frame f] r { r with fw := widthOf w } := by
  have hchecks : firstFailing (if w = 5 then partsMode5 else partsMode4).checks = none := by split <;> rfl
  have htest : Sends params [.modeTest (widthOf w) (inPlace (modeChange w)).length] [] r r :=
    sends_primitive (mid := []) fun _ _ _ => congrArg (fun k => Effect.mk _ _ (.on k)) (if_neg hother)
  exact (stage_testOpen ho).append ((stage_test hw).append (htest.stage.append
    ((stage_call ho hchecks hf).append_silent (sends_primitive (mid := []) fun _ _ _ => rfl))))

end Mode

/-- Settles O34: the mode held is a stage without emissions, another one a stage with the mode frame. -/
theorem setByteModeChangesWidthAfterFrame : Obligations.SetByteModeChangesWidthAfterFrame := by
  intro s ho
  have change (w : Int) (f : Frame) (hw : chkWidth w = none) (hother : widthOf w ≠ s.fw)
      (hf : (if w = 5 then partsMode5 else partsMode4).frame = f) :=
    stage_mode_changed (params := s.params) (r := s.registers) ho hw hother hf
  have held (w : Int) (hw : chkWidth w = none) (hheld : widthOf w = s.fw) : Finishes (.setbytemode w) s s (.done .empty) :=
    finishes_of_sends (es := []) id (stage_mode_held (r := s.registers) ho hw hheld).sends trivial
  refine ⟨fun w h4 h5 => ?_, fun hfw => held 4 rfl hfw.symm, fun hfw => held 5 rfl hfw.symm, fun hfw ha => ?_,
    fun hfw ha => ?_, fun e u hfw hfail => ?_, fun e u hfw hfail => ?_⟩
  · refine finishes_of_check (cs := [chkWidth w]) (by simp) rfl ho ?_
    exact (refuses_chkWidth w).firstFailing_fail (by simp [h4, h5]) _
  · exact finishes_of_sends (fun r => { r with fw := .five }) (change 5 _ rfl (by rw [hfw]; decide) rfl).sends ha
  · exact finishes_of_sends (fun r => { r with fw := .four }) (change 4 _ rfl (by rw [hfw]; decide) rfl).sends ha
  · exact finishes_of_fails_first (C := []) (by simp) (List.append_nil _).symm
      (change 5 _ rfl (by rw [hfw]; decide) rfl) hfail
  · exact finishes_of_fails_first (C := []) (by simp) (List.append_nil _).symm
      (change 4 _ rfl (by rw [hfw]; decide) rfl) hfail

/-! ### Operations of one frame (R111 to R113) -/

theorem encode_eeaddr_eq_frameOfInts (base : SpeedBase) {a : Int} (h : 0 ≤ a) (hmax : a ≤ 255) :
    encode base (.eeaddr a) = frameOfInts (a / 16) (a % 16) 0xF2 := by
  have hfield := natCast_bitField h
  exact frame_eq_frameOfInts (by rw [hfield]; omega) (by rw [hfield]; omega) rfl

theorem encode_eewr_eq_frameOfInts (base : SpeedBase) {v : Int} (h : 0 ≤ v) (hmax : v ≤ 255) :
    encode base (.eewr v) = frameOfInts (v / 16) (v % 16) 0xF3 := by
  have hfield := natCast_bitField h
  exact frame_eq_frameOfInts (by rw [hfield]; omega) (by rw [hfield]; omega) rfl

/-- The index of each of the six speeds (R69). -/
theorem speedIndex_of_mem {baud i : Int}
    (h : (baud, i) ∈ [(2400, 0), (4800, 1), (9600, 2), (19200, 3), (38400, 4), ((57600 : Int), (5 : Int))]) :
    speedIndex baud = some i ∧ 0 ≤ i ∧ i ≤ 5 := by
  simp only [List.mem_cons, Prod.mk.injEq, List.not_mem_nil, or_false] at h
  rcases h with ⟨rfl, rfl⟩ | ⟨rfl, rfl⟩ | ⟨rfl, rfl⟩ | ⟨rfl, rfl⟩ | ⟨rfl, rfl⟩ | ⟨rfl, rfl⟩ <;> decide

/-- No other speed has an index (R69). -/
theorem speedIndex_of_not_mem {baud : Int} (h : baud ∉ [2400, 4800, 9600, 19200, 38400, (57600 : Int)]) :
    speedIndex baud = none := by
  simp only [List.mem_cons, List.not_mem_nil, or_false, not_or] at h
  simp [speedIndex, h]

theorem stage_setspeed {params : Params} {r : Registers} {baud i : Int} (ho : r.isOpen = true)
    (hindex : speedIndex baud = some i) (hrange : 0 ≤ i ∧ i ≤ 5) :
    Stage params (inPlace (setspeedBlocks params.speedBase baud))
      [.frame (frameOfInts 0x5A 0x5A (params.speedBase.val + i))] r r := by
  have hbaud : chkBaud baud = none := chk_eq_none.mpr (by rw [hindex]; rfl)
  have hcheck : chkSidx i = none := chk_eq_none.mpr (within_iff.mpr hrange)
  have hcall := stage_call (params := params) (parts := speedParts params.speedBase i) ho (by simp [speedParts, hcheck])
    (speedFrame_eq_frameOfInts params.speedBase (Int.toNat_of_nonneg hrange.1))
  rw [setspeedBlocks, hindex]
  exact (stage_testOpen ho).append ((stage_test hbaud).append hcall)

/-- Settles O37: each of the three is one stage, and the checks of the last two stand before it. -/
theorem singleFrameOperations : Obligations.SingleFrameOperations := by
  refine fun s ho => ⟨?_, fun baud i h => ?_, fun baud h => ?_, fun a => ⟨fun h => ?_, fun hlow hhigh => ?_⟩⟩
  · exact finishes_of_stage (by simp) (stage_call (parts := partsTmrrst) (r := s.registers) ho rfl rfl)
  · obtain ⟨hindex, hrange⟩ := speedIndex_of_mem h
    exact finishes_of_stage (by simp) (stage_setspeed (r := s.registers) ho hindex hrange)
  · refine finishes_of_check (cs := [chkBaud baud]) (by simp) rfl ho ?_
    rw [chkBaud, speedIndex_of_not_mem h]
    rfl
  · exact finishes_of_check (cs := [chkByte a]) (by simp) rfl ho ((refuses_chkByte a).firstFailing_fail h _)
  · have hcall := stage_instr (params := s.params) (r := s.registers) (i := .eeaddr a) ho
      ((refuses_chkByte a).firstFailing_pass ⟨hlow, hhigh⟩ _)
    rw [encode_eeaddr_eq_frameOfInts _ hlow hhigh] at hcall
    exact finishes_of_stage (by simp) hcall

/-! ### SETACTIVE (R103) -/

/-- ACTIVE after the round of one channel: flipped where a flag is given that differs from it (R103 step 3). -/
def afterFlag (m : BitVec 4) (c : Channel) (flag : Option Bool) : BitVec 4 :=
  if flag.isSome && !flagAgrees m c flag then m ^^^ c.bit else m

theorem maskBit_xor_bit (m : BitVec 4) (c d : Channel) : maskBit (m ^^^ c.bit) d = (maskBit m d ^^ decide (c = d)) := by
  cases c <;> cases d <;> simp [maskBit, Channel.bit, Channel.number]

/-- The round gives its channel the flag, where there is one, and keeps the others (R103). -/
theorem maskBit_afterFlag (m : BitVec 4) (c d : Channel) (flag : Option Bool) :
    maskBit (afterFlag m c flag) d = if c = d then flag.getD (maskBit m d) else maskBit m d := by
  unfold afterFlag flagAgrees
  cases flag with
  | none => simp
  | some b =>
    by_cases hcd : c = d
    · subst hcd
      cases b <;> cases hm : maskBit m c <;> simp [maskBit_xor_bit, hm]
    · simp only [if_neg hcd]
      split <;> simp [maskBit_xor_bit, hcd]

theorem eq_of_maskBit {m m' : BitVec 4} (h : ∀ c, maskBit m c = maskBit m' c) : m = m' := by
  refine BitVec.eq_of_getLsbD_eq fun i hi => ?_
  obtain rfl | rfl | rfl | rfl : i = 0 ∨ i = 1 ∨ i = 2 ∨ i = 3 := by omega
  · exact h .ch1
  · exact h .ch2
  · exact h .ch3
  · exact h .ch4

section Active

variable {params : Params} {r : Registers}

/-- The round of one channel (R103 step 3). -/
theorem sends_flagSteps (c : Channel) (flag : Option Bool) :
    Sends params (flagSteps c flag) [] r { r with active := afterFlag r.active c flag } := by
  cases flag with
  | none => exact sends_primitive (mid := [.flagDiffers c none, .flipActive c]) fun _ _ _ => rfl
  | some b =>
    have hgiven : Sends params [.flagGiven (some b)] [] r r := sends_primitive (mid := []) fun _ _ _ => rfl
    refine hgiven.append (?_ : Sends params [.flagDiffers c (some b), .flipActive c] [] r _)
    unfold afterFlag
    cases h : flagAgrees r.active c (some b) with
    | true =>
      exact sends_primitive (mid := [.flipActive c]) fun _ _ _ => congrArg (fun k => Effect.mk _ _ (.on k)) (if_pos h)
    | false =>
      have hdiffers : Sends params [.flagDiffers c (some b)] [] r r :=
        sends_primitive (mid := []) fun _ _ _ =>
          congrArg (fun k => Effect.mk _ _ (.on k)) (if_neg (Bool.eq_false_iff.mp h))
      exact hdiffers.append (sends_primitive (mid := []) fun _ _ _ => rfl)

/-- The rounds of the four channels write the mask that holds every given flag and keeps the other bits (R103). -/
theorem sends_flagRounds {f1 f2 f3 f4 : Option Bool} {m : BitVec 4}
    (h1 : maskBit m .ch1 = f1.getD (maskBit r.active .ch1)) (h2 : maskBit m .ch2 = f2.getD (maskBit r.active .ch2))
    (h3 : maskBit m .ch3 = f3.getD (maskBit r.active .ch3)) (h4 : maskBit m .ch4 = f4.getD (maskBit r.active .ch4)) :
    Sends params (flagRounds f1 f2 f3 f4) [] r { r with active := m } := by
  have hm : m = afterFlag (afterFlag (afterFlag (afterFlag r.active .ch1 f1) .ch2 f2) .ch3 f3) .ch4 f4 := by
    refine eq_of_maskBit fun c => ?_
    cases c <;> simp [maskBit_afterFlag, h1, h2, h3, h4]
  rw [hm]
  exact (((sends_flagSteps .ch1 f1).append (sends_flagSteps .ch2 f2)).append (sends_flagSteps .ch3 f3)).append
    (sends_flagSteps .ch4 f4)

end Active

/-- Settles O28: the stop is one stage, the rounds of the flags write the mask, and ACT of it is another stage. -/
theorem setActiveWritesMaskBetweenFrames : Obligations.SetActiveWritesMaskBetweenFrames := by
  intro s f1 f2 f3 f4 m ho h1 h2 h3 h4
  rw [← encode_act_eq_frameOfInts s.params]
  have hstop : Stage s.params (.testOpen :: inPlace stopBlocks) stopEmits s.registers s.registers :=
    (stage_testOpen ho).append (stage_stop ho)
  have hflags : Sends s.params (flagRounds f1 f2 f3 f4) [] s.registers { s.registers with active := m } :=
    sends_flagRounds h1 h2 h3 h4
  have hact := stage_actActive (params := s.params) (r := { s.registers with active := m }) ho
  have hsteps : inPlace (blocks s.params (.setactive f1 f2 f3 f4)) =
      ((.testOpen :: inPlace stopBlocks) ++ flagRounds f1 f2 f3 f4) ++ (callActActive ++ []) := rfl
  refine ⟨fun ha => ?_, fun e u ha hfail => ?_, fun e u hfail => ?_⟩
  · exact finishes_of_sends (fun r => { r with active := m }) ((hstop.append_silent hflags).sends.append hact.sends) ha
  · exact finishes_of_fails (fun r => { r with active := m }) (by simp) hsteps (hstop.append_silent hflags).sends
      hact ha hfail
  · exact finishes_of_fails_first (by simp) hsteps (hstop.append_silent hflags) hfail

/-! ### INITIALIZE (R110, R118) -/

/-- Legal configurations pass every check of their fields (R107, R110). -/
theorem checks_of_legal {p : Params} {cfgs : List ChannelConfig} (h : ∀ cfg ∈ cfgs, LegalConfig p cfg) :
    firstFailing (cfgs.flatMap (chkConfig p)) = none := by
  rw [firstFailing_eq_none]
  intro c hc
  obtain ⟨cfg, hcfg, hmem⟩ := List.mem_flatMap.mp hc
  exact firstFailing_eq_none.mp (chkConfig_of_legal (h cfg hcfg)) c hmem

/-- Settles O36: the first failing check is that of the first field outside its set, or else that of the distinctness. -/
theorem initializeRefusesIllegalSets : Obligations.InitializeRefusesIllegalSets := by
  intro s cfgs five ho
  have refused {e : Exc} (hc : firstFailing (cfgs.flatMap (chkConfig s.params) ++ [chkDistinct cfgs]) = some e) :
      Finishes (.bringUp cfgs five) s s (.raised e) :=
    finishes_of_check (by simp) (steps_bringUp s.params cfgs five) ho hc
  refine ⟨fun earlier cfg later field hcfgs hlegal h => refused ?_, fun hlegal hdup => refused ?_⟩
  · rw [hcfgs, List.flatMap_append, List.flatMap_cons, List.append_assoc, firstFailing_append, List.append_assoc,
      firstFailing_append, chkConfig_of_refused h, checks_of_legal hlegal]
    rfl
  · rw [firstFailing_append, checks_of_legal hlegal]
    exact (refuses_chk decide_eq_true_iff).firstFailing_fail hdup _

/-- The configuration rounds one after another (R110 step 5). -/
theorem steps_rounds_append (p : Params) (j : Nat) (xs ys : List ChannelConfig) :
    inPlace (roundBlocks p j (xs ++ ys)) = inPlace (roundBlocks p j xs) ++ inPlace (roundBlocks p (j + xs.length) ys) := by
  induction xs generalizing j with
  | nil => rfl
  | cons cfg xs ih =>
    rw [List.cons_append, roundBlocks, roundBlocks, inPlace_cons, inPlace_cons, ih, List.append_assoc,
      List.length_cons, Nat.add_right_comm, Nat.add_assoc]

/-- INITIALIZE up to the writes of ACTIVE (R110 steps 1 to 3). -/
def upToMask (p : Params) (cfgs : List ChannelConfig) : List SeqStep :=
  (testSteps (cfgs.flatMap (chkConfig p) ++ [chkDistinct cfgs]) ++ leadingStops) ++
    flagRounds (inSet cfgs .ch1) (inSet cfgs .ch2) (inSet cfgs .ch3) (inSet cfgs .ch4)

/-- INITIALIZE up to its step 5, and in step 5 up to the end of the rounds of `earlier` (R110). -/
def upToRounds (p : Params) (cfgs earlier : List ChannelConfig) : List SeqStep :=
  (upToMask p cfgs ++ activateAndStop) ++ inPlace (roundBlocks p 1 earlier)

theorem steps_upToMask (p : Params) (cfgs : List ChannelConfig) (five : Option Bool) :
    inPlace (bringUpBlocks p cfgs five) = upToMask p cfgs ++ (activateAndStop ++ (inPlace (roundBlocks p 1 cfgs) ++
      (fiveSteps (five.getD false) ++ inPlace reinitializeBlocks))) := by
  rw [steps_bringUp, upToMask]
  simp only [List.append_assoc]

theorem steps_upToRounds (p : Params) (cfgs : List ChannelConfig) (five : Option Bool) :
    inPlace (bringUpBlocks p cfgs five) =
      upToRounds p cfgs cfgs ++ (fiveSteps (five.getD false) ++ inPlace reinitializeBlocks) := by
  rw [steps_upToMask, upToRounds]
  simp only [List.append_assoc]

/-- INITIALIZE at one of its configurations (R110 step 5). -/
theorem steps_atRound (p : Params) {cfgs earlier later : List ChannelConfig} {cfg : ChannelConfig}
    (h : cfgs = earlier ++ cfg :: later) (five : Option Bool) : ∃ left, inPlace (bringUpBlocks p cfgs five) =
      upToRounds p cfgs earlier ++ (configHead p cfg ++ (inPlace (setinputBlocks p cfg.ch cfg.src) ++ left)) := by
  have hrounds : inPlace (roundBlocks p 1 cfgs) = inPlace (roundBlocks p 1 earlier) ++
      ((configHead p cfg ++ inPlace (setinputBlocks p cfg.ch cfg.src)) ++
        inPlace (roundBlocks p (1 + earlier.length + 1) later)) := by
    rw [h, steps_rounds_append]
    rfl
  refine ⟨inPlace (roundBlocks p (1 + earlier.length + 1) later) ++
    (fiveSteps (five.getD false) ++ inPlace reinitializeBlocks), ?_⟩
  rw [steps_upToMask, hrounds, upToRounds]
  simp only [List.append_assoc]

/-- The registers with ACTIVE and GAINC as INITIALIZE has written them (R118). -/
def Registers.applied (r : Registers) (m : BitVec 4) (t : GainTable) : Registers := { r with active := m, gainc := t }

section BringUp

variable {params : Params} {r : Registers} {cfgs : List ChannelConfig} {m : BitVec 4}

/-- INITIALIZE step 6 (R108, R110). -/
theorem stage_fiveSteps (five : Bool) (ho : r.isOpen = true) :
    Stage params (fiveSteps five) (modeEmits params five r.fw) r { r with fw := if five then .five else r.fw } := by
  cases five with
  | false => exact Sends.stage (sends_primitive (mid := inPlace (setbytemodeBlocks 5)) fun _ _ _ => rfl)
  | true =>
    have htest : Stage params [.fiveTest true (inPlace (setbytemodeBlocks 5)).length] [] r r :=
      Sends.stage (sends_primitive (mid := []) fun _ _ _ => rfl)
    refine htest.append (?_ : Stage params (inPlace (setbytemodeBlocks 5)) _ r _)
    cases hfw : r.fw with
    | four => exact stage_mode_changed ho rfl (by rw [hfw]; decide) rfl
    | five =>
      have hr : ({ r with fw := if true = true then FrameWidth.five else FrameWidth.five } : Registers) = r := by
        rw [if_pos rfl, ← hfw]
      rw [hr]
      exact stage_mode_held ho rfl hfw.symm

/-- The stops before the mask (R110). -/
theorem stage_leadingStops (ho : r.isOpen = true) : Stage params leadingStops (stopEmits ++ stopEmits) r r :=
  (stage_stop ho).append ((stage_testOpen ho).append (stage_stop ho))

/-- The activation frame and the stop behind it (R110). -/
theorem stage_activateAndStop (ho : r.isOpen = true) : Stage params activateAndStop
    (.frame (encode params.speedBase (.act (r.active.toNat : Int))) :: stopEmits) r r :=
  (stage_actActive ho).append (stage_stop ho)

/-- The flag of a channel is its bit of the mask of the set (R110). -/
theorem maskBit_inSet (hm : ∀ c : Channel, m.getLsbD (c.number - 1) = true ↔ ∃ cfg ∈ cfgs, cfg.ch = c.number)
    (c : Channel) (b : Bool) : maskBit m c = (inSet cfgs c).getD b := by
  rw [inSet, Option.getD_some, Bool.eq_iff_iff, maskBit, hm c]
  simp

/-- The rounds of legal configurations send their frames and set their gains (R107, R110). -/
theorem Sends.rounds {A : List SeqStep} {es : List Emit} {r' : Registers} (hA : Sends params A es r r')
    (ho : r'.isOpen = true) (h : ∀ cfg ∈ cfgs, LegalConfig params cfg) (j : Nat) :
    Sends params (A ++ inPlace (roundBlocks params j cfgs)) (es ++ cfgs.flatMap (configEmits params)) r
      { r' with gainc := gainsAfter cfgs r'.gainc } := by
  induction cfgs generalizing A es r' j with
  | nil => simpa [roundBlocks, gainsAfter] using hA
  | cons cfg cfgs ih =>
    rw [List.forall_mem_cons] at h
    have hround := ih (hA.append (sends_applych ho h.1)) ho h.2 (j + 1)
    rwa [List.append_assoc, List.append_assoc] at hround

/-- The stages of INITIALIZE up to the mask, for a legal set (R110). -/
theorem stage_upToMask (ho : r.isOpen = true) (hlegal : ∀ cfg ∈ cfgs, LegalConfig params cfg)
    (hdistinct : (cfgs.map (·.ch)).Nodup)
    (hm : ∀ c : Channel, m.getLsbD (c.number - 1) = true ↔ ∃ cfg ∈ cfgs, cfg.ch = c.number) :
    Stage params (upToMask params cfgs) (stopEmits ++ stopEmits) r { r with active := m } := by
  have hchecks : firstFailing (cfgs.flatMap (chkConfig params) ++ [chkDistinct cfgs]) = none := by
    rw [firstFailing_append, checks_of_legal hlegal]
    exact (refuses_chk decide_eq_true_iff).firstFailing_pass hdistinct _
  exact ((stage_testSteps ho hchecks).append (stage_leadingStops ho)).append_silent
    (sends_flagRounds (maskBit_inSet hm .ch1 _) (maskBit_inSet hm .ch2 _) (maskBit_inSet hm .ch3 _)
      (maskBit_inSet hm .ch4 _))

/-- INITIALIZE up to the end of the rounds of `earlier` (R110). -/
theorem sends_upToRounds {earlier : List ChannelConfig}
    (hmask : Stage params (upToMask params cfgs) (stopEmits ++ stopEmits) r { r with active := m })
    (ho : r.isOpen = true) (hlegal : ∀ cfg ∈ earlier, LegalConfig params cfg) :
    Sends params (upToRounds params cfgs earlier) (bringUpTo params earlier m) r
      (r.applied m (gainsAfter earlier r.gainc)) :=
  (hmask.sends.append (stage_activateAndStop (r := { r with active := m }) ho).sends).rounds ho hlegal 1

end BringUp

/-- Settles O35: up to the mask, ACT and its stop, each round up to its gain and from it on, the byte mode, and the commit
are stages, each with its failing end. -/
theorem initializeBringsUpInOrder : Obligations.InitializeBringsUpInOrder := by
  intro s cfgs five m ho hlegal hdistinct hm
  have hmask : Stage s.params (upToMask s.params cfgs) (stopEmits ++ stopEmits) s.registers
      { s.registers with active := m } := stage_upToMask ho hlegal hdistinct hm
  have hactivate := stage_activateAndStop (params := s.params) (r := { s.registers with active := m }) ho
  have hrounds {earlier : List ChannelConfig} (h : ∀ cfg ∈ earlier, cfg ∈ cfgs) :=
    sends_upToRounds hmask ho fun cfg hcfg => hlegal cfg (h cfg hcfg)
  have hall := hrounds fun _ h => h
  have hfive := stage_fiveSteps (params := s.params) (r := s.registers.applied m (gainsAfter cfgs s.gainc))
    (five.getD false) ho
  have hcommit := stage_reinitialize (params := s.params) (r := { s.registers.applied m (gainsAfter cfgs s.gainc) with
    fw := if five.getD false then .five else s.fw }) ho
  have hsteps : inPlace (bringUpBlocks s.params cfgs five) = _ := steps_upToRounds s.params cfgs five
  refine ⟨fun ha => ?_, fun e u hfail => ?_, fun e u ha hfail => ?_, fun earlier cfg later e u hcfgs ha hfail => ?_,
    fun earlier cfg later e u hcfgs ha hfail => ?_, fun e u ha hfail => ?_, fun e u ha hfail => ?_⟩
  · have hsends := (hall.append hfive.sends).append hcommit.sends
    rw [List.append_assoc, ← hsteps] at hsends
    exact finishes_of_sends (fun r => { r.applied m (gainsAfter cfgs s.gainc) with
      fw := if five.getD false then .five else s.fw }) hsends ha
  · exact finishes_of_fails_first (by simp) (steps_upToMask s.params cfgs five) hmask hfail
  · exact finishes_of_fails (fun r => { r with active := m }) (by simp) (steps_upToMask s.params cfgs five) hmask.sends
      hactivate ha hfail
  · obtain ⟨left, hround⟩ := steps_atRound s.params hcfgs five
    have hhead := stage_configHead (params := s.params) (r := s.registers.applied m (gainsAfter earlier s.gainc)) ho
      (hlegal cfg (by simp [hcfgs]))
    exact finishes_of_fails (·.applied m (gainsAfter earlier s.gainc)) (by simp) hround
      (hrounds fun c hc => by simp [hcfgs, hc]) hhead ha hfail
  · obtain ⟨left, hround⟩ := steps_atRound s.params hcfgs five
    rw [← List.append_assoc] at hround
    have hgains : gainsAfter (earlier ++ [cfg]) s.gainc =
      setGain (gainsAfter earlier s.gainc) cfg.ch (gainCodeOf cfg.gain) := List.foldl_append
    have hcfg := hlegal cfg (by simp [hcfgs])
    have hhead := stage_configHead (params := s.params) (r := s.registers.applied m (gainsAfter earlier s.gainc)) ho hcfg
    have hinput := stage_configInput (params := s.params)
      (r := s.registers.applied m (gainsAfter (earlier ++ [cfg]) s.gainc)) ho hcfg
    refine finishes_of_fails (·.applied m (gainsAfter (earlier ++ [cfg]) s.gainc)) (by simp) hround ?_ hinput ha hfail
    rw [hgains]
    exact (hrounds fun c hc => by simp [hcfgs, hc]).append hhead.sends
  · exact finishes_of_fails (·.applied m (gainsAfter cfgs s.gainc)) (by simp) hsteps hall hfive ha hfail
  · rw [← List.append_nil (inPlace reinitializeBlocks), ← List.append_assoc] at hsteps
    exact finishes_of_fails (fun r => { r.applied m (gainsAfter cfgs s.gainc) with
      fw := if five.getD false then .five else s.fw }) (by simp) hsteps (hall.append hfive.sends) hcommit ha hfail

end Sys2Proof.Machine

/-! ## OPEN and CLOSE (41_sequencer.md R101, R116) -/

namespace Sys2Proof.Machine

/-! ### OPEN -/

theorem passes_closedTest {s : State} (h : s.isOpen = false) : Passes [.closedTest] s s id :=
  passes_of_primitive (mid := []) rfl keepsPlace_id fun p => by
    have hclosed : (s.at p).isOpen = false := h
    rw [primitive, hclosed]
    exact advance_at s p p 0

theorem aborts_closedTest {s : State} (h : s.isOpen = true) : Aborts [.closedTest] s s .alreadyOpen :=
  aborts_of_primitive fun p hclose => by
    have hopen : (s.at p).isOpen = true := h
    rw [primitive, hopen]
    exact raiseExc_not_close _ hclose

section OpenTransport

variable {port : String} {baud : Int} {timeout : Rat} {s : State}

theorem passes_openTransport (h : s.answer.ok = true) : Passes [.openTransport port baud timeout] s
    { s.draw.log (.opened port baud timeout true) with rx := s.answer.arrived } id :=
  passes_of_primitive (mid := []) rfl keepsPlace_id fun p => by
    have hok : (s.at p).answer.ok = true := h
    rw [primitive, transportOpen, if_pos hok]
    exact advance_at { s.draw.log (.opened port baud timeout true) with rx := s.answer.arrived } p p 0

theorem aborts_openTransport (h : s.answer.ok = false) : Aborts [.openTransport port baud timeout] s
    (s.draw.log (.opened port baud timeout false)) .connectionError :=
  aborts_of_primitive fun p hclose => by
    have hok : (s.at p).answer.ok = false := h
    rw [primitive, transportOpen, hok]
    exact raiseExc_not_close _ hclose

end OpenTransport

/-- The registers a step writes, from these registers (R31): `writtenBy` reads nothing else of a state. -/
def SeqStep.registersAfter (st : SeqStep) (r : Registers) : Registers := writtenBy st (State.reset.carry r [])

/-- The steps that write a register (R31). -/
def SeqStep.writesRegister : SeqStep → Bool
  | .clearActive | .flipActive _ | .writeFw _ | .unsetGain _ | .writeGain _ _ | .writeCoef _ | .writeOpen _ => true
  | _ => false

theorem sends_write {params : Params} {r : Registers} {st : SeqStep} (h : st.writesRegister = true) :
    Sends params [st] [] r (st.registersAfter r) := by
  cases st
  case clearActive | flipActive | writeFw | unsetGain | writeGain | writeCoef | writeOpen =>
    exact sends_primitive (mid := []) fun _ _ _ => rfl
  all_goals cases h

/-- OPEN from its step 3 on (R101). -/
def openWrites (coef : Coef) : List SeqStep :=
  [.clearActive, .writeFw .four, .unsetGain .ch1, .unsetGain .ch2, .unsetGain .ch3, .unsetGain .ch4, .writeCoef coef,
    .writeOpen true]

/-- These writes give every register its value (R101). -/
theorem sends_openWrites (params : Params) (r : Registers) (coef : Coef) :
    Sends params (openWrites coef) [] r ⟨0, .four, coef, ⟨none, none, none, none⟩, true⟩ := by
  have write (r : Registers) (st : SeqStep) (h : st.writesRegister = true) := sends_write (params := params) (r := r) h
  exact (write r .clearActive rfl).append ((write _ (.writeFw .four) rfl).append ((write _ (.unsetGain .ch1) rfl).append
    ((write _ (.unsetGain .ch2) rfl).append ((write _ (.unsetGain .ch3) rfl).append ((write _ (.unsetGain .ch4) rfl).append
      ((write _ (.writeCoef coef) rfl).append (write _ (.writeOpen true) rfl)))))))

/-- Settles O23: the two tests that stand first decide between the three ends, and the writes give the registers. -/
theorem openConstructsTheBlock : Obligations.OpenConstructsTheBlock := by
  intro s port baud timeout mv
  have hcoef : (if mv.getD false then Coef.mv else Coef.raw) = if mv = some true then .mv else .raw := by
    cases mv <;> simp
  have hsteps : inPlace (blocks s.params (.openBlock port baud timeout mv)) = [.closedTest] ++
      ([.openTransport port (baud.getD 19200) (timeout.getD 1)] ++ openWrites (if mv = some true then .mv else .raw)) := by
    rw [← hcoef]
    rfl
  refine ⟨fun ho => ?_, fun hclosed hok => ?_, fun hclosed hok => ?_⟩
  · exact finishes_of_aborts (by simp) (fun rest => (aborts_closedTest (s := { s with requests := rest }) ho).before) rfl
  · obtain ⟨hne, f, hf, hwrites⟩ := sends_openWrites s.params s.registers (if mv = some true then .mv else .raw)
    refine finishes_of_passes (f := f) (fun rest => ?_) rfl
    rw [hsteps]
    exact (passes_closedTest (s := { s with requests := rest }) hclosed).append (by simp)
      ((passes_openTransport (s := { s with requests := rest }) hok).append hne
        (hwrites { s.draw.log (.opened port (baud.getD 19200) (timeout.getD 1) true) with rx := s.answer.arrived } rest rfl
          trivial) hf) hf
  · refine finishes_of_aborts (by simp) (fun rest => ?_) rfl
    rw [hsteps]
    exact (passes_closedTest (s := { s with requests := rest }) hclosed).then_aborts (by simp)
      (aborts_openTransport (s := { s with requests := rest }) hok).before

/-! ### A failing call inside the `try` of CLOSE -/

/-- The primitives `B`, wherever they stand, come to one of them that raises `e`, in state `u`. -/
def Raises (B : List SeqStep) (s u : State) (e : Exc) : Prop :=
  ∀ (p : Position) (L : List SeqStep), (p.rest s.params).map (·.2) = B ++ L →
    ∃ (q : Position) (n : Nat), q.op = p.op ∧ n < B.length ∧ q.rest s.params = (p.rest s.params).drop n ∧
      Leads (s.at p) (u.raiseExc q e)

theorem Raises.before {A B : List SeqStep} {s u : State} {e : Exc} (h : Raises A s u e) : Raises (A ++ B) s u e := by
  intro p L hp
  obtain ⟨q, n, hop, hn, hrest, hl⟩ := h p (B ++ L) (by rw [hp, List.append_assoc])
  exact ⟨q, n, hop, by rw [List.length_append]; omega, hrest, hl⟩

theorem Passes.then_raises {A B : List SeqStep} {s t u : State} {e : Exc} {f : Position → Position}
    (hA : Passes A s t f) (hne : B ≠ []) (hB : Raises B t u e) : Raises (A ++ B) s u e := by
  intro p L hp
  rw [List.append_assoc] at hp
  obtain ⟨q, hop, _, hq, hrest, hl⟩ := hA.here hne hp
  obtain ⟨q', n, hop', hn, hrest', hl'⟩ := hB q L hq
  refine ⟨q', A.length + n, hop'.trans hop, by rw [List.length_append]; omega, ?_, hl.trans hl'⟩
  rw [← hA.params, hrest', hrest, List.drop_drop, hA.params]

/-- A primitive that raises. -/
theorem leads_raise {s u : State} {p : Position} {st : SeqStep} {left : List SeqStep} {e : Exc}
    (hr : (p.rest s.params).map (·.2) = st :: left)
    (hprim : primitive st p (s.at p) = ⟨u.at p, p, .raises e⟩) : Leads (s.at p) (u.raiseExc p e) := by
  refine .single ?_
  rw [step_at hr, hprim]
  refine congrArg Host.Outcome.next ?_
  simp only [Effect.conclude, State.raiseExc]
  split <;> rfl

/-- A primitive that goes on takes SEQ to the step behind it (R26). -/
theorem step_on {s u : State} {p q : Position} {x y : Place × SeqStep} {left : List (Place × SeqStep)}
    (hr : p.rest s.params = x :: y :: left) (hprim : primitive x.2 p (s.at p) = ⟨u.at p, q, .on 0⟩)
    (hparams : u.params = s.params) (hop : q.op = p.op) (hpl : q.place = p.place) :
    step (s.at p) = .next (u.at { q with place := y.1 }) ∧
      ({ q with place := y.1 } : Position).rest u.params = y :: left := by
  have hdrop : (q.rest u.params).drop 1 = y :: left := by rw [hparams, rest_congr hop hpl, hr]; rfl
  refine ⟨?_, rest_of_drop (p := q) (q := { q with place := y.1 }) rfl hdrop⟩
  rw [step_at (by rw [hr]; rfl), hprim]
  show Host.Outcome.next (State.resume q ((q.rest u.params).drop 1) (u.at p)) = _
  rw [hdrop]
  rfl

/-- The same, where only the steps left are known and not their places. -/
theorem leads_on {s u : State} {p q : Position} {st st' : SeqStep} {left : List SeqStep}
    (hr : (p.rest s.params).map (·.2) = st :: st' :: left) (hprim : primitive st p (s.at p) = ⟨u.at p, q, .on 0⟩)
    (hparams : u.params = s.params) (hop : q.op = p.op) (hpl : q.place = p.place) :
    ∃ place, ({ q with place := place } : Position).rest u.params = (p.rest s.params).drop 1 ∧
      Leads (s.at p) (u.at { q with place := place }) := by
  match hl : p.rest s.params, hr with
  | (_, _) :: (place, _) :: l, hr =>
    simp only [List.map_cons, List.cons.injEq] at hr
    obtain ⟨rfl, rfl, rfl⟩ := hr
    obtain ⟨hstep, hrest⟩ := step_on hl hprim hparams hop hpl
    exact ⟨place, hrest, .single hstep⟩

/-- A SEND one of whose calls fails raises there (R80, R173). -/
theorem raises_sendSteps {src : Source} {s u : State} {e : Exc} (h : EmitsFail [.frame (sentBy src s)] s e u) :
    Raises (sendSteps src) s u e := by
  intro p L hr
  have hdrop (n : Nat) : ((p.rest s.params).drop n).map (·.2) = (sendSteps src ++ L).drop n := by
    rw [List.map_drop, hr]
  cases h with
  | write _ _ _ hok => exact ⟨p, 0, rfl, by simp [sendSteps], rfl, leads_raise hr (primitive_write_fails p hok)⟩
  | short _ _ _ hok hcount =>
    obtain ⟨place, hrest, hwrite⟩ := leads_on hr (primitive_write_ok p hok rfl) rfl rfl rfl
    exact ⟨{ keepCount s.answer.count p with place := place }, 1, rfl, by simp [sendSteps], hrest,
      hwrite.trans (leads_raise ((congrArg _ hrest).trans (hdrop 1)) (primitive_countTest_short hcount))⟩
  | flushIn _ _ _ hok hcount hflush =>
    obtain ⟨place, hrest, hwrite⟩ := leads_on hr (primitive_write_ok p hok hcount) rfl rfl rfl
    have hrest1 := (congrArg (List.map (·.2)) hrest).trans (hdrop 1)
    obtain ⟨place', hrest', hcount'⟩ := leads_on hrest1 (primitive_countTest_whole rfl) rfl rfl rfl
    rw [hrest, List.drop_drop] at hrest'
    have hrest2 := (congrArg (List.map (·.2)) hrest').trans (hdrop 2)
    exact ⟨{ keepCount 3 p with place := place' }, 2, rfl, by simp [sendSteps], hrest',
      hwrite.trans (hcount'.trans (leads_raise hrest2 (primitive_flushIn_fails _ hflush)))⟩
  | later _ _ _ _ _ _ h => cases h

theorem raises_flushOut {s u : State} {e : Exc} (h : EmitsFail [.flushOut] s e u) : Raises [.flushOut] s u e := by
  intro p L hr
  cases h with
  | flushOut _ _ hok =>
    refine ⟨p, 0, rfl, by simp, rfl, leads_raise hr ?_⟩
    have hok' : (s.at p).answer.ok = false := hok
    rw [primitive, Machine.flushOut, hok']
    rfl
  | later _ _ _ _ _ _ h => cases h

/-- The stop called in place (R102). -/
theorem passes_stop {s : State} (ho : s.isOpen = true) (ha : accepts stopEmits s) :
    Passes (inPlace stopBlocks) s (s.emitAll stopEmits) (keepCount 3) := by
  obtain ⟨hframe, hflush⟩ := accepts_cons.mp ha
  exact (passes_testOpen ho).append (by simp [callSteps_eq, testSteps])
    ((passes_callSteps (parts := partsStop) ho rfl hframe).append (by simp) (passes_flushOut hflush.1) placeFree_id)
    (placeFree_count 3)

/-- A stop that fails raises at its failing call (R102, R173). -/
theorem raises_stop {s u : State} {e : Exc} (ho : s.isOpen = true) (h : EmitsFail stopEmits s e u) :
    Raises (inPlace stopBlocks) s u e := by
  have hcall : Raises (callSteps partsStop ++ [.flushOut]) s u e := by
    rcases (emitsFail_append (es := [.frame ⟨0x00, 0x00, 0xFF⟩]) (fs := [.flushOut])).mp h with hframe | ⟨ha, hflush⟩
    · have htests : Passes (testSteps []) s s id := passes_testSteps ho rfl
      exact (htests.then_raises (by simp [sendSteps]) (raises_sendSteps (src := .frame partsStop.frame) hframe)).before
    · exact (passes_callSteps (parts := partsStop) ho rfl ha).then_raises (by simp) (raises_flushOut hflush)
  exact (passes_testOpen ho).then_raises (by simp [callSteps_eq, testSteps]) hcall

/-! ### CLOSE from its line 4 on -/

/-- An operation that leads to its end from its first step. -/
theorem finishes_of_leads {o : Op} {s t : State} {c : Completion}
    (h : ∀ rest, Leads (({ s with requests := rest } : State).at (startOf o))
      (({ t with requests := rest } : State).deliver c)) (hresults : t.results = s.results) : Finishes o s t c := by
  intro rest hi hr
  obtain ⟨n, hn⟩ := Leads.head (step_take hi hr) (h rest)
  exact ⟨n, by rw [hn, ← hresults]; rfl⟩

/-- The exception CLOSE reports after its line 4: the one kept, or else the failure of the close (R116). -/
def closeErr (p : Position) (s : State) : Option Exc :=
  if s.answer.ok then p.err else keepFirst p.err (.transportError .close)

/-- How CLOSE ends with this exception kept (R116 step 6). -/
def reported : Option Exc → Completion
  | none => .done .empty
  | some e => .raised e

theorem primitive_closeTransport (p : Position) (s : State) : primitive .closeTransport p (s.at p) =
    ⟨(s.draw.log (.closed s.answer.ok)).at p, { p with err := closeErr p s }, .on 0⟩ := by
  rw [primitive, closeEffect, closeErr]
  rcases transportClose_cases (s.at p) with ⟨hok, hx⟩ | ⟨hok, hx⟩
  all_goals
    have hok' : s.answer.ok = _ := hok
    rw [hx, hok']
    rfl

/-- Line 6 of CLOSE ends it (R116 step 6). -/
theorem leads_reportCaught {s : State} {p : Position} (hline : p.place.line = 6)
    (hr : (p.rest s.params).map (·.2) = [.reportCaught]) : Leads (s.at p) (s.deliver (reported p.err)) := by
  refine .single ?_
  rw [step_at hr]
  refine congrArg Host.Outcome.next ?_
  cases he : p.err with
  | none =>
    have hdrop : (p.rest s.params).drop 1 = [] := by
      rw [List.drop_eq_nil_iff, ← List.length_map (f := (·.2)), hr]
      rfl
    have hx : primitive .reportCaught p (s.at p) = ⟨s.at p, p, .on 0⟩ := by rw [primitive, he]; rfl
    rw [hx]
    change State.resume p ((p.rest s.params).drop 1) (s.at p) = _
    rw [hdrop]
    rfl
  | some e =>
    have hx : primitive .reportCaught p (s.at p) = ⟨s.at p, p, .raises e⟩ := by rw [primitive, he]; rfl
    rw [hx]
    exact raiseExc_uncaught (by simp [Position.catches, hline])

/-- From its line 4 CLOSE closes the Transport, clears OPEN and reports the first failure (R116). -/
theorem leads_close_line4 {s : State} {p : Position} (hop : p.op = .close) (hpl : p.place = ⟨4, 0, 0⟩) :
    Leads (s.at p) (({ s.draw.log (.closed s.answer.ok) with isOpen := false } : State).deliver
      (reported (closeErr p s))) := by
  have hr : p.rest s.params =
      [(p.place, .closeTransport), (⟨5, 0, 0⟩, .writeOpen false), (⟨6, 0, 0⟩, .reportCaught)] := by
    refine rest_of_split (earlier := (program s.params .close).take 9) ?_
    rw [hop, hpl]
    rfl
  obtain ⟨place5, hr5, hclose⟩ := leads_on (congrArg (List.map (·.2)) hr) (primitive_closeTransport p s) rfl rfl rfl
  rw [hr] at hr5
  obtain ⟨place6, hr6, hopen⟩ := leads_on (s := s.draw.log (.closed s.answer.ok))
    (u := { s.draw.log (.closed s.answer.ok) with isOpen := false })
    (congrArg (List.map (·.2)) hr5) rfl rfl rfl rfl
  rw [hr5] at hr6
  refine hclose.trans (hopen.trans (leads_reportCaught ?_ (congrArg (List.map (·.2)) hr6)))
  exact (congrArg Place.line (head_rest hr6)).symm

/-! ### CLOSE -/

/-- Nothing kept (R116 step 2). -/
def clearedErr (p : Position) : Position := { p with err := none }

/-- CLOSE up to its `try` (R116). -/
theorem passes_closeStart {s : State} (ho : s.isOpen = true) : Passes [.testOpen, .clearErr] s s clearedErr := by
  have hclear : Passes [.clearErr] s s clearedErr :=
    passes_of_primitive (mid := []) rfl (fun _ => ⟨rfl, rfl⟩) fun p => advance_at s p (clearedErr p) 0
  exact (passes_testOpen ho).append (by simp) hclear fun _ _ => rfl

/-- CLOSE whose stop is accepted: only the close can fail (R116). -/
theorem leads_close_of_accepts {s : State} (ho : s.isOpen = true) (ha : accepts stopEmits s) :
    Leads (s.at (startOf .close))
      (({ (s.emitAll stopEmits).draw.log (.closed (s.emitAll stopEmits).answer.ok) with isOpen := false } : State).deliver
        (if (s.emitAll stopEmits).answer.ok then .done .empty else .raised (.transportError .close))) := by
  have hpasses := (passes_closeStart ho).append (by simp [callSteps_eq, testSteps, stopBlocks]) (passes_stop ho ha)
    (placeFree_count 3)
  obtain ⟨q, hop, ⟨place, rfl⟩, _, hrest, hl⟩ := hpasses.here (B := [.closeTransport, .writeOpen false, .reportCaught])
    (by simp) (p := startOf .close) (L := []) (by rw [rest_startOf, program_steps]; rfl)
  rw [rest_startOf] at hrest
  have hpl : place = ⟨4, 0, 0⟩ := (head_rest hrest).symm
  refine hl.trans ?_
  have htail := leads_close_line4 (s := s.emitAll stopEmits) hop hpl
  have hreport : reported (closeErr { keepCount 3 (clearedErr (startOf .close)) with place := place } (s.emitAll stopEmits)) =
      if (s.emitAll stopEmits).answer.ok then .done .empty else .raised (.transportError .close) := by
    rw [closeErr]
    cases (s.emitAll stopEmits).answer.ok <;> rfl
  rwa [hreport] at htail

theorem isTransportError_of_emitsFail {es : List Emit} {s u : State} {e : Exc} (h : EmitsFail es s e u) :
    e.isTransportError = true := by
  induction h with
  | later _ _ _ _ _ _ _ ih => exact ih
  | _ => rfl

/-- CLOSE whose stop fails: the failure is kept, and the close attempted (R116). -/
theorem leads_close_of_emitsFail {s u : State} {e : Exc} (ho : s.isOpen = true) (h : EmitsFail stopEmits s e u) :
    Leads (s.at (startOf .close))
      (({ u.draw.log (.closed u.answer.ok) with isOpen := false } : State).deliver (.raised e)) := by
  obtain ⟨q, hop, _, hq, hrest, hl⟩ := (passes_closeStart ho).here (B := inPlace stopBlocks)
    (by simp [callSteps_eq, testSteps, stopBlocks]) (p := startOf .close) (L := [.closeTransport, .writeOpen false, .reportCaught]) (by rw [rest_startOf, program_steps]; rfl)
  obtain ⟨q', n, hop', hn, hrest', hl'⟩ := raises_stop ho h q _ hq
  rw [rest_startOf] at hrest
  rw [hrest, List.drop_drop] at hrest'
  have hline : q'.place.line = 3 := by
    have hn' : n < 7 := hn
    interval_cases n <;> exact (congrArg Place.line (head_rest hrest')).symm
  rw [raiseExc_caught (catches_iff.mpr ⟨hop'.trans hop, hline, isTransportError_of_emitsFail h⟩)] at hl'
  have htail := leads_close_line4 (s := u) (p := { q' with err := some e, place := ⟨4, 0, 0⟩ }) (hop'.trans hop) rfl
  have herr : closeErr { q' with err := some e, place := ⟨4, 0, 0⟩ } u = some e := by
    rw [closeErr]
    cases u.answer.ok <;> rfl
  rw [herr] at htail
  exact hl.trans (hl'.trans htail)

theorem extends_emitAll (es : List Emit) (s : State) : Extends s (s.emitAll es) := by
  induction es generalizing s with
  | nil => exact .refl s
  | cons e es ih => exact (extends_emit s e).trans (ih (s.emit e))

/-- Settles O27: an accepted stop leaves only the close to fail; a failing one is kept over the close. -/
theorem closeReportsFirstFailure : Obligations.CloseReportsFirstFailure := by
  intro s ho
  have accepted (ha : accepts stopEmits s) : Finishes .close s
      { (s.emitAll stopEmits).draw.log (.closed (s.emitAll stopEmits).answer.ok) with isOpen := false }
      (if (s.emitAll stopEmits).answer.ok then .done .empty else .raised (.transportError .close)) :=
    finishes_of_leads (fun rest => leads_close_of_accepts (s := { s with requests := rest }) ho
      ((accepts_congr rfl rfl).mp ha)) (emitAll_results stopEmits s)
  refine ⟨fun ha hok => ?_, fun ha hok => ?_, fun e u hfail => ?_⟩
  · have h := accepted ha
    rwa [hok] at h
  · have h := accepted ha
    rwa [hok] at h
  · exact finishes_of_leads (fun rest => leads_close_of_emitsFail (s := { s with requests := rest }) ho
      (hfail.withRequests rest)) (emitsFail_keeps hfail).2.2

/-- An end of CLOSE after its stop has left `u`, the close attempted. -/
theorem released_of_finishes {s u : State} {rest : List Request} {c : Completion} {ok : Bool}
    (hi : s.seq = .idle) (hr : s.requests = .op .close :: rest) (hregisters : u.registers = s.registers)
    (htrace : s.trace <+: u.trace)
    (h : Finishes .close s { u.draw.log (.closed ok) with isOpen := false } c) :
    ∃ (n : Nat) (t : State) (c : Completion) (ok : Bool) (pre : List Event),
      Sys2Proof.core.run n s = .next t ∧ t.seq = .idle ∧ t.isOpen = false ∧ t.requests = rest ∧
      t.results = s.results ++ [c] ∧ t.active = s.active ∧ t.fw = s.fw ∧ t.coef = s.coef ∧ t.gainc = s.gainc ∧
      t.trace = s.trace ++ pre ++ [.closed ok] := by
  obtain ⟨n, hn⟩ := h rest hi hr
  obtain ⟨hactive, hfw, hcoef, hgainc, _⟩ := Registers.mk.inj hregisters
  obtain ⟨pre, hpre⟩ := htrace
  refine ⟨n, _, c, ok, pre, hn, rfl, rfl, rfl, rfl, hactive, hfw, hcoef, hgainc, ?_⟩
  rw [hpre]
  rfl

/-- Settles O26: whether the stop is accepted or fails, CLOSE comes to its end (O27). -/
theorem closeAlwaysReleases : Obligations.CloseAlwaysReleases := by
  intro s rest ho hi hr
  obtain ⟨hdone, hclose, hstop⟩ := closeReportsFirstFailure s ho
  rcases accepts_or_emitsFail stopEmits s with ha | ⟨e, u, hfail⟩
  · have htrace : s.trace <+: (s.emitAll stopEmits).trace := (extends_emitAll stopEmits s).trace
    cases hok : (s.emitAll stopEmits).answer.ok with
    | true => exact released_of_finishes hi hr (emitAll_registers _ s) htrace (hdone ha hok)
    | false => exact released_of_finishes hi hr (emitAll_registers _ s) htrace (hclose ha hok)
  · exact released_of_finishes hi hr (registers_of_emitsFail hfail) hfail.extends.trace (hstop e u hfail)

end Sys2Proof.Machine

/-! ## The EEPROM operations (41_sequencer.md R114, R115) -/

namespace Sys2Proof.Machine

/-! ### A read -/

/-- The bytes a read leaves in the locals. -/
def keepBytes (bs : List Byte) (p : Position) : Position := { p with bs := bs }

theorem primitive_read_ok {s : State} {n : Nat} {bs : List Byte} (p : Position) (h : s.answer.ok = true)
    (hbs : readBytes n s.answer.count s.draw.rx = bs) :
    primitive (.read n) p (s.at p) = ⟨(s.afterRead n bs).at p, keepBytes bs p, .on 0⟩ := by
  subst hbs
  rw [primitive]
  rcases memRead_cases n (s.at p) with ⟨_, hx⟩ | ⟨hfails, _⟩
  · rw [hx]
    rfl
  · exact absurd (hfails.symm.trans h) Bool.false_ne_true

theorem primitive_read_fails {s : State} {n : Nat} (p : Position) (h : s.answer.ok = false) :
    primitive (.read n) p (s.at p) =
      ⟨(s.draw.log (.rx n none)).at p, p, .raises (.transportError .read)⟩ := by
  have hok : (s.at p).answer.ok = false := h
  rw [primitive, memRead, hok]
  rfl

theorem aborts_read {s : State} (n : Nat) (h : s.answer.ok = false) :
    Aborts [.read n] s (s.draw.log (.rx n none)) (.transportError .read) :=
  fun p _ hclose hr => leads_abort hr hclose (primitive_read_fails p h)

/-- A primitive that ends the operation with a result (R26). -/
theorem step_ends {s : State} {p : Position} {st : SeqStep} {left : List SeqStep} {v : Value}
    (hr : (p.rest s.params).map (·.2) = st :: left) (hprim : primitive st p (s.at p) = ⟨s.at p, p, .ends v⟩) :
    step (s.at p) = .next (s.deliver (.done v)) := by
  rw [step_at hr, hprim]
  rfl

/-- What is returned is decided by the bytes a read leaves. -/
theorem returns_after_read {s : State} {n : Nat} {bs : List Byte} {st : SeqStep} {later : List SeqStep} {v : Value}
    (h : s.answer.ok = true) (hbs : readBytes n s.answer.count s.draw.rx = bs)
    (hreturns : ∀ (p : Position) (L : List SeqStep), p.bs = bs →
      (p.rest (s.afterRead n bs).params).map (·.2) = st :: later ++ L →
      Leads ((s.afterRead n bs).at p) ((s.afterRead n bs).deliver (.done v))) :
    Returns (.read n :: st :: later) s (s.afterRead n bs) v := by
  intro p L hr
  obtain ⟨place, hrest, hread⟩ := leads_on hr (primitive_read_ok p h hbs) rfl rfl rfl
  refine hread.trans (hreturns _ L rfl ?_)
  rw [hrest, List.map_drop, hr]
  rfl

/-! ### EEREAD -/

/-- A read of two bytes gives the pair (R114). -/
theorem returns_pair {s : State} {b0 b1 : Byte} (h : s.answer.ok = true)
    (hbs : readBytes 2 s.answer.count s.draw.rx = [b0, b1]) :
    Returns [.read 2, .pairTest, .returnPair] s (s.afterRead 2 [b0, b1]) (.pair b0 b1) := by
  refine returns_after_read h hbs fun p L hp hr => ?_
  have htest : primitive .pairTest p ((s.afterRead 2 [b0, b1]).at p) = ⟨(s.afterRead 2 [b0, b1]).at p, p, .on 0⟩ := by
    rw [primitive, hp]
    rfl
  obtain ⟨place, hrest, hl⟩ := leads_on hr htest rfl rfl rfl
  refine hl.trans (.single (step_ends (st := .returnPair) (left := L) ?_ ?_))
  · rw [hrest, List.map_drop, hr]
    rfl
  · rw [primitive, hp]
    rfl

/-- A read of fewer gives no result (R114, R174). -/
theorem returns_no_pair {s : State} {bs : List Byte} (h : s.answer.ok = true)
    (hbs : readBytes 2 s.answer.count s.draw.rx = bs) (hlength : bs.length ≠ 2) :
    Returns [.read 2, .pairTest, .returnPair] s (s.afterRead 2 bs) .nothing := by
  refine returns_after_read h hbs fun p L hp hr => .single (step_ends hr ?_)
  rw [primitive, returnIf, hp, if_pos (decide_eq_true hlength)]

theorem steps_eeread (p : Params) :
    inPlace (blocks p .eeread) = callSteps partsEerd ++ ([.read 2, .pairTest, .returnPair] : List SeqStep) := rfl

/-- Settles O38: the frame, and then what the read leaves decides. -/
theorem eereadReturnsThePair : Obligations.EereadReturnsThePair := by
  intro s ho
  refine ⟨fun e u hfail => ?_, fun ha => ⟨fun hok => ?_, fun bs hok hbs => ⟨fun b0 b1 hpair => ?_, fun hlength => ?_⟩⟩⟩
  · exact finishes_of_fails_first (by simp) (steps_eeread s.params)
      (stage_call (parts := partsEerd) (r := s.registers) ho rfl rfl) hfail
  all_goals
    have hcall (rest : List Request) := passes_callSteps (parts := partsEerd) (s := { s with requests := rest }) ho rfl
      ((accepts_congr rfl rfl).mp ha)
  · refine finishes_of_aborts (by simp) (fun rest => ?_) rfl
    rw [steps_eeread]
    exact (hcall rest).then_aborts (by simp)
      (aborts_read (s := ({ s with requests := rest } : State).sent partsEerd.frame) 2 hok).before
  · subst hpair
    exact finishes_of_returns (fun rest => (hcall rest).then_returns (by simp) (returns_pair hok hbs)) rfl
  · exact finishes_of_returns (fun rest => (hcall rest).then_returns (by simp) (returns_no_pair hok hbs hlength)) rfl

/-! ### EEWRITE (R115) -/

/-- EEWRITE from its line 3 on, with the places. -/
def pollSteps : List (Place × SeqStep) :=
  [(⟨3, 0, 0⟩, .read 1), (⟨4, 0, 0⟩, .ackTest), (⟨5, 0, 0⟩, .countPoll), (⟨6, 0, 0⟩, .boundTest), (⟨7, 0, 0⟩, .goto 3)]

theorem program_eewrite (params : Params) (v : Int) :
    program params (.eewrite v) = (program params (.eewrite v)).take 7 ++ pollSteps := rfl

/-- What is left of EEWRITE at a step from line 3 on. -/
theorem rest_eewrite {params : Params} {p : Position} {v : Int} {earlier later : List (Place × SeqStep)}
    {x : Place × SeqStep} (hop : p.op = .eewrite v) (hpl : p.place = x.1) (h : pollSteps = earlier ++ x :: later) :
    p.rest params = x :: later := by
  unfold Position.rest
  rw [hop, hpl]
  refine dropWhile_of_nodup (earlier := (program params (.eewrite v)).take 7 ++ earlier)
    (program_places_nodup params _) ?_
  rw [List.append_assoc, ← h]
  exact program_eewrite params v

/-- The goto of line 7 goes to line 3 (R26, R115). -/
theorem jump_eewrite {s : State} {p : Position} {v : Int} (hop : p.op = .eewrite v) :
    s.jump p 3 = s.at { p with place := ⟨3, 0, 0⟩ } := by
  have hprogram := program_eewrite s.params v
  rw [← hop] at hprogram
  refine jump_of_split (place := ⟨3, 0, 0⟩) (later := pollSteps.tail) hprogram ?_
  rw [hop]
  simp [program, blocks, eewriteBlocks, callSteps, frameBlocks, inPlace, testSteps, sendSteps, partsEewr, placed]

theorem primitive_ackTest_ack {p : Position} {s : State} (h : p.bs = [Config.eeAck]) :
    primitive .ackTest p s = ⟨s, p, .ends .empty⟩ := by
  rw [primitive, returnIf, if_pos (decide_eq_true h)]

theorem primitive_ackTest_other {p : Position} {s : State} (h : p.bs ≠ [Config.eeAck]) :
    primitive .ackTest p s = ⟨s, p, .on 0⟩ := by
  rw [primitive, returnIf, if_neg (by simpa using h)]

/-- The exception a test raises ends an operation other than CLOSE (R182). -/
theorem step_aborts {s u : State} {p : Position} {st : SeqStep} {left : List SeqStep} {e : Exc}
    (hr : (p.rest s.params).map (·.2) = st :: left) (hclose : p.op ≠ .close)
    (hprim : primitive st p (s.at p) = ⟨u.at p, p, .raises e⟩) : step (s.at p) = .next (u.abort e) := by
  rw [step_at hr, hprim]
  exact congrArg Host.Outcome.next (raiseExc_not_close e hclose)

/-- Line 3 of EEWRITE, the poll (R115). -/
theorem eewrite_line3 {s : State} {p : Position} {v : Int} (hop : p.op = .eewrite v) (hpl : p.place = ⟨3, 0, 0⟩) :
    (s.answer.ok = false → step (s.at p) = .next ((s.draw.log (.rx 1 none)).abort (.transportError .read))) ∧
    (∀ bs, s.answer.ok = true → readBytes 1 s.answer.count s.draw.rx = bs →
      step (s.at p) = .next ((s.afterRead 1 bs).at { p with bs := bs, place := ⟨4, 0, 0⟩ })) := by
  have hr := rest_eewrite (params := s.params) (earlier := []) hop hpl rfl
  refine ⟨fun hok => ?_, fun bs hok hbs => ?_⟩
  · exact step_aborts (congrArg (List.map (·.2)) hr) (by simp [hop]) (primitive_read_fails p hok)
  · exact (step_on hr (primitive_read_ok p hok hbs) rfl rfl rfl).1

/-- From line 4 without the acknowledgement EEWRITE comes to its line 6, the poll counted (R115). -/
theorem eewrite_to_line6 {s : State} {p : Position} {v : Int} (hop : p.op = .eewrite v) (hpl : p.place = ⟨4, 0, 0⟩)
    (hack : p.bs ≠ [Config.eeAck]) :
    ∃ q, q = { p with polls := countedPolls s.params p.polls, place := ⟨6, 0, 0⟩ } ∧
      q.rest s.params = [(⟨6, 0, 0⟩, .boundTest), (⟨7, 0, 0⟩, .goto 3)] ∧
      ∀ n, Sys2Proof.core.run (n + 2) (s.at p) = Sys2Proof.core.run n (s.at q) := by
  have hr := rest_eewrite (params := s.params) (earlier := [(⟨3, 0, 0⟩, .read 1)]) hop hpl rfl
  obtain ⟨h4, hr5⟩ := step_on hr (primitive_ackTest_other hack) rfl rfl rfl
  obtain ⟨h5, hr6⟩ := step_on (q := { p with polls := countedPolls s.params p.polls, place := ⟨5, 0, 0⟩ }) hr5 rfl rfl rfl rfl
  exact ⟨_, rfl, hr6, fun n => by rw [run_succ _ h4, run_succ _ h5]⟩

/-- A poll that is not the last one allowed leads from line 4 back to line 3 (R115). -/
theorem eewrite_polls_again {s : State} {p : Position} {v : Int} (hop : p.op = .eewrite v) (hpl : p.place = ⟨4, 0, 0⟩)
    (hack : p.bs ≠ [Config.eeAck]) (hbound : chkPolls s.params (countedPolls s.params p.polls) = none) :
    Sys2Proof.core.run 4 (s.at p) =
      .next (s.at { p with polls := countedPolls s.params p.polls, place := ⟨3, 0, 0⟩ }) := by
  obtain ⟨q, rfl, hr, hrun⟩ := eewrite_to_line6 (s := s) hop hpl hack
  have htest {q : Position} (hq : chkPolls s.params q.polls = none) :
      primitive .boundTest q (s.at q) = ⟨s.at q, q, .on 0⟩ := by
    have hq' : chkPolls (s.at q).params q.polls = none := hq
    rw [primitive, hq']
    rfl
  obtain ⟨h6, hr7⟩ := step_on hr (htest hbound) rfl rfl rfl
  rw [hrun, run_succ _ h6, run_succ _ (step_at (congrArg (List.map (·.2)) hr7))]
  exact congrArg Host.Outcome.next (jump_eewrite hop)

/-- The last poll allowed raises NoAck (R115). -/
theorem eewrite_noAck {s : State} {p : Position} {v : Int} {e : Exc} (hop : p.op = .eewrite v)
    (hpl : p.place = ⟨4, 0, 0⟩) (hack : p.bs ≠ [Config.eeAck])
    (hbound : chkPolls s.params (countedPolls s.params p.polls) = some e) :
    Sys2Proof.core.run 3 (s.at p) = .next (s.abort e) := by
  obtain ⟨q, rfl, hr, hrun⟩ := eewrite_to_line6 (s := s) hop hpl hack
  have htest {q : Position} (hq : chkPolls s.params q.polls = some e) :
      primitive .boundTest q (s.at q) = ⟨s.at q, q, .raises e⟩ := by
    have hq' : chkPolls (s.at q).params q.polls = some e := hq
    rw [primitive, hq']
    rfl
  rw [hrun, run_succ _ (step_aborts (congrArg (List.map (·.2)) hr) (by simp [hop]) (htest hbound))]
  rfl

/-- No poll counted (R115 step 2). -/
def clearedPolls (p : Position) : Position := { p with polls := 0 }

theorem steps_eewrite (p : Params) (v : Int) : inPlace (blocks p (.eewrite v)) =
    (callSteps (partsEewr v) ++ ([.clearPolls] : List SeqStep)) ++ pollSteps.map (·.2) := rfl

section Eewrite

variable {s : State} {v : Int} {f : Frame}

/-- EEWRITE up to its first poll (R115). -/
theorem passes_eewriteStart (ho : s.isOpen = true) (hv : 0 ≤ v ∧ v ≤ 255) (hf : (partsEewr v).frame = f)
    (ha : accepts [.frame f] s) : Passes (callSteps (partsEewr v) ++ [.clearPolls]) s (s.sent f)
      (fun p => clearedPolls (keepCount 3 p)) := by
  subst hf
  have hclear : Passes [.clearPolls] (s.sent (partsEewr v).frame) (s.sent (partsEewr v).frame) clearedPolls :=
    passes_of_primitive (mid := []) rfl (fun _ => ⟨rfl, rfl⟩) fun p => advance_at _ p (clearedPolls p) 0
  exact (passes_callSteps ho ((refuses_chkByte v).firstFailing_pass hv _) ha).append (by simp) hclear fun _ _ => rfl

/-- A poll that reads the acknowledgement ends EEWRITE (R115). -/
theorem returns_acknowledged (h : s.answer.ok = true) (hbs : readBytes 1 s.answer.count s.draw.rx = [Config.eeAck]) :
    Returns [.read 1, .ackTest] s (s.afterRead 1 [Config.eeAck]) .empty := by
  refine returns_after_read h hbs fun p L hp hr => .single (step_ends hr ?_)
  exact primitive_ackTest_ack hp

/-- The first poll comes to line 4 with what it read and no poll counted (R115). -/
theorem leads_first_poll {bs : List Byte} (ho : s.isOpen = true) (hv : 0 ≤ v ∧ v ≤ 255) (hf : (partsEewr v).frame = f)
    (ha : accepts [.frame f] s) (hok : (s.sent f).answer.ok = true)
    (hbs : readBytes 1 (s.sent f).answer.count (s.sent f).draw.rx = bs) :
    ∃ p : Position, Leads (s.at (startOf (.eewrite v))) (((s.sent f).afterRead 1 bs).at p) ∧
      p.op = .eewrite v ∧ p.place = ⟨4, 0, 0⟩ ∧ p.bs = bs ∧ p.polls = 0 := by
  obtain ⟨q, hop, ⟨place, rfl⟩, _, hrest, hl⟩ := (passes_eewriteStart ho hv hf ha).here (p := startOf (.eewrite v))
    (B := pollSteps.map (·.2)) (L := []) (by simp [pollSteps])
    (by rw [rest_startOf, program_steps, List.append_nil]; exact steps_eewrite s.params v)
  rw [rest_startOf] at hrest
  have hstep := (eewrite_line3 (s := s.sent f) hop (head_rest hrest).symm).2 bs hok hbs
  exact ⟨_, hl.trans (.single hstep), rfl, rfl, rfl, rfl⟩

end Eewrite

/-- Settles O39: up to the first poll EEWRITE is one stage and a write of its counter; lines 3 and 4 are followed step by
step. -/
theorem eewritePollsUntilAcknowledged : Obligations.EewritePollsUntilAcknowledged := by
  refine ⟨fun s v ho => ⟨fun hv => ?_, fun hlow hhigh f hf => ?_⟩, fun s p v hs hop hpl => ?_,
    fun s p v hs hop hpl => ⟨fun hack => ?_, fun hack hnone => ?_, fun hack m hm hlt => ?_, fun hack m hm hle => ?_⟩⟩
  · exact finishes_of_check (cs := [chkByte v]) (by simp) rfl ho ((refuses_chkByte v).firstFailing_fail hv _)
  · have hchecks := (refuses_chkByte v).firstFailing_pass ⟨hlow, hhigh⟩ []
    have hframe : (partsEewr v).frame = f := by
      rw [hf, ← encode_eewr_eq_frameOfInts s.params.speedBase hlow hhigh]
      exact partsFrame_eq_encode s.params.speedBase (.eewr v) (within_iff.mpr ⟨hlow, hhigh⟩)
    refine ⟨fun e u hfail => ?_, fun ha => ?_⟩
    · exact finishes_of_fails_first (B := callSteps (partsEewr v)) (by simp) rfl
        (stage_call (r := s.registers) ho hchecks hframe) hfail
    · have hstart (rest : List Request) := passes_eewriteStart (s := { s with requests := rest }) ho ⟨hlow, hhigh⟩ hframe
        ((accepts_congr rfl rfl).mp ha)
      refine ⟨fun hok => ?_, fun hok hbs => ?_, fun bs rest hok hbs hi hr => ?_⟩
      · refine finishes_of_aborts (by simp) (fun rest => ?_) rfl
        rw [steps_eewrite]
        exact (hstart rest).then_aborts (by simp [pollSteps])
          (aborts_read (s := ({ s with requests := rest } : State).sent f) 1 hok).before
      · refine finishes_of_returns (fun rest => ?_) rfl
        rw [steps_eewrite]
        exact (hstart rest).then_returns (by simp [pollSteps])
          (returns_acknowledged (s := ({ s with requests := rest } : State).sent f) hok hbs).before
      · obtain ⟨p, hl, hp⟩ := leads_first_poll (s := { s with requests := rest }) ho ⟨hlow, hhigh⟩ hframe
          ((accepts_congr rfl rfl).mp ha) hok hbs
        obtain ⟨n, hn⟩ := Leads.head (step_take hi hr) hl
        exact ⟨n, p, hn, hp⟩
  · rw [← at_of_running hs]
    exact eewrite_line3 hop hpl
  · have hr := rest_eewrite (params := s.params) (earlier := [(⟨3, 0, 0⟩, .read 1)]) hop hpl rfl
    rw [← at_of_running hs]
    exact step_ends (congrArg (List.map (·.2)) hr) (primitive_ackTest_ack hack)
  · have hcount : countedPolls s.params p.polls = p.polls := by simp [countedPolls, hnone]
    have hagain := eewrite_polls_again (s := s) hop hpl hack (by simp [chkPolls, hnone])
    rw [at_of_running hs, hcount] at hagain
    exact hagain
  · have hcount : countedPolls s.params p.polls = p.polls + 1 := by simp [countedPolls, hm]
    have hagain := eewrite_polls_again (s := s) hop hpl hack (by simp [chkPolls, hcount, hm, hlt])
    rw [at_of_running hs, hcount] at hagain
    exact hagain
  · have hcount : countedPolls s.params p.polls = p.polls + 1 := by simp [countedPolls, hm]
    have hnoAck := eewrite_noAck (s := s) (e := .transportError .noAck) hop hpl hack (by simp [chkPolls, hcount, hm, hle])
    rw [at_of_running hs] at hnoAck
    exact hnoAck

end Sys2Proof.Machine

/-! ## The sample decoder (42_sample_decoder.md R130 to R136, R140, R141)

READSAMPLE branches on bytes a read leaves in the locals, so its ends are followed from one position to the next
(`finishes_after_frame`); what it decodes is the pure DECODE, by case of the gain cell (`decodeParts_set`,
`decodeParts_unset`). -/

namespace Sys2Proof.Machine

/-! ### The code (R133) -/

theorem sampleCode_eq (b0 b1 b2 b3 : Byte) : sampleCode b0 b1 b2 b3 =
    (b0.toNat % 16 * 2 ^ 20 ||| b1.toNat * 2 ^ 13 ||| b2.toNat * 2 ^ 6 ||| b3.toNat / 2) := by
  rw [sampleCode, show (0x0F : Nat) = 2 ^ 4 - 1 by rfl, Nat.and_two_pow_sub_one_eq_mod]
  simp only [Nat.shiftLeft_eq, Nat.shiftRight_eq_div_pow, Nat.reducePow, pow_one]

theorem sampleCode_lt (b0 b1 b2 b3 : Byte) : sampleCode b0 b1 b2 b3 < 2 ^ 24 := by
  have h1 := b1.isLt
  have h2 := b2.isLt
  have h3 := b3.isLt
  rw [sampleCode_eq]
  refine Nat.or_lt_two_pow (Nat.or_lt_two_pow (Nat.or_lt_two_pow ?_ ?_) ?_) ?_ <;> omega

/-- Bit `k` of a byte placed at bit `n`. -/
theorem testBit_byte_mul (b : Byte) (n k : Nat) :
    (b.toNat * 2 ^ n).testBit k = (decide (n ≤ k ∧ k ≤ n + 7) && b.getLsbD (k - n)) := by
  rw [Nat.testBit_mul_two_pow, BitVec.testBit_toNat]
  by_cases hk : k ≤ n + 7
  · simp [hk]
  · simp [hk, BitVec.getLsbD_of_ge b (k - n) (by omega)]

theorem testBit_sampleCode (b0 b1 b2 b3 : Byte) (k : Nat) : (sampleCode b0 b1 b2 b3).testBit k =
    ((decide (20 ≤ k ∧ k ≤ 23) && b0.getLsbD (k - 20)) || (decide (13 ≤ k ∧ k ≤ 20) && b1.getLsbD (k - 13)) ||
     (decide (6 ≤ k ∧ k ≤ 13) && b2.getLsbD (k - 6)) || (decide (k ≤ 6) && b3.getLsbD (k + 1))) := by
  have h0 : (b0.toNat % 16 * 2 ^ 20).testBit k = (decide (20 ≤ k ∧ k ≤ 23) && b0.getLsbD (k - 20)) := by
    rw [Nat.testBit_mul_two_pow, show 16 = 2 ^ 4 by rfl, Nat.testBit_mod_two_pow, BitVec.testBit_toNat, ← Bool.and_assoc,
      ← Bool.decide_and]
    congr 2
    exact propext (by omega)
  have h3 : (b3.toNat / 2).testBit k = (decide (k ≤ 6) && b3.getLsbD (k + 1)) := by
    rw [← pow_one 2, Nat.testBit_div_two_pow, BitVec.testBit_toNat]
    by_cases hk : k ≤ 6
    · simp [hk]
    · simp [hk, BitVec.getLsbD_of_ge b3 (k + 1) (by omega)]
  rw [sampleCode_eq]
  simp only [Nat.testBit_or, h0, h3, testBit_byte_mul]

/-- With bit 7 of bytes 1 to 3 clear the four terms share no bit (R133). -/
theorem sampleCode_eq_add {b0 b1 b2 b3 : Byte} (h1 : b1.toNat < 128) (h2 : b2.toNat < 128) (h3 : b3.toNat < 128) :
    sampleCode b0 b1 b2 b3 = b0.toNat % 16 * 2 ^ 20 + b1.toNat * 2 ^ 13 + b2.toNat * 2 ^ 6 + b3.toNat / 2 := by
  rw [sampleCode_eq, Nat.or_assoc, Nat.or_assoc, mul_comm, mul_comm b1.toNat, mul_comm b2.toNat,
    ← Nat.two_pow_add_eq_or_of_lt (a := b2.toNat) (by omega), ← Nat.two_pow_add_eq_or_of_lt (a := b1.toNat) (by omega),
    ← Nat.two_pow_add_eq_or_of_lt (by omega), ← add_assoc, ← add_assoc]

/-- Settles O41: the four terms over products, and then bit by bit. -/
theorem codeBitsAreOred : Obligations.CodeBitsAreOred := fun b0 b1 b2 b3 =>
  ⟨sampleCode_eq b0 b1 b2 b3, Nat.le_of_lt_succ (sampleCode_lt b0 b1 b2 b3), testBit_sampleCode b0 b1 b2 b3,
    sampleCode_eq_add⟩

/-! ### The raw value (R134) -/

/-- A code with bit 23 inverted, read as two's complement, is the code less mid-scale: the inversion keeps the low 23
bits and swaps the two halves of the range (R134). -/
theorem toInt_xor_topBit {n : Nat} (h : n < 2 ^ 24) :
    (BitVec.ofNat 24 n ^^^ 0x800000#24).toInt = (n : Int) - 2 ^ 23 := by
  have hnat : (BitVec.ofNat 24 n ^^^ 0x800000#24).toNat = n ^^^ 2 ^ 23 := by
    rw [BitVec.toNat_xor, BitVec.toNat_ofNat, Nat.mod_eq_of_lt h]
    rfl
  have hlow : (n ^^^ 2 ^ 23) % 2 ^ 23 = n % 2 ^ 23 := by rw [Nat.xor_mod_two_pow, Nat.mod_self, Nat.xor_zero]
  have hhigh : (n ^^^ 2 ^ 23) / 2 ^ 23 = n / 2 ^ 23 ^^^ 1 := Nat.xor_div_two_pow
  rw [BitVec.toInt_eq_toNat_cond, hnat]
  rcases (by omega : n / 2 ^ 23 = 0 ∨ n / 2 ^ 23 = 1) with hd | hd
  · have : (n ^^^ 2 ^ 23) / 2 ^ 23 = 1 := by rw [hhigh, hd, Nat.zero_xor]
    split <;> omega
  · have : (n ^^^ 2 ^ 23) / 2 ^ 23 = 0 := by rw [hhigh, hd, Nat.xor_self]
    split <;> omega

/-- Settles O42, from the range of the code. -/
theorem rawIsOffsetBinary : Obligations.RawIsOffsetBinary := by
  intro b0 b1 b2 b3
  have hraw : sampleRaw b0 b1 b2 b3 = (sampleCode b0 b1 b2 b3 : Int) - 8388608 := rfl
  have hcode := sampleCode_lt b0 b1 b2 b3
  exact ⟨hraw, by omega, by omega, by omega, by omega, by omega, (toInt_xor_topBit hcode).symm⟩

/-! ### DECODE (R131, R132, R135, R140) -/

theorem number_sampleChannel (b0 : Byte) : (sampleChannel b0).number = b0.toNat / 16 % 4 + 1 := by
  have hfield : channelField b0 = b0.toNat / 16 % 4 := by
    rw [channelField, Nat.shiftRight_and_distrib, Nat.shiftRight_eq_div_pow]
    exact Nat.and_two_pow_sub_one_eq_mod _ 2
  rw [sampleChannel, hfield]
  have hlt : b0.toNat / 16 % 4 < 4 := Nat.mod_lt _ (by decide)
  interval_cases b0.toNat / 16 % 4 <;> rfl

theorem number_injective {c d : Channel} (h : c.number = d.number) : c = d := by
  have hch := channelOf_number c
  rw [h, channelOf_number] at hch
  exact (Option.some.inj hch).symm

theorem sampleChannel_eq {c : Channel} {b0 : Byte} (h : c.number = b0.toNat / 16 % 4 + 1) : sampleChannel b0 = c :=
  number_injective ((number_sampleChannel b0).trans h.symm)

theorem coefScale_eq (coef : Coef) :
    coefScale coef = (if coef = .raw then 1 else 2500, if coef = .raw then 0 else 23) := by
  cases coef <;> rfl

section Decode

variable {b0 b1 b2 b3 : Byte} {timer : Option Byte} {gains : GainTable} {coef : Coef} {c : Channel}

theorem decodeParts_unset (hc : sampleChannel b0 = c) (h : gains.get c = none) :
    decodeParts b0 b1 b2 b3 timer gains coef = .error (.gainUnset c) := by
  rw [decodeParts, hc, h]

theorem decodeParts_set {g : BitVec 3} (hc : sampleChannel b0 = c) (h : gains.get c = some g) :
    decodeParts b0 b1 b2 b3 timer gains coef =
      .ok { ch := c, num := sampleRaw b0 b1 b2 b3 * (coefScale coef).1, exp := g.toNat + (coefScale coef).2
            timer := timer } := by
  rw [decodeParts, hc, h]

end Decode

/-- DECODE reads neither bits 7 to 6 of byte 0 nor bit 0 of byte 3 (R141). -/
theorem decodeParts_congr {b0 b0' b3 b3' : Byte} (b1 b2 : Byte) (timer : Option Byte) (gains : GainTable) (coef : Coef)
    (h0 : b0.toNat % 64 = b0'.toNat % 64) (h3 : b3.toNat / 2 = b3'.toNat / 2) :
    decodeParts b0 b1 b2 b3 timer gains coef = decodeParts b0' b1 b2 b3' timer gains coef := by
  have hch : sampleChannel b0 = sampleChannel b0' := sampleChannel_eq (by rw [number_sampleChannel]; omega)
  have hraw : sampleRaw b0 b1 b2 b3 = sampleRaw b0' b1 b2 b3' := by
    rw [sampleRaw, sampleRaw, sampleCode_eq, sampleCode_eq, h3, (by omega : b0.toNat % 16 = b0'.toNat % 16)]
  rw [decodeParts, decodeParts, hch, hraw]

/-- The value of a decoded sample as a product of raw value, gain and coefficient (R135). -/
theorem value_of_decodeParts {b0 b1 b2 b3 : Byte} {timer : Option Byte} {gains : GainTable} {coef : Coef} {c : Channel}
    {g : BitVec 3} {d : Decoded} (t : Time) (hc : sampleChannel b0 = c) (h : gains.get c = some g)
    (hd : decodeParts b0 b1 b2 b3 timer gains coef = .ok d) :
    (d.stamp t).value = (sampleRaw b0 b1 b2 b3 : Rat) / 2 ^ g.toNat * ((coefScale coef).1 / 2 ^ (coefScale coef).2) := by
  rw [decodeParts_set hc h] at hd
  cases hd
  simp only [Sample.value, Decoded.stamp, Int.cast_mul, pow_add, div_mul_div_comm]

/-- Settles O43: one more gain code doubles one factor of the denominator. -/
theorem decodeValueLaws : Obligations.DecodeValueLaws := by
  refine ⟨fun b0 b0' b1 b2 b3 b3' timer gains coef h0 h3 => decodeParts_congr b1 b2 timer gains coef h0 h3,
    fun b0 b1 b2 b3 timer gains c g t hnumber hg => ?_, sameValue_iff⟩
  have hc : sampleChannel b0 = c := sampleChannel_eq hnumber
  have hraw := decodeParts_set (b1 := b1) (b2 := b2) (b3 := b3) (timer := timer) (coef := .raw) hc hg
  have hmv := decodeParts_set (b1 := b1) (b2 := b2) (b3 := b3) (timer := timer) (coef := .mv) hc hg
  have hvalue := value_of_decodeParts t hc hg hraw
  refine ⟨_, _, hraw, hmv, ?_, ?_, fun gains' g' coef d d' hg' hnext hd hd' => ?_⟩
  · rw [hvalue]
    simp [coefScale]
  · rw [value_of_decodeParts t hc hg hmv, hvalue]
    simp [coefScale, mul_div_assoc]
  · rw [value_of_decodeParts t hc hg hd, value_of_decodeParts t hc hg' hd', hnext, pow_succ]
    ring

/-! ### READSAMPLE (R130) -/

section Readsample

variable {s : State} {p : Position} {bs : List Byte}

/-- The timer is the byte behind the four of the sample, where there is one (R136). -/
theorem decodeSample_frame {fw : FrameWidth} {b0 b1 b2 b3 : Byte} {timer : List Byte} (gains : GainTable) (coef : Coef)
    (h : (b0 :: b1 :: b2 :: b3 :: timer).length = fw.bytes) :
    decodeSample fw (b0 :: b1 :: b2 :: b3 :: timer) gains coef = decodeParts b0 b1 b2 b3 timer.head? gains coef := by
  match fw, timer, h with
  | .four, [], _ => rfl
  | .five, [_], _ => rfl

theorem primitive_decode_ok {d : Decoded} (h : decodeSample s.fw p.bs s.gainc s.coef = .ok d) :
    primitive .decode p s = ⟨s, { p with decoded := d }, .on 0⟩ := by
  rw [primitive, decodeEffect, h]

theorem primitive_decode_error {e : Exc} (h : decodeSample s.fw p.bs s.gainc s.coef = .error e) :
    primitive .decode p s = ⟨s, p, .raises e⟩ := by
  rw [primitive, decodeEffect, h]

theorem primitive_sampleTest_short (h : p.bs.length ≠ s.fw.bytes) :
    primitive .sampleTest p s = ⟨s, p, .ends .nothing⟩ := by
  rw [primitive, returnIf, if_pos (decide_eq_true h)]

theorem primitive_sampleTest_whole (h : p.bs.length = s.fw.bytes) : primitive .sampleTest p s = ⟨s, p, .on 0⟩ := by
  rw [primitive, returnIf, if_neg (by simpa using h)]

theorem steps_readsample (p : Params) : inPlace (blocks p .readsample) =
    ([.testOpen] : List SeqStep) ++ [.readFrame, .sampleTest, .decode, .stamp, .returnSample] := rfl

theorem aborts_readFrame (h : s.answer.ok = false) :
    Aborts [.readFrame] s (s.draw.log (.rx s.fw.bytes none)) (.transportError .read) :=
  fun p _ hclose hr => leads_abort hr hclose (primitive_read_fails p h)

/-- Where the read of an open READSAMPLE succeeds, the steps from line 3 on decide its end (R130). -/
theorem finishes_after_frame {t : State} {c : Completion} (ho : s.isOpen = true) (hok : s.answer.ok = true)
    (hbs : readBytes s.fw.bytes s.answer.count s.draw.rx = bs)
    (h : ∀ (rest : List Request) (p : Position), p.op = .readsample → p.bs = bs →
      (p.rest s.params).map (·.2) = [.sampleTest, .decode, .stamp, .returnSample] →
      Leads ((({ s with requests := rest } : State).afterRead s.fw.bytes bs).at p)
        (({ t with requests := rest } : State).deliver c)) (hresults : t.results = s.results) :
    Finishes .readsample s t c := by
  refine finishes_of_leads (fun rest => ?_) hresults
  obtain ⟨q, hop, -, hrest, -, hl⟩ := (passes_testOpen (s := { s with requests := rest }) ho).here
    (p := startOf .readsample) (B := [.readFrame, .sampleTest, .decode, .stamp, .returnSample]) (L := []) (by simp)
    (by rw [rest_startOf, program_steps, List.append_nil]; exact steps_readsample s.params)
  obtain ⟨_, hrest', hl'⟩ := leads_next (u := ({ s with requests := rest } : State).afterRead s.fw.bytes bs)
    (q := keepBytes bs q) hrest (primitive_read_ok q hok hbs) rfl rfl rfl
  exact hl.trans (hl'.trans (h rest _ hop rfl hrest'))

/-- A whole frame goes on to the decode (R130 step 3). -/
theorem leads_to_decode (hlength : p.bs.length = s.fw.bytes)
    (hr : (p.rest s.params).map (·.2) = [.sampleTest, .decode, .stamp, .returnSample]) :
    ∃ q : Position, q.op = p.op ∧ q.bs = p.bs ∧
      (q.rest s.params).map (·.2) = [.decode, .stamp, .returnSample] ∧ Leads (s.at p) (s.at q) := by
  obtain ⟨place, hrest, hl⟩ := leads_next (q := p) hr (primitive_sampleTest_whole (s := s.at p) hlength) rfl rfl rfl
  exact ⟨{ p with place := place }, rfl, rfl, hrest, hl⟩

/-- The time is drawn after the decode (R130). -/
theorem leads_to_sample {d : Decoded} (hd : decodeSample s.fw p.bs s.gainc s.coef = .ok d)
    (hr : (p.rest s.params).map (·.2) = [.decode, .stamp, .returnSample]) :
    Leads (s.at p) ((s.draw.log (.now s.answer.time)).deliver (.done (.sample (d.stamp s.answer.time)))) := by
  obtain ⟨_, hstamp, hl⟩ := leads_next hr (primitive_decode_ok (s := s.at p) hd) rfl rfl rfl
  obtain ⟨_, hreturn, hl'⟩ := leads_next (u := s.draw.log (.now s.answer.time)) hstamp rfl rfl rfl rfl
  exact hl.trans (hl'.trans (.single (step_ends hreturn rfl)))

end Readsample

/-- Settles O40: the read, then the length of what it leaves, then the gain cell of the channel. -/
theorem readsampleEndsInOrder : Obligations.ReadsampleEndsInOrder := by
  intro s bs ho
  refine ⟨fun hfails => finishes_of_aborts (by simp) (fun rest => ?_) rfl, fun hok hbs => ⟨fun hshort => ?_, ?_⟩⟩
  · rw [steps_readsample]
    exact (passes_testOpen (s := { s with requests := rest }) ho).then_aborts (by simp)
      (aborts_readFrame (s := { s with requests := rest }) hfails).before
  · refine finishes_after_frame ho hok hbs (fun rest p _ hp hr => ?_) rfl
    subst hp
    exact .single (step_ends hr (primitive_sampleTest_short hshort))
  · intro b0 b1 b2 b3 timer hframe hlength c hnumber
    have hc : sampleChannel b0 = c := sampleChannel_eq hnumber
    have hdecode : decodeSample s.fw bs s.gainc s.coef = decodeParts b0 b1 b2 b3 timer.head? s.gainc s.coef := by
      subst hframe
      exact decodeSample_frame s.gainc s.coef hlength
    refine ⟨fun hunset => finishes_after_frame ho hok hbs (fun rest p hop hp hr => ?_) rfl,
      fun g hg => finishes_after_frame ho hok hbs (fun rest p hop hp hr => ?_) rfl⟩
    all_goals
      subst hp
      obtain ⟨q, hop', hq, hr', hl⟩ := leads_to_decode
        (s := ({ s with requests := rest } : State).afterRead s.fw.bytes p.bs) hlength hr
      rw [← hq] at hdecode
      refine hl.trans ?_
    · rw [decodeParts_unset hc hunset] at hdecode
      exact leads_abort hr' (by simp [hop', hop]) (primitive_decode_error hdecode)
    · rw [decodeParts_set hc hg, coefScale_eq] at hdecode
      exact leads_to_sample (s := ({ s with requests := rest } : State).afterRead s.fw.bytes p.bs) hdecode hr'

end Sys2Proof.Machine

/-! ## Read-back and self-test (43_readback.md R150 to R157; 42_sample_decoder.md R142) -/

namespace Sys2Proof.Machine

/-! ### A group (R152, R153) -/

theorem groupDivisor_eq (hi lo : Byte) : groupDivisor hi lo = hi.toNat * 256 + lo.toNat := by
  rw [groupDivisor, ← Nat.shiftLeft_add_eq_or_of_lt lo.isLt, Nat.shiftLeft_eq]

theorem decodeGroup_zero {slot : Nat} {hi lo third : Byte} (h : hi.toNat * 256 + lo.toNat = 0) :
    decodeGroup slot hi lo third = .zeroDivisor slot := by
  rw [decodeGroup, groupDivisor_eq, if_pos h]

theorem decodeGroup_report {slot : Nat} {hi lo third : Byte} (h : hi.toNat * 256 + lo.toNat ≠ 0) :
    decodeGroup slot hi lo third =
      .report slot (hi.toNat * 256 + lo.toNat) 19200 (hi.toNat * 256 + lo.toNat)
        (third.toNat / 64) (third.toNat / 8 % 8) (third.toNat % 8) (2 ^ (third.toNat % 8)) := by
  have hlow (n : Nat) : n &&& 7 = n % 8 := Nat.and_two_pow_sub_one_eq_mod n 3
  rw [decodeGroup, groupDivisor_eq, if_neg h, hlow, hlow, gainFromCode, Nat.one_shiftLeft]
  simp only [Nat.shiftRight_eq_div_pow, Nat.reducePow]

/-- Settles O48: the divisor is zero or not. -/
theorem groupDecodesByFields : Obligations.GroupDecodesByFields :=
  fun _ _ _ _ => ⟨decodeGroup_zero, decodeGroup_report⟩

/-! ### The divisor there and back (R158) -/

/-- The nibbles FREQLO and FREQHI carry are the ones of the divisor (R85, R86). -/
theorem divisor_of_bitFields {c : Nat} (h : c ≤ 65535) :
    (bitField c 12 4 * 16 + bitField c 8 4) * 256 + (bitField c 4 4 * 16 + bitField c 0 4) = c := by
  simp only [bitField, Int.toNat_natCast]
  omega

theorem divisor_of_encoded (base : SpeedBase) {c : Nat} (h : c ≤ 65535) :
    ∃ h l hi lo : Byte,
      encode base (.freqlo 1 c) = ⟨h, l, 0xB1⟩ ∧ encode base (.freqhi 1 c) = ⟨hi, lo, 0xA1⟩ ∧
      (hi.toNat * 16 + lo.toNat) * 256 + (h.toNat * 16 + l.toNat) = c := by
  have hbyte (lo : Nat) : (byteOf (bitField c lo 4)).toNat = bitField c lo 4 :=
    toNat_byteOf (by have := bitField_le c lo; omega)
  refine ⟨_, _, _, _, rfl, rfl, ?_⟩
  rw [hbyte, hbyte, hbyte, hbyte]
  exact divisor_of_bitFields h

/-- A group that carries a divisor's two bytes reports it (R152, R153). -/
theorem decodeGroup_divisor_bytes (slot : Nat) {c : Nat} (third : Byte) (hpos : 0 < c) (h : c ≤ 65535) :
    decodeGroup slot (BitVec.ofNat 8 (c / 256)) (BitVec.ofNat 8 (c % 256)) third =
      .report slot c 19200 c (third.toNat / 64) (third.toNat / 8 % 8) (third.toNat % 8) (2 ^ (third.toNat % 8)) := by
  have hdivisor : (BitVec.ofNat 8 (c / 256)).toNat * 256 + (BitVec.ofNat 8 (c % 256)).toNat = c := by
    simp only [BitVec.toNat_ofNat]
    omega
  rw [decodeGroup_report (by omega), hdivisor]

/-- Settles O45: the divisor fits the two bytes and is not zero, and the product of a number and its quotient falls
short of the dividend by less than the number. -/
theorem frequencyRoundTrip : Obligations.FrequencyRoundTrip := by
  rintro base hz c slot third hlow hhigh rfl
  have hpos : 0 < 19200 / hz := Nat.div_pos (by omega) (by omega)
  have hmax : 19200 / hz ≤ 65535 := (Nat.div_le_self 19200 hz).trans (by decide)
  have hnext : 19200 < hz * (19200 / hz + 1) := Nat.lt_mul_div_succ 19200 (by omega)
  refine ⟨divisor_of_encoded base hmax, ⟨_, _, _, _, decodeGroup_divisor_bytes slot third hpos hmax⟩,
    Nat.mul_div_le 19200 hz, ⟨fun h => ⟨_, h.symm⟩, Nat.mul_div_cancel'⟩, ?_⟩
  rw [Nat.mul_assoc]
  rw [Nat.mul_succ] at hnext
  omega

/-! ### CHECKRECORD (R151) -/

theorem checkRecord_of_chkLength_some {bs : List Byte} {e : Exc} (h : chkLength bs = some e) :
    checkRecord bs = some e := by
  rw [checkRecord, h, firstFailing_some]

theorem checkRecord_of_chkLength_none {bs : List Byte} (h : chkLength bs = none) : checkRecord bs = chkMarker bs := by
  rw [checkRecord, h, firstFailing_none]
  cases chkMarker bs <;> rfl

/-- The marker test compares the first two bytes. -/
theorem chkMarker_eq (b0 b1 : Byte) (bs : List Byte) : chkMarker (b0 :: b1 :: bs) =
    if [0xEE, 0xEA] <+: b0 :: b1 :: bs then none else some (.malformedReadback .marker) :=
  if_congr (by simp [Config.rbMarker0, Config.rbMarker1, eq_comm]) rfl rfl

/-- Settles O47: the length, and then the two bytes of the marker. -/
theorem recordCheckedLengthThenMarker : Obligations.RecordCheckedLengthThenMarker := by
  refine fun bs => ⟨fun h => checkRecord_of_chkLength_some (if_neg h),
    fun hlength hmarker => ?_, fun hlength hmarker => ?_⟩
  all_goals
    rw [checkRecord_of_chkLength_none (if_pos hlength)]
    obtain ⟨b0, b1, bs, rfl⟩ : ∃ b0 b1 l, bs = b0 :: b1 :: l := by
      match bs, hlength with
      | b0 :: b1 :: bs, _ => exact ⟨b0, b1, bs, rfl⟩
    rw [chkMarker_eq]
  · exact if_neg hmarker
  · exact if_pos hmarker

/-! ### The comparison (R155, R157) -/

theorem any_isError_iff {slots : List SlotEntry} :
    slots.any SlotEntry.isError = true ↔ ∃ slot, .zeroDivisor slot ∈ slots := by
  rw [List.any_eq_true]
  constructor
  · rintro ⟨entry, hmem, herror⟩
    cases entry with
    | report => cases herror
    | zeroDivisor slot => exact ⟨slot, hmem⟩
  · rintro ⟨slot, hmem⟩
    exact ⟨_, hmem, rfl⟩

theorem slotsPass_iff {expected : List String} {slots : List SlotEntry} :
    slotsPass expected slots = true ↔ slots.map slotLine = expected ∧ ∀ slot, .zeroDivisor slot ∉ slots := by
  rw [slotsPass, Bool.and_eq_true, decide_eq_true_iff, Bool.not_eq_true', ← Bool.not_eq_true,
    any_isError_iff, not_exists]

/-- Settles O50: a comparison passes exactly on equal lines and no slot error. -/
theorem selftestComparesWholeText : Obligations.SelftestComparesWholeText := by
  refine fun slots expected => ⟨fun ⟨slot, hslot⟩ => ?_, fun hnone => ⟨fun hlines => ?_, fun hlines => ?_⟩⟩
  · exact if_neg fun h => (slotsPass_iff.mp h).2 slot hslot
  · exact if_pos (slotsPass_iff.mpr ⟨hlines, hnone⟩)
  · exact if_neg fun h => hlines (slotsPass_iff.mp h).1

/-! ### The checks and the slots of a record, step by step (R150 steps 5 and 6) -/

section Record

variable {s : State} {p : Position} {st : SeqStep} {left : List SeqStep}

/-- A record that CHECKRECORD accepts goes on to its slots. -/
theorem leads_accepted (h : checkRecord p.bs = none)
    (hr : (p.rest s.params).map (·.2) = .lengthTest :: .markerTest :: st :: left) :
    ∃ place, (({ p with place := place } : Position).rest s.params).map (·.2) = st :: left ∧
      Leads (s.at p) (s.at { p with place := place }) := by
  have hpass := firstFailing_eq_none.mp h
  have hlength : primitive .lengthTest p (s.at p) = ⟨s.at p, p, .on 0⟩ := by
    rw [primitive, hpass (chkLength p.bs) (by simp)]
    rfl
  obtain ⟨place, hrest, hl⟩ := leads_next hr hlength rfl rfl rfl
  have hmarker : primitive .markerTest { p with place := place } (s.at { p with place := place }) =
      ⟨s.at { p with place := place }, { p with place := place }, .on 0⟩ := by
    rw [primitive, hpass (chkMarker p.bs) (by simp)]
    rfl
  obtain ⟨place', hrest', hl'⟩ := leads_next hrest hmarker rfl rfl rfl
  exact ⟨place', hrest', hl.trans hl'⟩

/-- A malformed record ends the operation at the test that refuses it (R175). -/
theorem leads_malformed {e : Exc} (h : checkRecord p.bs = some e) (hclose : p.op ≠ .close)
    (hr : (p.rest s.params).map (·.2) = .lengthTest :: .markerTest :: left) : Leads (s.at p) (s.abort e) := by
  cases hlength : chkLength p.bs with
  | some e' =>
    cases (checkRecord_of_chkLength_some hlength).symm.trans h
    exact leads_abort hr hclose (by rw [primitive, hlength]; rfl)
  | none =>
    rw [checkRecord_of_chkLength_none hlength] at h
    obtain ⟨place, hrest, hl⟩ := leads_next (q := p) hr (u := s) (by rw [primitive, hlength]; rfl) rfl rfl rfl
    exact hl.trans (leads_abort hrest hclose (by rw [primitive, h]; rfl))

/-- The slots are decoded in order, each from the bytes read (R150 step 6). -/
theorem leads_decodeSlots (ks : List Nat) (hr : (p.rest s.params).map (·.2) = ks.map .decodeSlot ++ st :: left) :
    ∃ q : Position, q.slots = p.slots ++ ks.map (recordSlot p.bs) ∧
      (q.rest s.params).map (·.2) = st :: left ∧ Leads (s.at p) (s.at q) := by
  induction ks generalizing p with
  | nil => exact ⟨p, by simp, hr, .refl _⟩
  | cons k ks ih =>
    obtain ⟨st', left', hcons⟩ : ∃ st' left', ks.map .decodeSlot ++ st :: left = st' :: left' :=
      List.exists_cons_of_ne_nil (by simp)
    rw [List.map_cons, List.cons_append, hcons] at hr
    obtain ⟨place, hrest, hl⟩ := leads_next (q := { p with slots := p.slots ++ [recordSlot p.bs k] }) hr rfl rfl rfl rfl
    obtain ⟨q, hslots, hrest', hl'⟩ := ih (hrest.trans hcons.symm)
    exact ⟨q, by simpa using hslots, hrest', hl.trans hl'⟩

end Record

/-! ### READPARAMS lines 1 to 6, alone or in place (R150, R157) -/

/-- Emissions do not depend on the requests still to issue. -/
theorem emitAll_withRequests (es : List Emit) (s : State) (rest : List Request) :
    ({ s with requests := rest } : State).emitAll es = { s.emitAll es with requests := rest } := by
  induction es generalizing s with
  | nil => rfl
  | cons e es ih =>
    have htail := ih (s.emit e)
    cases e <;> exact htail

/-- What READPARAMS sends before its read (R150). -/
def queryEmits : List Emit := stopEmits ++ [.frame partsQuery.frame]

/-- READPARAMS up to its read (R150). -/
def recordStart : List SeqStep := [.testOpen] ++ (inPlace stopBlocks ++ callSteps partsQuery)

/-- The read and the checks of the record (R150, R151). -/
def recordRead : List SeqStep := [.read 14, .lengthTest, .markerTest]

theorem steps_record :
    inPlace recordBlocks = recordStart ++ (recordRead ++ [0, 1, 2, 3].map .decodeSlot) := rfl

theorem stage_recordStart {params : Params} {r : Registers} (ho : r.isOpen = true) :
    Stage params recordStart queryEmits r r :=
  (stage_testOpen ho).append ((stage_stop ho).append (stage_call (parts := partsQuery) ho rfl rfl))

theorem passes_recordStart {s : State} (ho : s.isOpen = true) (ha : accepts queryEmits s) :
    Passes recordStart s (s.emitAll queryEmits) (keepCount 3) := by
  obtain ⟨hstop, hquery⟩ := accepts_append.mp ha
  have hcall : Passes (callSteps partsQuery) (s.emitAll stopEmits) (s.emitAll queryEmits) (keepCount 3) :=
    passes_callSteps (parts := partsQuery) ho rfl hquery
  exact (passes_testOpen ho).append (by simp [callSteps_eq, testSteps])
    ((passes_stop ho hstop).append (by simp [callSteps_eq, testSteps]) hcall (placeFree_count 3)) (placeFree_count 3)

theorem aborts_malformed {s : State} {bs : List Byte} {e : Exc} (hok : s.answer.ok = true)
    (hbs : readBytes 14 s.answer.count s.draw.rx = bs) (h : checkRecord bs = some e) :
    Aborts recordRead s (s.afterRead 14 bs) e := by
  intro p L hclose hr
  obtain ⟨_, hrest, hl⟩ := leads_next hr (primitive_read_ok p hok hbs) rfl rfl rfl
  exact hl.trans (leads_malformed h hclose hrest)

/-- An accepted record leaves its four slots in the locals. -/
theorem leads_recordSlots {s : State} {bs : List Byte} {p : Position} {st : SeqStep} {left : List SeqStep}
    (hok : s.answer.ok = true) (hbs : readBytes 14 s.answer.count s.draw.rx = bs) (h : checkRecord bs = none)
    (hslots : p.slots = [])
    (hr : (p.rest s.params).map (·.2) = recordRead ++ ([0, 1, 2, 3].map .decodeSlot ++ st :: left)) :
    ∃ q : Position, q.slots = recordSlots bs ∧ (q.rest s.params).map (·.2) = st :: left ∧
      Leads (s.at p) ((s.afterRead 14 bs).at q) := by
  obtain ⟨_, hrest, hread⟩ := leads_next hr (primitive_read_ok p hok hbs) rfl rfl rfl
  obtain ⟨_, hrest', hchecks⟩ := leads_accepted h hrest
  obtain ⟨q, hq, hrest'', hdecode⟩ := leads_decodeSlots [0, 1, 2, 3] hrest'
  refine ⟨q, hq.trans ?_, hrest'', hread.trans (hchecks.trans hdecode)⟩
  change p.slots ++ recordSlots bs = recordSlots bs
  rw [hslots, List.nil_append]

section RecordEnds

variable {o : Op} {s : State} {st : SeqStep} {left : List SeqStep} (ho : s.isOpen = true)
  (hsteps : inPlace (blocks s.params o) = inPlace recordBlocks ++ st :: left)

include hsteps in
theorem steps_from_start : inPlace (blocks s.params o) =
    recordStart ++ (recordRead ++ ([0, 1, 2, 3].map .decodeSlot ++ st :: left)) := by
  rw [hsteps, steps_record, List.append_assoc, List.append_assoc]

include ho

/-- The start of READPARAMS, whatever is still to issue. -/
theorem passes_start_of_accepts (ha : accepts queryEmits s) (rest : List Request) :
    Passes recordStart { s with requests := rest } { s.emitAll queryEmits with requests := rest } (keepCount 3) := by
  rw [← emitAll_withRequests]
  exact passes_recordStart ho ((accepts_congr rfl rfl).mp ha)

include hsteps

theorem finishes_record_of_emitsFail {e : Exc} {u : State} (hclose : o ≠ .close) (h : EmitsFail queryEmits s e u) :
    Finishes o s u (.raised e) :=
  finishes_of_fails_first hclose (steps_from_start hsteps) (stage_recordStart (r := s.registers) ho) h

/-- Past the query, what ends the read or the checks ends the operation. -/
theorem finishes_record_of_aborts {e : Exc} {t : State} (hclose : o ≠ .close) (ha : accepts queryEmits s)
    (hresults : t.results = s.results)
    (h : ∀ rest, Aborts recordRead { s.emitAll queryEmits with requests := rest } { t with requests := rest } e) :
    Finishes o s t (.raised e) := by
  refine finishes_of_aborts hclose (fun rest => ?_) hresults
  rw [steps_from_start hsteps]
  exact (passes_start_of_accepts ho ha rest).then_aborts (List.cons_ne_nil _ _) (h rest).before

theorem finishes_record_of_read_fails (hclose : o ≠ .close) (ha : accepts queryEmits s)
    (hfails : (s.emitAll queryEmits).answer.ok = false) :
    Finishes o s ((s.emitAll queryEmits).draw.log (.rx 14 none)) (.raised (.transportError .read)) :=
  finishes_record_of_aborts ho hsteps hclose ha (emitAll_results _ _) fun rest =>
    (aborts_read (s := { s.emitAll queryEmits with requests := rest }) 14 hfails).before

variable {bs : List Byte} (ha : accepts queryEmits s) (hok : (s.emitAll queryEmits).answer.ok = true)
  (hbs : readBytes 14 (s.emitAll queryEmits).answer.count (s.emitAll queryEmits).draw.rx = bs)

include ha hok hbs

theorem finishes_record_of_malformed {e : Exc} (hclose : o ≠ .close) (h : checkRecord bs = some e) :
    Finishes o s ((s.emitAll queryEmits).afterRead 14 bs) (.raised e) :=
  finishes_record_of_aborts ho hsteps hclose ha (emitAll_results _ _) fun rest =>
    aborts_malformed (s := { s.emitAll queryEmits with requests := rest }) hok hbs h

/-- An accepted record: what the steps behind the slots return is the result. -/
theorem finishes_record_of_accepted {v : Value} (h : checkRecord bs = none)
    (hreturns : ∀ (t : State) (p : Position), p.slots = recordSlots bs → (p.rest t.params).map (·.2) = st :: left →
      Leads (t.at p) (t.deliver (.done v))) :
    Finishes o s ((s.emitAll queryEmits).afterRead 14 bs) (.done v) := by
  refine finishes_of_leads (fun rest => ?_) (emitAll_results _ _)
  obtain ⟨p, -, ⟨place, rfl⟩, hrest, -, hquery⟩ :=
    (passes_start_of_accepts ho ha rest).here (p := startOf o)
      (B := recordRead ++ ([0, 1, 2, 3].map .decodeSlot ++ st :: left)) (L := []) (List.cons_ne_nil _ _)
      (by rw [rest_startOf, program_steps, List.append_nil]; exact steps_from_start hsteps)
  rw [List.append_nil] at hrest
  obtain ⟨q, hslots, hrest', hrecord⟩ :=
    leads_recordSlots (s := { s.emitAll queryEmits with requests := rest }) hok hbs h rfl hrest
  exact hquery.trans (hrecord.trans (hreturns _ q hslots hrest'))

end RecordEnds

/-! ### READPARAMS -/

/-- Settles O49: the ends of lines 1 to 6, and then the return of the four slots. -/
theorem readparamsReportsFourSlots : Obligations.ReadparamsReportsFourSlots := by
  rintro s _ _ ho rfl rfl
  have hsteps : inPlace (blocks s.params .readparams) = inPlace recordBlocks ++ [.returnReport] := inPlace_append _ _
  refine ⟨fun e u => finishes_record_of_emitsFail ho hsteps (by simp), fun ha =>
    ⟨finishes_record_of_read_fails ho hsteps (by simp) ha, fun bs hok hbs =>
      ⟨fun e => finishes_record_of_malformed ho hsteps ha hok hbs (by simp), ?_⟩⟩⟩
  rintro h1 l1 t1 h2 l2 t2 h3 l3 t3 h4 l4 t4 rfl
  refine finishes_record_of_accepted ho hsteps ha hok hbs rfl fun t p hslots hr => .single (step_ends hr ?_)
  rw [primitive, hslots]
  rfl

/-! ### SELFTEST and FORMATSAMPLE (R157, R142) -/

/-- Lines 3 and 4 of SELFTEST return the comparison of the slots. -/
theorem leads_compareSlots {s : State} {p : Position} {expected : List String}
    (hr : (p.rest s.params).map (·.2) = [.passTest expected, .returnFail expected]) :
    Leads (s.at p) (s.deliver (.done (compareSlots expected p.slots))) := by
  by_cases h : slotsPass expected p.slots = true
  · rw [compareSlots, if_pos h]
    exact .single (step_ends hr (by rw [primitive, returnIf, if_pos h]))
  · rw [compareSlots, if_neg h]
    obtain ⟨_, hrest, hl⟩ := leads_next (u := s) (q := p) hr (by rw [primitive, returnIf, if_neg h]) rfl rfl rfl
    exact hl.trans (.single (step_ends hrest rfl))

/-- Settles O51: the ends of READPARAMS in place, and then the comparison; the test of OPEN, and then the line. -/
theorem selftestAndFormatsampleEnd : Obligations.SelftestAndFormatsampleEnd := by
  refine ⟨?_, fun s smp => ⟨fun ho => finishes_of_returns (fun rest => ?_) rfl,
    fun hclosed => finishes_of_aborts (by simp) (fun rest => ?_) rfl⟩⟩
  · rintro s _ _ expected ho rfl rfl
    have hsteps : inPlace (blocks s.params (.selftest expected)) =
        inPlace recordBlocks ++ [.passTest expected, .returnFail expected] := rfl
    refine ⟨fun e u => finishes_record_of_emitsFail ho hsteps (by simp), fun ha =>
      ⟨finishes_record_of_read_fails ho hsteps (by simp) ha, fun bs hok hbs =>
        ⟨fun e => finishes_record_of_malformed ho hsteps ha hok hbs (by simp), fun hgood => ?_⟩⟩⟩
    refine finishes_record_of_accepted ho hsteps ha hok hbs hgood fun t p hslots hr => ?_
    rw [← hslots]
    exact leads_compareSlots hr
  · have hreturns : Returns [.returnText smp] { s with requests := rest } { s with requests := rest }
        (.text (sampleLine smp)) := returns_of_primitive fun _ => rfl
    exact (passes_testOpen (s := { s with requests := rest }) ho).then_returns (by simp) hreturns
  · have htest : Aborts [.testOpen] { s with requests := rest } { s with requests := rest } .notOpen :=
      aborts_testOpen hclosed
    exact htest.before

end Sys2Proof.Machine

/-! ## Exceptions (60_exceptions.md) -/

namespace Sys2Proof.Machine

/-! ### Taking an exception (R182, R116) -/

theorem isTransportError_iff {e : Exc} : e.isTransportError = true ↔ ∃ k, e = .transportError k := by
  cases e <;> simp [Exc.isTransportError]

/-- Anywhere but at line 3 of CLOSE, and for every other class of exception, nothing catches (R116, R182). -/
theorem not_catches {p : Position} {e : Exc} (h : p.op ≠ .close ∨ p.place.line ≠ 3 ∨ ∀ k, e ≠ .transportError k) :
    p.catches e = false := by
  refine Bool.eq_false_of_not_eq_true fun hcatches => ?_
  obtain ⟨hop, hline, hkind⟩ := catches_iff.mp hcatches
  obtain ⟨k, rfl⟩ := isTransportError_iff.mp hkind
  rcases h with hother | hother | hother
  · exact hother hop
  · exact hother hline
  · exact hother k rfl

/-- Settles O19: an exception that line 3 of CLOSE does not catch is taken (`not_catches`), and one it catches is kept. -/
theorem exceptionEndsOperation : Obligations.ExceptionEndsOperation := by
  refine fun s p e => ⟨fun h => raiseExc_uncaught (not_catches h), fun hop hline k hk => ?_⟩
  exact raiseExc_caught (catches_iff.mpr ⟨hop, hline, isTransportError_iff.mpr ⟨k, hk⟩⟩)

/-! ### The first test of an operation (R178) -/

theorem primitive_testOpen_closed {s : State} (p : Position) (h : s.isOpen = false) :
    primitive .testOpen p s = ⟨s, p, .raises .notOpen⟩ := by
  rw [primitive, chkOpen_closed h]
  rfl

theorem primitive_closedTest_open {s : State} (p : Position) (h : s.isOpen = true) :
    primitive .closedTest p s = ⟨s, p, .raises .alreadyOpen⟩ := by
  rw [primitive, if_pos h]
  rfl

theorem firstTest_of_not_open {o : Op} (h : ∀ port baud timeout mv, o ≠ .openBlock port baud timeout mv) :
    o.firstTest = .testOpen := by
  cases o
  case openBlock port baud timeout mv => exact absurd rfl (h port baud timeout mv)
  all_goals rfl

/-- An operation whose first test raises ends there with nothing done; that test stands at line 1, so that CLOSE, too,
does not catch what it raises (R116, R182). -/
theorem finishes_of_firstTest {o : Op} {s : State} {e : Exc}
    (h : ∀ t : State, t.isOpen = s.isOpen → primitive o.firstTest (startOf o) t = ⟨t, startOf o, .raises e⟩) :
    Finishes o s s (.raised e) := by
  refine finishes_of_leads (fun rest => ?_) rfl
  obtain ⟨later, hfirst⟩ := program_first s.params o
  have hsteps : ((startOf o).rest s.params).map (·.2) = o.firstTest :: later.map (·.2) := by
    rw [rest_startOf, hfirst, List.map_cons]
  have huncaught : (startOf o).catches e = false := not_catches (.inr (.inl (by simp [startOf])))
  have hraise := leads_raise (s := { s with requests := rest }) (u := { s with requests := rest }) hsteps (h _ rfl)
  rwa [raiseExc_uncaught huncaught] at hraise

/-- A frame-level instruction in a closed block, idle before and after it (R80, R178). -/
theorem exec_closed {i : Instr} {s : State} (hclosed : s.isOpen = false) (hidle : s.seq = .idle) :
    exec i s = .next { s with results := s.results ++ [.raised .notOpen] } := by
  rw [exec_eq_issueFrame, issueFrame_of_check (by rw [chkOpen_closed hclosed, firstFailing_some]), State.abort,
    State.deliver, ← hidle]

/-- Settles O24: what the first test of each operation raises ends it (`finishes_of_firstTest`). -/
theorem notOpenAndAlreadyOpenComeFirst : Obligations.NotOpenAndAlreadyOpenComeFirst := by
  refine ⟨rfl, rfl, fun s o hclosed hother => ?_, fun s i => exec_closed, fun s port baud timeout mv hopen => ?_⟩
  · refine finishes_of_firstTest fun t ht => ?_
    rw [firstTest_of_not_open hother]
    exact primitive_testOpen_closed _ (ht.trans hclosed)
  · exact finishes_of_firstTest fun t ht => primitive_closedTest_open _ (ht.trans hopen)

end Sys2Proof.Machine
